-- ==== Sys2Proof/Word.lean ====
section
/-! DEFINITION. The machine word: every host register and every command word is 32 bits
(00_scope.md R6, REG_W; 30_encoding.md R90). -/

namespace Sys2Proof

/-- A host register or a command word (00_scope.md R6). -/
abbrev Word := BitVec 32

end Sys2Proof
end

