-- ==== Sys2Proof/Config.lean ====
section
/-! DEFINITION. The engine's implementation parameters (00_scope.md R6), the open parameter MAGIC, and the
free values that stand where the spec says "any value" (93_implementation_defined.md I8, I9, I15, I16). -/

namespace Sys2Proof.Config

/-- Symbols 0..256 (00_scope.md R6). -/
abbrev NSYM : Nat := 257

/-- The end-of-stream symbol (00_scope.md R6). -/
abbrev PSEUDO_EOF : Nat := 256

/-- Capacity of the tree store (00_scope.md R6, 92_eei_decisions.md D11). -/
abbrev NODE_CAP : Nat := 513

/-- The most bits a code can have (00_scope.md R6, 92_eei_decisions.md D12). -/
abbrev CODE_MAX : Nat := 256

/-- MAGIC, the 32-bit tag: OPEN in the spec, so it has no body here (00_scope.md R6; I2; log 2). -/
opaque MAGIC : Word

/-- Free value: the n-th word the spec calls "any value" (log 1). -/
opaque freeWord : Nat → Word

/-- Free value: the contents of entry i of the tree store at the n-th draw, as the 71 bits of its five
fields (log 1, log 9). -/
opaque freeNodeBits : Nat → Nat → BitVec 71

/-- Free value: a position, drawn for a source whose command was cut off by a reset (log 1, log 11). -/
opaque freePos : Nat → Nat

/-- Free value: the bits a cut-off command may have written to the sink (log 1, log 11). -/
opaque freeBits : Nat → List Bool

/-- Free value: whether a cut-off command closed the sink (log 1, log 11). -/
opaque freeClosed : Nat → Bool

end Sys2Proof.Config
end

