-- ==== Sys2Proof/Syntax.lean ====
section
/-! DEFINITION. The 21 commands of the opcode map (30_encoding.md R96), one constructor a row. -/

namespace Sys2Proof

/-- A command. Operand fields are unsigned numbers (30_encoding.md R95): `sym` is SYM, `wsel` is WSEL, `idx` is
IDX. FREQ_WR's value operand is not here: it is CUR_ARG (R95). -/
inductive Instr where
  | nop
  | clrf
  | sreset
  | freqClr
  | freqCount
  | freqWr (sym : Nat)
  | freqRd (sym : Nat)
  | build
  | nodeRd (idx : Nat)
  | genCodes
  | codeRd (sym wsel : Nat)
  | wrHdr
  | rdHdr
  | encode
  | encSym (sym : Nat)
  | decode
  | decSym
  | wrTag
  | chkTag
  | srcRewind
  | snkClose
  deriving DecidableEq, Repr

end Sys2Proof
end

