-- ==== Sys2Proof/Machine/State.lean ====
section
/-! DEFINITION. The machine's state, all of it plain data, its state after reset, and the named reasons a step can
stop (10_state.md R20 to R44). -/

namespace Sys2Proof.Machine

/-- One entry of the tree store (10_state.md R31). -/
structure Node where
  leaf : Bool
  sym : BitVec 9
  wgt : BitVec 41
  left : BitVec 10
  right : BitVec 10
  deriving DecidableEq, Repr

/-- A tree-store entry with every field 0: what State.reset names where the spec gives no value
(10_state.md R44; log 3, DESIGN CHOICE). -/
def Node.zero : Node := ⟨false, 0, 0, 0, 0⟩

/-- One entry of the code table (10_state.md R34). -/
structure CodeEntry where
  valid : Bool
  len : BitVec 9
  bits : BitVec 256
  deriving DecidableEq, Repr

/-- A code-table entry that holds no code (10_state.md R34, R44). -/
def CodeEntry.absent : CodeEntry := ⟨false, 0, 0⟩

/-- What the host does next (10_state.md R20; log 5). -/
inductive Input where
  /-- Write `v` to the register at byte offset `off`, by an access of `width` bits (20_memory.md R70 to R72). -/
  | write (width off : Nat) (v : Word)
  /-- Read the register at byte offset `off`, by an access of `width` bits (20_memory.md R70 to R72). -/
  | read (width off : Nat)
  /-- Attach a source holding `bits`, at position 0 (10_state.md R38; 70_reset_and_hazards.md R313). -/
  | attachSource (bits : List Bool)
  /-- Attach an empty open sink (10_state.md R39; 70_reset_and_hazards.md R313). -/
  | attachSink
  /-- Drive the engine's reset input (70_reset_and_hazards.md R310, R311). -/
  | reset
  /-- Let the engine take its step before the next host step (40_control.md R124). -/
  | engine
  /-- WAIT (30_encoding.md R99): poll STATUS until BUSY = 0 and DONE = 1; on a recorded fault leave the sequence,
  after SNK_CLOSE; WAIT if `closeSink` (R100, R101). -/
  | wait (closeSink : Bool)
  deriving DecidableEq, Repr

/-- Why the machine stops. Neither is a fault of the spec's: those are recorded and the machine goes on
(60_exceptions.md R284). -/
inductive Fault where
  /-- Raised by GENCODES, WRHDR, DECODE, DEC_SYM and NODE_RD when TREE_VALID = 1 but the store holds no
  well-formed tree, contrary to 10_state.md R33, so the spec gives the walk no meaning. Safe; no run reaches it
  (log 14). -/
  | treeNotWellFormed
  /-- Raised by BUILD when every frequency is 0, contrary to 10_state.md R30, so RemoveMin has nothing to remove.
  Safe; no run reaches it (log 15). -/
  | emptyQueue
  deriving DecidableEq, Repr

/-- What the model has no transition for. -/
inductive Refusal where
  /-- Answered by exec for an instruction that has no meaning yet. Safe. -/
  | notModelled (mnemonic : String)
  /-- A register access narrower or wider than 32 bits (20_memory.md R70; I10). Safe (log 13). -/
  | accessWidth
  /-- A register access at an offset that is not a multiple of 4 (20_memory.md R70; I10). Safe (log 13). -/
  | accessMisaligned
  /-- A register access outside the 256-byte window (20_memory.md R70). Safe (log 13). -/
  | accessOutsideWindow
  /-- A source or sink attached while BUSY = 1 (70_reset_and_hazards.md R321; I17). Safe (log 12). -/
  | portChangeWhileBusy
  deriving DecidableEq, Repr

/-- The whole machine (10_state.md R20 to R44). STATUS and TREEINFO are views of these fields (R23, R28); CMD holds no
state (R22). -/
structure State where
  /-- ARG (R24) -/
  arg : Word
  /-- RES0 (R25) -/
  res0 : Word
  /-- RES1 (R25) -/
  res1 : Word
  /-- RES2 (R25) -/
  res2 : Word
  /-- FCMD (R26) -/
  fcmd : Word
  /-- FDETAIL (R27) -/
  fdetail : Word
  /-- STATUS.BUSY (R23, R37) -/
  busy : Bool
  /-- STATUS.DONE (R23, R37) -/
  done : Bool
  /-- STATUS.FAULT (R23, R36) -/
  fault : Bool
  /-- STATUS.LOST (R23, R36) -/
  lost : Bool
  /-- STATUS.TREE_VALID (R23) -/
  treeValid : Bool
  /-- STATUS.CODES_VALID (R23) -/
  codesValid : Bool
  /-- STATUS.FCODE (R23, R36) -/
  fcode : BitVec 8
  /-- CUR, the accepted command word (R37) -/
  cur : Word
  /-- CUR_ARG, ARG as sampled at acceptance (R37) -/
  curArg : Word
  /-- FREQ (R29) -/
  freq : Vector Word 257
  /-- NODE (R31) -/
  node : Vector Node 513
  /-- NCOUNT (R32) -/
  ncount : BitVec 10
  /-- ROOT (R32) -/
  root : BitVec 10
  /-- CODE (R34) -/
  code : Vector CodeEntry 257
  /-- IN.bits (R38) -/
  inBits : List Bool
  /-- IN.pos (R38) -/
  inPos : Nat
  /-- OUT.bits (R39) -/
  outBits : List Bool
  /-- OUT.closed (R39); STATUS.SNK_CLOSED mirrors it (R23) -/
  outClosed : Bool
  /-- The model's own: what the host does next, oldest first (log 5). -/
  inputs : List Input
  /-- The model's own: the word the host's last register read returned (log 7). -/
  rdata : Word
  /-- The model's own: how many free values have been drawn (log 1). -/
  draws : Nat
  deriving DecidableEq, Repr

/-- The machine right after reset: 10_state.md R44, the named values of log 3 for NODE, CUR and CUR_ARG, and the ports
of log 4. -/
def State.reset : State where
  arg := 0
  res0 := 0
  res1 := 0
  res2 := 0
  fcmd := 0
  fdetail := 0
  busy := false
  done := false
  fault := false
  lost := false
  treeValid := false
  codesValid := false
  fcode := 0
  cur := 0
  curArg := 0
  freq := (Vector.replicate 257 (0 : Word)).set 256 1
  node := Vector.replicate 513 Node.zero
  ncount := 0
  root := 0
  code := Vector.replicate 257 CodeEntry.absent
  inBits := []
  inPos := 0
  outBits := []
  outClosed := false
  inputs := []
  rdata := 0
  draws := 0

end Sys2Proof.Machine
end

