-- ==== Sys2Proof/Machine/Flags.lean ====
section
/-! DEFINITION. The flags: fault codes, STATUS and TREEINFO as the host reads them (10_state.md R23, R28;
60_exceptions.md R280). -/

namespace Sys2Proof.Machine

/-- The fault codes' names (60_exceptions.md R280). -/
inductive FaultCode where
  | illegalCmd
  | badOperand
  | noTree
  | noCodes
  | sinkClosed
  | badMagic
  | shortTag
  | truncHdr
  | truncPayload
  | missingCode
  | badSymbol
  | hdrOverflow
  | countOverflow
  | degenerateTree
  deriving DecidableEq, Repr

/-- The 8-bit FCODE of a fault (60_exceptions.md R280). -/
def faultNumber : FaultCode → BitVec 8
  | .illegalCmd => 0x01
  | .badOperand => 0x02
  | .noTree => 0x03
  | .noCodes => 0x04
  | .sinkClosed => 0x05
  | .badMagic => 0x06
  | .shortTag => 0x07
  | .truncHdr => 0x08
  | .truncPayload => 0x09
  | .missingCode => 0x0A
  | .badSymbol => 0x0B
  | .hdrOverflow => 0x0C
  | .countOverflow => 0x0D
  | .degenerateTree => 0x0E

/-- One bit of a register, at `position` of a 32-bit word. -/
def flagAt (b : Bool) (position : Nat) : Word := (BitVec.ofBool b).setWidth 32 <<< position

/-- STATUS while BUSY = 0, bit by bit as 10_state.md R23 lists them; bits 7 and 31:16 read 0. -/
def State.statusWord (s : State) : Word :=
  flagAt s.busy 0 ||| flagAt s.done 1 ||| flagAt s.fault 2 ||| flagAt s.lost 3 ||| flagAt s.treeValid 4 |||
    flagAt s.codesValid 5 ||| flagAt s.outClosed 6 ||| s.fcode.setWidth 32 <<< 8

/-- TREEINFO: ROOT in [25:16], NCOUNT in [9:0] (10_state.md R28). -/
def State.treeInfo (s : State) : Word := s.root.setWidth 32 <<< 16 ||| s.ncount.setWidth 32

/-- STATUS while BUSY = 1: BUSY reads 1, DONE reads 0, every other bit is that of the free word `w`
(70_reset_and_hazards.md R315). -/
def busyStatus (w : Word) : Word := (w &&& 0xFFFFFFFC#32) ||| 1#32

end Sys2Proof.Machine
end

