-- ==== Sys2Proof/Machine/Ops.lean ====
section
/-! DEFINITION. The operations every command shares: bit strings, the two ports, the tables, acceptance and completion
of a command, taking a fault and returning from one, and reset. -/

namespace Sys2Proof.Machine

/-- The three endings of a step on this machine. -/
abbrev Res := Host.Outcome State Fault Refusal

/-! ### Bit strings (00_scope.md R8) -/

/-- numeral(p): the first bit is the most significant (00_scope.md R8). -/
def numeral (p : List Bool) : Nat := p.foldl (fun n b => 2 * n + b.toNat) 0

/-- bits_w(v), most significant bit first (00_scope.md R8; 20_memory.md R65). -/
def bitsOf : Nat → Nat → List Bool
  | 0, _ => []
  | w + 1, v => v.testBit w :: bitsOf w v

/-- The bit string of a byte stream: bit 8k is bit 7 of byte k (20_memory.md R66). -/
def bitsOfBytes (bytes : List (BitVec 8)) : List Bool := bytes.flatMap fun b => bitsOf 8 b.toNat

/-- `tabulate n f` is the table whose entry i is `f i`. Irreducible, so that no unifier ever lists 513 entries. -/
@[irreducible] def tabulate {α : Type} (n : Nat) (f : Nat → α) : Vector α n :=
  ⟨((List.range n).map f).toArray, by simp⟩

/-! ### The ports (20_memory.md R60 to R63) -/

/-- How many bits the source still holds (20_memory.md R60). -/
def State.bitsLeft (s : State) : Nat := s.inBits.length - s.inPos

/-- SrcRead(w): the next w bits and the source past them, or EOD (none) with nothing consumed
(20_memory.md R60). -/
def State.srcRead (s : State) (w : Nat) : Option (Nat × State) :=
  if s.bitsLeft < w then none
  else some (numeral ((s.inBits.drop s.inPos).take w), { s with inPos := s.inPos + w })

/-- How many whole bytes the source still holds (41_frequency.md R142; 45_stream_encode.md R222). -/
def State.bytesLeft (s : State) : Nat := s.bitsLeft / 8

/-- SrcRewind() (20_memory.md R61). -/
def State.srcRewind (s : State) : State := { s with inPos := 0 }

/-- SnkWrite(w, v): append bits_w(v) (20_memory.md R62). The caller has checked that the sink is open. -/
def State.snkWrite (s : State) (w v : Nat) : State := { s with outBits := s.outBits ++ bitsOf w v }

/-- How many 0 bits take n bits to a multiple of 8 (20_memory.md R63). -/
def padding (n : Nat) : Nat := (8 - n % 8) % 8

/-- SnkClose() (20_memory.md R63). -/
def State.snkClose (s : State) : State :=
  if s.outClosed then s
  else { s with outBits := s.outBits ++ List.replicate (padding s.outBits.length) false, outClosed := true }

/-- The host attaches a source, at position 0 (10_state.md R38; 70_reset_and_hazards.md R313). -/
def State.withSource (s : State) (bits : List Bool) : State := { s with inBits := bits, inPos := 0 }

/-- The host attaches an empty open sink (10_state.md R39; 70_reset_and_hazards.md R313). -/
def State.withSink (s : State) : State := { s with outBits := [], outClosed := false }

/-! ### The tables (10_state.md R29 to R34) -/

/-- FREQ[v]; v is at most 256 wherever a rule reads it (10_state.md R29). -/
def State.freqAt (s : State) (v : Nat) : Word := s.freq[v]?.getD 0

/-- FREQ[v] <- x (10_state.md R29). -/
def State.setFreq (s : State) (v : Nat) (x : Word) : State := { s with freq := s.freq.setIfInBounds v x }

/-- FREQ[0..255] <- 0; FREQ[256] keeps its value (41_frequency.md R140, R141). -/
def State.clearCounts (s : State) : State :=
  { s with freq := tabulate 257 fun v => if v < 256 then 0 else s.freqAt v }

/-- CODE[v]; v is at most 256 wherever a rule reads it (10_state.md R34). -/
def State.codeAt (s : State) (v : Nat) : CodeEntry := s.code[v]?.getD CodeEntry.absent

/-- NODE[i], or none where the store has no entry i (10_state.md R31). -/
def State.nodeAt (s : State) (i : BitVec 10) : Option Node := s.node[i.toNat]?

/-- A tree-store entry whose fields are free (log 1, log 9). -/
def freeNode (draw i : Nat) : Node :=
  let b := Config.freeNodeBits draw i
  ⟨b.getLsbD 70, b.extractLsb' 61 9, b.extractLsb' 20 41, b.extractLsb' 10 10, b.extractLsb' 0 10⟩

/-- Entries at NCOUNT and above hold no defined value (10_state.md R32; I15): each becomes free (log 9). -/
def State.undefineNodes (s : State) : State :=
  { s with
    node := tabulate 513 fun i =>
      if i < s.ncount.toNat then s.node[i]?.getD Node.zero else freeNode s.draws i
    draws := s.draws + 1 }

/-! ### Completion and faults (40_control.md R121; 60_exceptions.md R284) -/

/-- CUR and CUR_ARG hold a defined value only while BUSY = 1 (10_state.md R37; I16): both become free (log 8). -/
def State.undefineCur (s : State) : State :=
  { s with
    cur := Config.freeWord s.draws
    curArg := Config.freeWord (s.draws + 1)
    draws := s.draws + 2 }

/-- Completion: BUSY <- 0, DONE <- 1 (40_control.md R121). -/
def State.complete (s : State) : State := State.undefineCur { s with busy := false, done := true }

/-- The fault record: FAULT, FCODE, FCMD from CUR, FDETAIL; nothing else is saved (60_exceptions.md R284). -/
def State.recordFault (s : State) (code : FaultCode) (detail : Word) : State :=
  { s with fault := true, fcode := faultNumber code, fcmd := s.cur, fdetail := detail }

/-- The return from a fault: FAULT, FCODE, LOST, FCMD and FDETAIL to 0 (40_control.md R127; 60_exceptions.md R287). -/
def State.clearFault (s : State) : State :=
  { s with fault := false, fcode := 0, lost := false, fcmd := 0, fdetail := 0 }

/-- `done`: the command ends successfully, then completes (00_scope.md R9; 40_control.md R121). -/
def finish (s : State) : Res := .next s.complete

/-- `raise Fault(code, detail)`: TAKING A FAULT. The record is made and the command completes; every effect made before
stays (60_exceptions.md R284, R285; 40_control.md R121). -/
def raise (code : FaultCode) (detail : Word) (s : State) : Res := .next (s.recordFault code detail).complete

/-- A position as a 32-bit detail: IN.pos mod 2^32 (60_exceptions.md R280). -/
def State.posDetail (s : State) : Word := BitVec.ofNat 32 s.inPos

/-- A result-producing command writes all three result registers (10_state.md R25; 92_eei_decisions.md D32). -/
def State.setResults (s : State) (r0 r1 r2 : Word) : State := { s with res0 := r0, res1 := r1, res2 := r2 }

/-! ### Acceptance (40_control.md R120, R122) -/

/-- The four words that pass the fault gate: NOP, CLRF, SRESET, SNK_CLOSE (60_exceptions.md R286). -/
def passesFaultGate (c : Word) : Bool := c == 0x00#32 || c == 0x01#32 || c == 0x02#32 || c == 0x73#32

/-- Discard(c): LOST and DONE set, nothing else (40_control.md R122). -/
def State.discard (s : State) : State := { s with lost := true, done := true }

/-- A command word accepted into CUR, with ARG sampled (40_control.md R120). -/
def State.accept (s : State) (c : Word) : State :=
  { s with done := false, cur := c, curArg := s.arg, busy := true }

/-- A host write of c to CMD (40_control.md R120). -/
def State.offer (s : State) (c : Word) : State :=
  if s.busy then { s with lost := true }
  else if s.fault && !passesFaultGate c then s.discard
  else s.accept c

/-! ### Reset (10_state.md R44; 70_reset_and_hazards.md R310, R311) -/

/-- Every piece of engine state at its value in 10_state.md R44: that of State.reset, with the ports and the model's
own fields as they were, and NODE, CUR and CUR_ARG free, since the table gives them no value (log 8, log 9). -/
def State.resetEngine (s : State) : State :=
  State.undefineCur (State.undefineNodes
    { State.reset with
      inBits := s.inBits
      inPos := s.inPos
      outBits := s.outBits
      outClosed := s.outClosed
      inputs := s.inputs
      rdata := s.rdata
      draws := s.draws })

/-- The ports after a reset that cut off a command: any position in the source, any bits after those the sink held, open
or closed (70_reset_and_hazards.md R311; I9; log 11). -/
def State.freePorts (s : State) : State :=
  { s with
    inPos := min (Config.freePos s.draws) s.inBits.length
    outBits := s.outBits ++ Config.freeBits s.draws
    outClosed := Config.freeClosed s.draws
    draws := s.draws + 1 }

/-- The reset input (70_reset_and_hazards.md R310, R311). -/
def State.resetInput (s : State) : State :=
  if s.busy then s.freePorts.resetEngine else s.resetEngine

end Sys2Proof.Machine
end

