-- ==== Sys2Proof/Machine/Operands.lean ====
section
/-! DEFINITION. Operand forms: the legal range of SYM, the code string of a table entry, the word of a code that WSEL
selects, and the packing of a node for NODE_RD (30_encoding.md R95; 42_tree_builder.md R165; 43_code_table.md R183). -/

namespace Sys2Proof.Machine

/-- An operand field as a fault's detail, zero-extended (60_exceptions.md R280). -/
def fieldDetail (v : Nat) : Word := BitVec.ofNat 32 v

/-- SYM is legal where an entry 0..256 is meant (60_exceptions.md R282 step 4). -/
def symInAlphabet (sym : Nat) : Bool := sym ≤ 256

/-- SYM is legal where a byte 0..255 is meant: FREQ_WR (60_exceptions.md R282 step 4). -/
def symIsByte (sym : Nat) : Bool := sym ≤ 255

/-- The code string of an entry: bits_len(bits[len-1:0]) (10_state.md R34). -/
def CodeEntry.str (e : CodeEntry) : List Bool := bitsOf e.len.toNat e.bits.toNat

/-- The entry GENCODES writes for a leaf reached by the path p (43_code_table.md R180). -/
def codeOfPath (p : List Bool) : CodeEntry := ⟨true, BitVec.ofNat 9 p.length, BitVec.ofNat 256 (numeral p)⟩

/-- Word WSEL of a code: bits[32·WSEL + 31 : 32·WSEL] (43_code_table.md R183). -/
def codeWord (e : CodeEntry) (wsel : Nat) : Word := e.bits.extractLsb' (32 * wsel) 32

/-- RES0 of CODE_RD: valid << 31 | len (43_code_table.md R183). -/
def codeHead (e : CodeEntry) : Word := flagAt e.valid 31 ||| e.len.setWidth 32

/-- RES0 of NODE_RD: wgt[31:0] (42_tree_builder.md R165). -/
def nodeWeightLow (n : Node) : Word := n.wgt.extractLsb' 0 32

/-- RES1 of NODE_RD: wgt[40:32] (42_tree_builder.md R165). -/
def nodeWeightHigh (n : Node) : Word := (n.wgt.extractLsb' 32 9).setWidth 32

/-- RES2 of NODE_RD: leaf << 31 | sym << 20 | left << 10 | right (42_tree_builder.md R165). -/
def nodeLinks (n : Node) : Word :=
  flagAt n.leaf 31 ||| n.sym.setWidth 32 <<< 20 ||| n.left.setWidth 32 <<< 10 ||| n.right.setWidth 32

/-- The child a bit selects: left on 0, right on 1 (46_stream_decode.md R240). -/
def Node.child (n : Node) (bit : Bool) : BitVec 10 := if bit then n.right else n.left

end Sys2Proof.Machine
end

