-- ==== Sys2Proof/Machine/CodeTable.lean ====
section
/-! DEFINITION. The code table commands GENCODES and CODE_RD (43_code_table.md R180 to R183). -/

namespace Sys2Proof.Machine

/-- CODE[sym] <- e (10_state.md R34). -/
def State.setCode (s : State) (sym : Nat) (e : CodeEntry) : State := { s with code := s.code.setIfInBounds sym e }

/-- for s in 0..256: CODE[s] <- {valid: 0, len: 0, bits: 0} (43_code_table.md R180). -/
def State.clearCodes (s : State) : State := { s with code := Vector.replicate 257 CodeEntry.absent }

/-- How deep a walk of the tree may go: a path has at most CODE_MAX bits (43_code_table.md R180, R182). -/
def walkDepth : Nat := Config.CODE_MAX + 1

/-- Walk(i, p) (43_code_table.md R180). The first argument bounds the depth; none where the store holds no well-formed
tree under i (log 14). -/
def walk : Nat → BitVec 10 → List Bool → State → Option State
  | 0, _, _, _ => none
  | depth + 1, i, p, s =>
    match s.nodeAt i with
    | none => none
    | some n =>
      if n.leaf then
        if symInAlphabet n.sym.toNat then some (s.setCode n.sym.toNat (codeOfPath p)) else none
      else
        match walk depth n.left (p ++ [false]) s with
        | none => none
        | some s1 => walk depth n.right (p ++ [true]) s1

/-- GENCODES (43_code_table.md R180). -/
def execGenCodes (s : State) : Res :=
  if !s.treeValid then raise .noTree 0 s
  else
    match walk walkDepth s.root [] s.clearCodes with
    | none => .fault .treeNotWellFormed
    | some s1 => finish { s1 with codesValid := true }

/-- CODE_RD (43_code_table.md R183). -/
def execCodeRd (sym wsel : Nat) (s : State) : Res :=
  if !symInAlphabet sym then raise .badOperand (fieldDetail sym) s
  else if !s.codesValid then raise .noCodes 0 s
  else finish (s.setResults (codeHead (s.codeAt sym)) (codeWord (s.codeAt sym) wsel) 0)

end Sys2Proof.Machine
end

