-- ==== Sys2Proof/Machine/Control.lean ====
section
/-! DEFINITION. The control commands NOP, CLRF and SRESET, and what the engine does with an illegal word
(40_control.md R123, R126 to R128). -/

namespace Sys2Proof.Machine

/-- NOP (40_control.md R126). -/
def execNop (s : State) : Res := finish s

/-- CLRF: the return from a fault (40_control.md R127; 60_exceptions.md R287). -/
def execClrf (s : State) : Res := finish s.clearFault

/-- SRESET (40_control.md R128). -/
def execSreset (s : State) : Res := finish s.resetEngine

/-- A word no row matches: ILLEGAL_CMD with the word as detail (40_control.md R123; 30_encoding.md R97). -/
def execIllegal (s : State) : Res := raise .illegalCmd s.cur s

end Sys2Proof.Machine
end

