-- ==== Sys2Proof/Machine/Framing.lean ====
section
/-! DEFINITION. The tag and port commands WRTAG, CHKTAG, SRC_REWIND and SNK_CLOSE (47_framing_ports.md R260 to
R263). -/

namespace Sys2Proof.Machine

/-- WRTAG (47_framing_ports.md R260). -/
def execWrTag (s : State) : Res :=
  if s.outClosed then raise .sinkClosed 0 s else finish (s.snkWrite 32 Config.MAGIC.toNat)

/-- CHKTAG (47_framing_ports.md R261). -/
def execChkTag (s : State) : Res :=
  match s.srcRead 32 with
  | none => raise .shortTag (BitVec.ofNat 32 s.bitsLeft) s
  | some (t, s1) => if t = Config.MAGIC.toNat then finish s1 else raise .badMagic (BitVec.ofNat 32 t) s1

/-- SRC_REWIND (47_framing_ports.md R262). -/
def execSrcRewind (s : State) : Res := finish s.srcRewind

/-- SNK_CLOSE (47_framing_ports.md R263). -/
def execSnkClose (s : State) : Res := finish s.snkClose

end Sys2Proof.Machine
end

