-- ==== Sys2Proof/Machine/Frequency.lean ====
section
/-! DEFINITION. The frequency table commands FREQ_CLR, FREQ_COUNT, FREQ_WR and FREQ_RD (41_frequency.md R140 to R145). -/

namespace Sys2Proof.Machine

/-- FREQ_CLR (41_frequency.md R140). -/
def execFreqClr (s : State) : Res := finish (s.clearCounts.setFreq Config.PSEUDO_EOF 1)

/-- The end of FREQ_COUNT's loop: FREQ[256] <- 1, done (41_frequency.md R141). -/
def countEnd (s : State) : Res := finish (s.setFreq Config.PSEUDO_EOF 1)

/-- FREQ_COUNT's loop (41_frequency.md R141). The first argument is how many whole bytes remain; at 0 SrcRead(8) would
answer EOD. -/
def countLoop : Nat → State → Res
  | 0, s => countEnd s
  | bytes + 1, s =>
    match s.srcRead 8 with
    | none => countEnd s
    | some (v, s1) =>
      if s1.freqAt v = 0xFFFFFFFF#32 then raise .countOverflow (fieldDetail v) s1
      else countLoop bytes (s1.setFreq v (s1.freqAt v + 1))

/-- FREQ_COUNT (41_frequency.md R141). -/
def execFreqCount (s : State) : Res := countLoop s.bytesLeft s.clearCounts

/-- FREQ_WR (41_frequency.md R144). -/
def execFreqWr (sym : Nat) (s : State) : Res :=
  if !symIsByte sym then raise .badOperand (fieldDetail sym) s
  else finish (s.setFreq sym s.curArg)

/-- FREQ_RD (41_frequency.md R145). -/
def execFreqRd (sym : Nat) (s : State) : Res :=
  if !symInAlphabet sym then raise .badOperand (fieldDetail sym) s
  else finish (s.setResults (s.freqAt sym) 0 0)

end Sys2Proof.Machine
end

