-- ==== Sys2Proof/Machine/StreamDecode.lean ====
section
/-! DEFINITION. The decoder commands DECODE and DEC_SYM (46_stream_decode.md R240 to R243). -/

namespace Sys2Proof.Machine

/-- DECODE's loop at the node `cur` (46_stream_decode.md R240). The first argument is how many bits remain; at 0
SrcRead(1) would answer EOD. -/
def decodeLoop : Nat → Node → State → Res
  | 0, _, s => raise .truncPayload s.posDetail s
  | bits + 1, cur, s =>
    match s.srcRead 1 with
    | none => raise .truncPayload s.posDetail s
    | some (b, s1) =>
      match s1.nodeAt (cur.child (b != 0)), s1.nodeAt s1.root with
      | some n, some top =>
        if !n.leaf then decodeLoop bits n s1
        else if n.sym.toNat = Config.PSEUDO_EOF then finish s1
        else if symIsByte n.sym.toNat then decodeLoop bits top (s1.snkWrite 8 n.sym.toNat)
        else .fault .treeNotWellFormed
      | _, _ => .fault .treeNotWellFormed

/-- DECODE (46_stream_decode.md R240). -/
def execDecode (s : State) : Res :=
  if !s.treeValid then raise .noTree 0 s
  else if s.outClosed then raise .sinkClosed 0 s
  else
    match s.nodeAt s.root with
    | none => .fault .treeNotWellFormed
    | some top =>
      if top.leaf then
        if top.sym.toNat = Config.PSEUDO_EOF then finish s
        else raise .degenerateTree (top.sym.setWidth 32) s
      else decodeLoop s.bitsLeft top s

/-- DEC_SYM's loop at the node `cur`, with k bits read so far (46_stream_decode.md R241). The first argument is how many
bits remain; at 0 SrcRead(1) would answer EOD. -/
def decSymLoop : Nat → Node → Nat → State → Res
  | bits, cur, k, s =>
    if cur.leaf then finish (s.setResults (cur.sym.setWidth 32) (BitVec.ofNat 32 k) 0)
    else
      match bits, s.srcRead 1 with
      | bits' + 1, some (b, s1) =>
        match s1.nodeAt (cur.child (b != 0)) with
        | none => .fault .treeNotWellFormed
        | some n => decSymLoop bits' n (k + 1) s1
      | _, _ => raise .truncPayload s.posDetail s

/-- DEC_SYM (46_stream_decode.md R241). -/
def execDecSym (s : State) : Res :=
  if !s.treeValid then raise .noTree 0 s
  else
    match s.nodeAt s.root with
    | none => .fault .treeNotWellFormed
    | some top => decSymLoop s.bitsLeft top 0 s

end Sys2Proof.Machine
end

