-- ==== Sys2Proof/Machine/StreamEncode.lean ====
section
/-! DEFINITION. The encoder commands ENCODE and ENC_SYM (45_stream_encode.md R220 to R222). -/

namespace Sys2Proof.Machine

/-- Write the code of a symbol: SnkWrite(CODE[v].len, CODE[v].bits[len-1:0]) (45_stream_encode.md R220, R221). -/
def State.writeCode (s : State) (v : Nat) : State :=
  s.snkWrite (s.codeAt v).len.toNat (s.codeAt v).bits.toNat

/-- The end of ENCODE's loop: the code of PSEUDO_EOF, looked up only now (45_stream_encode.md R220;
92_eei_decisions.md D39). -/
def encodeEnd (s : State) : Res :=
  if !(s.codeAt Config.PSEUDO_EOF).valid then raise .missingCode (fieldDetail Config.PSEUDO_EOF) s
  else finish (s.writeCode Config.PSEUDO_EOF)

/-- ENCODE's loop (45_stream_encode.md R220). The first argument is how many whole bytes remain; at 0 SrcRead(8) would
answer EOD. -/
def encodeLoop : Nat → State → Res
  | 0, s => encodeEnd s
  | bytes + 1, s =>
    match s.srcRead 8 with
    | none => encodeEnd s
    | some (v, s1) =>
      if !(s1.codeAt v).valid then raise .missingCode (fieldDetail v) s1
      else encodeLoop bytes (s1.writeCode v)

/-- ENCODE (45_stream_encode.md R220). -/
def execEncode (s : State) : Res :=
  if !s.codesValid then raise .noCodes 0 s
  else if s.outClosed then raise .sinkClosed 0 s
  else encodeLoop s.bytesLeft s

/-- ENC_SYM (45_stream_encode.md R221). -/
def execEncSym (sym : Nat) (s : State) : Res :=
  if !symInAlphabet sym then raise .badOperand (fieldDetail sym) s
  else if !s.codesValid then raise .noCodes 0 s
  else if s.outClosed then raise .sinkClosed 0 s
  else if !(s.codeAt sym).valid then raise .missingCode (fieldDetail sym) s
  else finish (s.writeCode sym)

end Sys2Proof.Machine
end

