-- ==== Sys2Proof/Machine/TreeBuilder.lean ====
section
/-! DEFINITION. The tree builder commands BUILD and NODE_RD (42_tree_builder.md R160 to R165). -/

namespace Sys2Proof.Machine

/-- The tree store while BUILD fills it: the entries, how many are in use, and the queue Q of node indices
(42_tree_builder.md R160; 10_state.md R40). -/
structure Forest where
  node : Vector Node 513
  count : Nat
  queue : List Nat
  deriving DecidableEq, Repr

/-- The weight of entry i. -/
def weightOf (node : Vector Node 513) (i : Nat) : BitVec 41 := (node[i]?.getD Node.zero).wgt

/-- key(i) is less than key(j): by weight, then by index (42_tree_builder.md R160, R161). -/
def keyLess (node : Vector Node 513) (i j : Nat) : Bool :=
  weightOf node i < weightOf node j || (weightOf node i == weightOf node j && i < j)

/-- The index of least key among i and the list. -/
def leastKey (node : Vector Node 513) (i : Nat) (rest : List Nat) : Nat :=
  rest.foldl (fun best j => if keyLess node j best then j else best) i

/-- RemoveMin(Q): the index of least key, and Q without it (42_tree_builder.md R160, R161). -/
def removeMin (node : Vector Node 513) : List Nat → Option (Nat × List Nat)
  | [] => none
  | i :: rest => some (leastKey node i rest, (i :: rest).erase (leastKey node i rest))

/-- Write the next entry of the store and put its index in the queue. -/
def Forest.add (f : Forest) (n : Node) : Forest :=
  ⟨f.node.setIfInBounds f.count n, f.count + 1, f.queue ++ [f.count]⟩

/-- The leaf of a symbol (42_tree_builder.md R160). -/
def leafNode (sym : Nat) (count : Word) : Node := ⟨true, BitVec.ofNat 9 sym, count.setWidth 41, 0, 0⟩

/-- The merge of L and R; the 41-bit sum never wraps (42_tree_builder.md R160, R164). -/
def mergeNode (node : Vector Node 513) (l r : Nat) : Node :=
  ⟨false, 0, weightOf node l + weightOf node r, BitVec.ofNat 10 l, BitVec.ofNat 10 r⟩

/-- A leaf for every symbol of the list that has non-zero frequency, in the order of the list
(42_tree_builder.md R160). -/
def addLeaves (s : State) : List Nat → Forest → Forest
  | [], f => f
  | sym :: rest, f =>
    if s.freqAt sym = 0 then addLeaves s rest f
    else addLeaves s rest (f.add (leafNode sym (s.freqAt sym)))

/-- The leaves of BUILD, symbols 0, 1, ..., 256 in turn (42_tree_builder.md R160). -/
def buildLeaves (s : State) : Forest := addLeaves s (List.range 257) ⟨s.node, 0, []⟩

/-- The merge loop; the first argument bounds the merges, of which there are |Q| - 1 (42_tree_builder.md R160). The
answer is the finished forest and the root; none if the queue was empty. -/
def mergeLoop : Nat → Forest → Option (Forest × Nat)
  | 0, _ => none
  | merges + 1, f =>
    match removeMin f.node f.queue with
    | none => none
    | some (l, q1) =>
      match removeMin f.node q1 with
      | none => some (f, l)
      | some (r, q2) => mergeLoop merges (Forest.add { f with queue := q2 } (mergeNode f.node l r))

/-- BUILD (42_tree_builder.md R160). Entries past the last node hold no defined value afterwards (10_state.md R32). -/
def execBuild (s : State) : Res :=
  match mergeLoop (buildLeaves s).queue.length (buildLeaves s) with
  | none => .fault .emptyQueue
  | some (f, r) =>
    finish (State.undefineNodes
      { s with
        codesValid := false
        node := f.node
        root := BitVec.ofNat 10 r
        ncount := BitVec.ofNat 10 f.count
        treeValid := true })

/-- NODE_RD (42_tree_builder.md R165). -/
def execNodeRd (idx : Nat) (s : State) : Res :=
  if !s.treeValid then raise .noTree 0 s
  else if s.ncount.toNat ≤ idx then raise .badOperand (fieldDetail idx) s
  else
    match s.nodeAt (BitVec.ofNat 10 idx) with
    | none => .fault .treeNotWellFormed
    | some n => finish (s.setResults (nodeWeightLow n) (nodeWeightHigh n) (nodeLinks n))

end Sys2Proof.Machine
end

