-- ==== Sys2Proof/Machine/TreeCodec.lean ====
section
/-! DEFINITION. The tree header commands WRHDR and RDHDR (44_tree_codec.md R200 to R203). -/

namespace Sys2Proof.Machine

/-- Put(i) (44_tree_codec.md R200). The first argument bounds the depth; none where the store holds no well-formed tree
under i (log 14). -/
def put : Nat → BitVec 10 → State → Option State
  | 0, _, _ => none
  | depth + 1, i, s =>
    match s.nodeAt i with
    | none => none
    | some n =>
      if n.leaf then some ((s.snkWrite 1 1).snkWrite 9 n.sym.toNat)
      else
        match put depth n.left (s.snkWrite 1 0) with
        | none => none
        | some s1 => put depth n.right s1

/-- WRHDR (44_tree_codec.md R200). -/
def execWrHdr (s : State) : Res :=
  if !s.treeValid then raise .noTree 0 s
  else if s.outClosed then raise .sinkClosed 0 s
  else
    match put walkDepth s.root s with
    | none => .fault .treeNotWellFormed
    | some s1 => finish s1

/-- What Get() ends with: a node index and the number of nodes made so far, or a fault (44_tree_codec.md R203). -/
inductive HeaderRead where
  | got (i n : Nat) (s : State)
  | bad (code : FaultCode) (detail : Word) (s : State)
  deriving DecidableEq, Repr

/-- NODE[i] <- n (10_state.md R31). -/
def State.setNode (s : State) (i : Nat) (n : Node) : State := { s with node := s.node.setIfInBounds i n }

/-- The node of a leaf read from a header: weight 0 (44_tree_codec.md R203; 92_eei_decisions.md D8). -/
def readLeaf (sym : Nat) : Node := ⟨true, BitVec.ofNat 9 sym, 0, 0, 0⟩

/-- The internal node read from a header (44_tree_codec.md R203; 92_eei_decisions.md D8). -/
def readInternal (l r : Nat) : Node := ⟨false, 0, 0, BitVec.ofNat 10 l, BitVec.ofNat 10 r⟩

/-- Get() with n nodes made so far (44_tree_codec.md R203). The first argument bounds the depth: started above NODE_CAP
it is never used up, since a node is made at each level before the next (log 20). -/
def getHeader : Nat → Nat → State → HeaderRead
  | 0, _, s => .bad .hdrOverflow (fieldDetail Config.NODE_CAP) s
  | depth + 1, n, s =>
    match s.srcRead 1 with
    | none => .bad .truncHdr s.posDetail s
    | some (b, s1) =>
      if n = Config.NODE_CAP then .bad .hdrOverflow (fieldDetail Config.NODE_CAP) s1
      else if b = 0 then
        match getHeader depth (n + 1) s1 with
        | .bad c d s2 => .bad c d s2
        | .got l n2 s2 =>
          match getHeader depth n2 s2 with
          | .bad c d s3 => .bad c d s3
          | .got r n3 s3 => .got n n3 (s3.setNode n (readInternal l r))
      else
        match s1.srcRead 9 with
        | none => .bad .truncHdr s1.posDetail s1
        | some (v, s2) =>
          if !symInAlphabet v then .bad .badSymbol (fieldDetail v) s2
          else .got n (n + 1) (s2.setNode n (readLeaf v))

/-- What RDHDR does first: no tree, no codes, NCOUNT and ROOT 0 (44_tree_codec.md R203). -/
def State.dropTree (s : State) : State := { s with treeValid := false, codesValid := false, ncount := 0, root := 0 }

/-- RDHDR (44_tree_codec.md R203). After a fault NODE holds no defined value (R203; I15; log 9). -/
def execRdHdr (s : State) : Res :=
  match getHeader (Config.NODE_CAP + 1) 0 s.dropTree with
  | .bad code detail s1 => raise code detail s1.undefineNodes
  | .got r n s1 =>
    finish (State.undefineNodes
      { s1 with ncount := BitVec.ofNat 10 n, root := BitVec.ofNat 10 r, treeValid := true })

end Sys2Proof.Machine
end

