-- ==== Sys2Proof/Machine/Dispatch.lean ====
section
/-! DEFINITION. Execute: one arm per command (40_control.md R123). -/

namespace Sys2Proof.Machine

def exec (i : Instr) (s : State) : Host.Outcome State Fault Refusal :=
  match i with
  | .nop => Sys2Proof.Machine.execNop s
  | .clrf => Sys2Proof.Machine.execClrf s
  | .sreset => Sys2Proof.Machine.execSreset s
  | .freqClr => Sys2Proof.Machine.execFreqClr s
  | .freqCount => Sys2Proof.Machine.execFreqCount s
  | .freqWr sym => Sys2Proof.Machine.execFreqWr sym s
  | .freqRd sym => Sys2Proof.Machine.execFreqRd sym s
  | .build => Sys2Proof.Machine.execBuild s
  | .nodeRd idx => Sys2Proof.Machine.execNodeRd idx s
  | .genCodes => Sys2Proof.Machine.execGenCodes s
  | .codeRd sym wsel => Sys2Proof.Machine.execCodeRd sym wsel s
  | .wrHdr => Sys2Proof.Machine.execWrHdr s
  | .rdHdr => Sys2Proof.Machine.execRdHdr s
  | .encode => Sys2Proof.Machine.execEncode s
  | .encSym sym => Sys2Proof.Machine.execEncSym sym s
  | .decode => Sys2Proof.Machine.execDecode s
  | .decSym => Sys2Proof.Machine.execDecSym s
  | .wrTag => Sys2Proof.Machine.execWrTag s
  | .chkTag => Sys2Proof.Machine.execChkTag s
  | .srcRewind => Sys2Proof.Machine.execSrcRewind s
  | .snkClose => Sys2Proof.Machine.execSnkClose s

end Sys2Proof.Machine
end

