-- ==== Sys2Proof/WellFormed.lean ====
section
/-! DEFINITION. An instruction is well formed when every operand fits its field (30_encoding.md R92 to R94). A field
value outside a command's legal range is still well formed: the command itself answers BAD_OPERAND (R95). -/

namespace Sys2Proof

/-- SYM is 9 bits (30_encoding.md R92, R93). -/
abbrev symFits (sym : Nat) : Bool := sym < 2 ^ 9

/-- WSEL is 3 bits (30_encoding.md R93). -/
abbrev wselFits (wsel : Nat) : Bool := wsel < 2 ^ 3

/-- IDX is 10 bits (30_encoding.md R94). -/
abbrev idxFits (idx : Nat) : Bool := idx < 2 ^ 10

/-- Every operand fits the field its format gives it. -/
def Instr.wellFormed : Instr → Bool
  | .nop => true
  | .clrf => true
  | .sreset => true
  | .freqClr => true
  | .freqCount => true
  | .freqWr sym => symFits sym
  | .freqRd sym => symFits sym
  | .build => true
  | .nodeRd idx => idxFits idx
  | .genCodes => true
  | .codeRd sym wsel => symFits sym && wselFits wsel
  | .wrHdr => true
  | .rdHdr => true
  | .encode => true
  | .encSym sym => symFits sym
  | .decode => true
  | .decSym => true
  | .wrTag => true
  | .chkTag => true
  | .srcRewind => true
  | .snkClose => true

end Sys2Proof
end

