-- ==== Sys2Proof/Decode.lean ====
section
/-! DEFINITION. Command words: fields, decoder, encoder, the opcode map as mask and match rows, and the assembler
spelling (30_encoding.md R90 to R99). A command is one 32-bit word, so no byte order arises (20_memory.md R67). -/

namespace Sys2Proof

/-- Why a word is illegal (30_encoding.md R97). -/
inductive DecodeError where
  /-- The opcode byte is in no row of R96. -/
  | unassignedOpcode
  /-- The opcode is assigned and a reserved bit of its format is 1. -/
  | reservedBitSet
  deriving DecidableEq, Repr

/-- The opcode byte c[7:0] (30_encoding.md R90). -/
def opcodeOf (c : Word) : Nat := (c.extractLsb' 0 8).toNat

/-- SYM = c[16:8] (30_encoding.md R95). -/
def symOf (c : Word) : Nat := (c.extractLsb' 8 9).toNat

/-- WSEL = c[19:17] (30_encoding.md R95). -/
def wselOf (c : Word) : Nat := (c.extractLsb' 17 3).toNat

/-- IDX = c[17:8] (30_encoding.md R95). -/
def idxOf (c : Word) : Nat := (c.extractLsb' 8 10).toNat

/-- `i`, if every bit of c from bit `lo` up is 0, as its format reserves them (30_encoding.md R91 to R94). -/
def reservedFrom (lo : Nat) (c : Word) (i : Instr) : Except DecodeError Instr :=
  if c >>> lo = 0 then .ok i else .error .reservedBitSet

/-- The decoder: the one row of the opcode map that the word matches, or why there is none
(30_encoding.md R96, R97; 40_control.md R123). -/
def decode (c : Word) : Except DecodeError Instr :=
  match opcodeOf c with
  | 0x00 => reservedFrom 8 c .nop
  | 0x01 => reservedFrom 8 c .clrf
  | 0x02 => reservedFrom 8 c .sreset
  | 0x10 => reservedFrom 8 c .freqClr
  | 0x11 => reservedFrom 8 c .freqCount
  | 0x12 => reservedFrom 17 c (.freqWr (symOf c))
  | 0x13 => reservedFrom 17 c (.freqRd (symOf c))
  | 0x20 => reservedFrom 8 c .build
  | 0x21 => reservedFrom 18 c (.nodeRd (idxOf c))
  | 0x30 => reservedFrom 8 c .genCodes
  | 0x31 => reservedFrom 20 c (.codeRd (symOf c) (wselOf c))
  | 0x40 => reservedFrom 8 c .wrHdr
  | 0x41 => reservedFrom 8 c .rdHdr
  | 0x50 => reservedFrom 8 c .encode
  | 0x51 => reservedFrom 17 c (.encSym (symOf c))
  | 0x60 => reservedFrom 8 c .decode
  | 0x61 => reservedFrom 8 c .decSym
  | 0x70 => reservedFrom 8 c .wrTag
  | 0x71 => reservedFrom 8 c .chkTag
  | 0x72 => reservedFrom 8 c .srcRewind
  | 0x73 => reservedFrom 8 c .snkClose
  | _ => .error .unassignedOpcode

/-- The word of a format S command: zext_32(SYM) << 8 | OP (30_encoding.md R96). -/
def wordS (op : Word) (sym : Nat) : Word := BitVec.ofNat 32 sym <<< 8 ||| op

/-- The word of a format SW command: zext_32(WSEL) << 17 | zext_32(SYM) << 8 | OP (30_encoding.md R96). -/
def wordSW (op : Word) (sym wsel : Nat) : Word :=
  BitVec.ofNat 32 wsel <<< 17 ||| BitVec.ofNat 32 sym <<< 8 ||| op

/-- The word of a format I command: zext_32(IDX) << 8 | OP (30_encoding.md R96). -/
def wordI (op : Word) (idx : Nat) : Word := BitVec.ofNat 32 idx <<< 8 ||| op

/-- The encoder: the word of an instruction (30_encoding.md R96). -/
def encode : Instr → Word
  | .nop => 0x00#32
  | .clrf => 0x01#32
  | .sreset => 0x02#32
  | .freqClr => 0x10#32
  | .freqCount => 0x11#32
  | .freqWr sym => wordS 0x12#32 sym
  | .freqRd sym => wordS 0x13#32 sym
  | .build => 0x20#32
  | .nodeRd idx => wordI 0x21#32 idx
  | .genCodes => 0x30#32
  | .codeRd sym wsel => wordSW 0x31#32 sym wsel
  | .wrHdr => 0x40#32
  | .rdHdr => 0x41#32
  | .encode => 0x50#32
  | .encSym sym => wordS 0x51#32 sym
  | .decode => 0x60#32
  | .decSym => 0x61#32
  | .wrTag => 0x70#32
  | .chkTag => 0x71#32
  | .srcRewind => 0x72#32
  | .snkClose => 0x73#32

/-- What the host asks of the decoder: the low `nbits` bits of w, as one command word. -/
def decodeTableWord (nbits w : Nat) : Option Instr :=
  (decode (BitVec.ofNat 32 (w % 2 ^ nbits))).toOption

/-- A row of the opcode map: a word belongs to it when its bits under `mask` are `pattern`. -/
structure OpcodeRow where
  mask : Word
  pattern : Word
  deriving DecidableEq, Repr

/-- The word belongs to the row. -/
def OpcodeRow.matchesWord (r : OpcodeRow) (c : Word) : Bool := c &&& r.mask == r.pattern

/-- The masks of formats N, S, SW and I (30_encoding.md R91 to R94). -/
def maskN : Word := 0xFFFFFFFF#32
def maskS : Word := 0xFFFE00FF#32
def maskSW : Word := 0xFFF000FF#32
def maskI : Word := 0xFFFC00FF#32

/-- The opcode map as mask and match rows, in the order of 30_encoding.md R96. -/
def opcodeMap : List OpcodeRow :=
  [⟨maskN, 0x00#32⟩, ⟨maskN, 0x01#32⟩, ⟨maskN, 0x02#32⟩, ⟨maskN, 0x10#32⟩, ⟨maskN, 0x11#32⟩, ⟨maskS, 0x12#32⟩,
    ⟨maskS, 0x13#32⟩, ⟨maskN, 0x20#32⟩, ⟨maskI, 0x21#32⟩, ⟨maskN, 0x30#32⟩, ⟨maskSW, 0x31#32⟩, ⟨maskN, 0x40#32⟩,
    ⟨maskN, 0x41#32⟩, ⟨maskN, 0x50#32⟩, ⟨maskS, 0x51#32⟩, ⟨maskN, 0x60#32⟩, ⟨maskN, 0x61#32⟩, ⟨maskN, 0x70#32⟩,
    ⟨maskN, 0x71#32⟩, ⟨maskN, 0x72#32⟩, ⟨maskN, 0x73#32⟩]

/-- The assembler spelling of a command (30_encoding.md R99): the mnemonic, then its operands in decimal. -/
def Instr.asm : Instr → String
  | .nop => "NOP"
  | .clrf => "CLRF"
  | .sreset => "SRESET"
  | .freqClr => "FREQ_CLR"
  | .freqCount => "FREQ_COUNT"
  | .freqWr sym => "FREQ_WR " ++ toString sym
  | .freqRd sym => "FREQ_RD " ++ toString sym
  | .build => "BUILD"
  | .nodeRd idx => "NODE_RD " ++ toString idx
  | .genCodes => "GENCODES"
  | .codeRd sym wsel => "CODE_RD " ++ toString sym ++ ", " ++ toString wsel
  | .wrHdr => "WRHDR"
  | .rdHdr => "RDHDR"
  | .encode => "ENCODE"
  | .encSym sym => "ENC_SYM " ++ toString sym
  | .decode => "DECODE"
  | .decSym => "DEC_SYM"
  | .wrTag => "WRTAG"
  | .chkTag => "CHKTAG"
  | .srcRewind => "SRC_REWIND"
  | .snkClose => "SNK_CLOSE"

end Sys2Proof
end

