-- ==== Sys2Proof/Machine/HostAccess.lean ====
section
/-! DEFINITION. What the host does: register reads and writes, port attachment, the reset input, WAIT; whose turn it
is; and the word the engine runs (20_memory.md R70 to R75; 30_encoding.md R99; 40_control.md R120 to R124). -/

namespace Sys2Proof.Machine

/-- Why a register access is refused, if it is: only a 32-bit access at a multiple of 4 inside the 256-byte window has
a meaning (20_memory.md R70). -/
def accessRefusal (width off : Nat) : Option Refusal :=
  if width ≠ 32 then some .accessWidth
  else if 256 ≤ off then some .accessOutsideWindow
  else if off % 4 ≠ 0 then some .accessMisaligned
  else none

/-- The value of the register at an offset while BUSY = 0 (10_state.md R21; 20_memory.md R71): CMD and the reserved
offsets read 0. -/
def State.readIdle (s : State) (off : Nat) : Word :=
  match off with
  | 0x04 => s.statusWord
  | 0x08 => s.arg
  | 0x0C => s.res0
  | 0x10 => s.res1
  | 0x14 => s.res2
  | 0x18 => s.fcmd
  | 0x1C => s.fdetail
  | 0x20 => s.treeInfo
  | _ => 0

/-- The value of the register at an offset while BUSY = 1, with `w` the free word: STATUS shows BUSY = 1 and DONE = 0
and is free elsewhere, ARG reads as written, the results, the fault record and TREEINFO are free, CMD and the reserved
offsets read 0 (70_reset_and_hazards.md R315). -/
def State.readBusy (s : State) (w : Word) (off : Nat) : Word :=
  match off with
  | 0x04 => busyStatus w
  | 0x08 => s.arg
  | 0x0C => w
  | 0x10 => w
  | 0x14 => w
  | 0x18 => w
  | 0x1C => w
  | 0x20 => w
  | _ => 0

/-- A host read of the register at an offset; each read while BUSY draws its own free word (20_memory.md R72;
70_reset_and_hazards.md R315; log 10). -/
def State.hostRead (s : State) (off : Nat) : State :=
  if s.busy then { s with rdata := s.readBusy (Config.freeWord s.draws) off, draws := s.draws + 1 }
  else { s with rdata := s.readIdle off }

/-- A host write to the register at an offset: CMD offers a command, ARG stores, every other write is ignored
(20_memory.md R71, R72; 40_control.md R120). -/
def State.hostWrite (s : State) (off : Nat) (v : Word) : State :=
  match off with
  | 0x00 => s.offer v
  | 0x08 => { s with arg := v }
  | _ => s

/-- WAIT has found the command complete: STATUS has been read; with a fault recorded the sequence takes its fault exit,
which is SNK_CLOSE; WAIT and stop, or stop (30_encoding.md R99 to R101; 90_conflicts.md C12). -/
def State.waitDone (s : State) (closeSink : Bool) : State :=
  let s1 := { s with rdata := s.statusWord }
  if s.fault then
    { s1 with inputs := if closeSink then [.write 32 0x00 (encode .snkClose), .wait false] else [] }
  else s1

/-- One host step, the input already taken from the list. `engine` and `wait` are not host steps here: nextTurn deals
with them. -/
def hostTurn (a : Input) (s : State) : Res :=
  match a with
  | .write width off v =>
    match accessRefusal width off with
    | some r => .refused r
    | none => .next (s.hostWrite off v)
  | .read width off =>
    match accessRefusal width off with
    | some r => .refused r
    | none => .next (s.hostRead off)
  | .attachSource bits => if s.busy then .refused .portChangeWhileBusy else .next (s.withSource bits)
  | .attachSink => if s.busy then .refused .portChangeWhileBusy else .next s.withSink
  | .reset => .next s.resetInput
  | .engine => .next s
  | .wait closeSink => .next (s.waitDone closeSink)

/-- Who moves next, and the state with that turn taken. -/
inductive Turn where
  | engine (s : State)
  | host (a : Input) (s : State)
  deriving DecidableEq, Repr

/-- Whose turn it is (40_control.md R121, R124; log 5, log 18). With nothing left for the host to do the engine moves. A
WAIT stays at the head of the list, and the engine moves, until STATUS reads BUSY = 0 and DONE = 1. -/
def nextTurn (s : State) : Turn :=
  match s.inputs with
  | [] => .engine s
  | .engine :: rest => .engine { s with inputs := rest }
  | .wait closeSink :: rest =>
    if !s.busy && s.done then .host (.wait closeSink) { s with inputs := rest } else .engine s
  | a :: rest => .host a { s with inputs := rest }

/-- The instruction the engine runs: the one its accepted word CUR decodes to (40_control.md R123; 20_memory.md
R77). -/
def fetch (s : State) : Except DecodeError Instr := decode s.cur

end Sys2Proof.Machine
end

