-- ==== Sys2Proof/Machine/PseudoCommands.lean ====
section
/-! DEFINITION. The pseudo-commands COMPRESS and DECOMPRESS as the host steps they expand to (30_encoding.md R99 to
R101). -/

namespace Sys2Proof.Machine

/-- `WR CMD` of a command's word (30_encoding.md R99). -/
def writeCmd (i : Instr) : Input := .write 32 0x00 (encode i)

/-- Each command, then a WAIT whose fault exit closes the sink (30_encoding.md R100). -/
def issueAll (is : List Instr) : List Input := is.flatMap fun i => [writeCmd i, .wait true]

/-- COMPRESS (30_encoding.md R100). -/
def compressInputs : List Input :=
  issueAll [.freqCount, .build, .genCodes, .wrTag, .wrHdr, .srcRewind, .encode, .snkClose]

/-- DECOMPRESS (30_encoding.md R101). -/
def decompressInputs : List Input := issueAll [.chkTag, .rdHdr, .decode, .snkClose]

end Sys2Proof.Machine
end

