-- ==== Sys2Proof/Machine/Step.lean ====
section
/-! DEFINITION. One step of the machine: the turn of the engine or of the host (10_state.md R20; 40_control.md R121,
R124). -/

namespace Sys2Proof.Machine

/-- The engine's turn: while BUSY = 1 it runs Execute(CUR) to completion; while BUSY = 0 it has no step
(40_control.md R121, R123). -/
def engineTurn (s : State) : Res :=
  if s.busy then
    match fetch s with
    | .ok i => exec i s
    | .error _ => execIllegal s
  else .next s

/-- One step: whoever's turn it is moves. -/
def step (s : State) : Host.Outcome State Fault Refusal :=
  match nextTurn s with
  | .engine t => engineTurn t
  | .host a t => hostTurn a t

/-- The state in which the very next step runs the command word w: the word is in CUR as if the host had written it to
CMD and the engine had accepted it (40_control.md R120), and the engine moves next (log 6). -/
def State.withFetchWord (s : State) (nbits w : Nat) : State :=
  { s.accept (BitVec.ofNat 32 (w % 2 ^ nbits)) with inputs := .engine :: s.inputs }

end Sys2Proof.Machine
end

