-- ==== Sys2Proof/Safety.lean ====
section
/-! DEFINITION. The words the claims are stated in: what the spec defines of a state, how a command ends, the trees the
store can hold, and the invariants of the state (10_state.md R30 to R38). -/

namespace Sys2Proof.Machine

/-! ### What the spec defines of a state -/

/-- The state with everything the spec leaves without a defined value blanked: CUR and CUR_ARG while BUSY = 0
(10_state.md R37), the entries of NODE at NCOUNT and above (R32), and the model's draw counter. Two states with the
same `known` agree on every other field. -/
def State.known (s : State) : State :=
  { s with
    cur := if s.busy then s.cur else 0
    curArg := if s.busy then s.curArg else 0
    node := tabulate 513 fun i => if i < s.ncount.toNat then s.node[i]?.getD Node.zero else Node.zero
    draws := 0 }

/-- Instruction i, run in s, completes with a next state that agrees with u in all the spec defines, BUSY = 0 and
DONE = 1 apart (40_control.md R121). -/
def Completes (i : Instr) (s u : State) : Prop :=
  ∃ t, exec i s = .next t ∧ t.known = State.known { u with busy := false, done := true }

/-- Instruction i, run in s, ends by taking the fault `code` with `detail`: the next state agrees with u in all the spec
defines, the fault record (60_exceptions.md R284), BUSY = 0 and DONE = 1 apart. -/
def TakesFault (i : Instr) (s u : State) (code : BitVec 8) (detail : Word) : Prop :=
  Completes i s { u with fault := true, fcode := code, fcmd := s.cur, fdetail := detail }

/-- The state after every piece of engine state has taken its reset value (10_state.md R44): State.reset with the ports
and the model's own fields of s. -/
def State.engineReset (s : State) : State :=
  { State.reset with
    inBits := s.inBits
    inPos := s.inPos
    outBits := s.outBits
    outClosed := s.outClosed
    inputs := s.inputs
    rdata := s.rdata
    draws := s.draws }

/-- Byte k of what is left in the source (41_frequency.md R142; 45_stream_encode.md R222). -/
def State.byteAt (s : State) (k : Nat) : Nat := numeral ((s.inBits.drop (s.inPos + 8 * k)).take 8)

/-- The first n whole bytes left in the source, in order. -/
def State.bytesAhead (s : State) (n : Nat) : List Nat := (List.range n).map s.byteAt

/-- The bits left in the source. -/
def State.bitsAhead (s : State) : List Bool := s.inBits.drop s.inPos

/-! ### Trees (10_state.md R33; 30_encoding.md R103) -/

/-- A tree as the header grammar has it: T ::= 0 T T | 1 SYM (30_encoding.md R103). -/
inductive Shape where
  | leaf (sym : Nat)
  | node (l r : Shape)
  deriving DecidableEq, Repr

/-- How many nodes the tree has. -/
def Shape.size : Shape → Nat
  | .leaf _ => 1
  | .node l r => 1 + l.size + r.size

/-- The depth of the deepest leaf. -/
def Shape.depth : Shape → Nat
  | .leaf _ => 0
  | .node l r => 1 + max l.depth r.depth

/-- The preorder header of the tree (30_encoding.md R103). -/
def Shape.header : Shape → List Bool
  | .leaf sym => true :: bitsOf 9 sym
  | .node l r => false :: (l.header ++ r.header)

/-- The fields of the preorder header in the order a reader reads them: one structural bit for each node, and after a
leaf's the nine bits of its symbol (30_encoding.md R103; 44_tree_codec.md R203). -/
def Shape.fields : Shape → List (List Bool)
  | .leaf sym => [[true], bitsOf 9 sym]
  | .node l r => [false] :: (l.fields ++ r.fields)

/-- How many nodes a list of header fields begins: its structural bits. -/
def nodesBegun (fields : List (List Bool)) : Nat := (fields.filter fun f => f.length == 1).length

/-- Every leaf symbol among the header fields is in the alphabet 0..256. -/
def symbolsLegal (fields : List (List Bool)) : Prop := ∀ f ∈ fields, f.length = 9 → numeral f ≤ 256

/-- The leaves in preorder, each with its symbol and its path of 0 (left) and 1 (right) links (43_code_table.md R181). -/
def Shape.leaves : Shape → List (Nat × List Bool)
  | .leaf sym => [(sym, [])]
  | .node l r =>
    (l.leaves.map fun e => (e.1, false :: e.2)) ++ (r.leaves.map fun e => (e.1, true :: e.2))

/-- Every leaf's symbol is in the alphabet 0..256 (10_state.md R33). -/
def Shape.inAlphabet (t : Shape) : Prop := ∀ e ∈ t.leaves, e.1 ≤ 256

/-- No two leaves have the same symbol (43_code_table.md R181). -/
def Shape.distinct (t : Shape) : Prop := (t.leaves.map Prod.fst).Nodup

/-- The store holds the tree t at entry i. -/
def Holds (node : Vector Node 513) : Shape → BitVec 10 → Prop
  | .leaf sym, i => ∃ n, node[i.toNat]? = some n ∧ n.leaf = true ∧ n.sym.toNat = sym
  | .node l r, i =>
    ∃ n, node[i.toNat]? = some n ∧ n.leaf = false ∧ Holds node l n.left ∧ Holds node r n.right

/-- The entries of the store that make up the tree t at entry i, in preorder. -/
def Shape.entries (node : Vector Node 513) : Shape → BitVec 10 → List Nat
  | .leaf _, i => [i.toNat]
  | .node l r, i =>
    match node[i.toNat]? with
    | none => [i.toNat]
    | some n => i.toNat :: (l.entries node n.left ++ r.entries node n.right)

/-- The store holds a well-formed tree (10_state.md R33): from ROOT it is a finite tree with symbols in the alphabet, and
the entries it is made of are exactly 0..NCOUNT-1, each once. -/
def TreeOk (s : State) : Prop :=
  ∃ t : Shape, Holds s.node t s.root ∧ t.inAlphabet ∧ (t.entries s.node s.root).Perm (List.range s.ncount.toNat)

/-- The entry that a path of child links leads to from entry i (10_state.md R33). -/
def follow (node : Vector Node 513) : BitVec 10 → List Bool → Option (BitVec 10)
  | i, [] => some i
  | i, b :: p =>
    match node[i.toNat]? with
    | none => none
    | some n => if n.leaf then none else follow node (n.child b) p

/-- The code entry of a symbol in the table GENCODES makes from a tree: the path of its last leaf in preorder, or none
(43_code_table.md R180). -/
def Shape.codeEntry (t : Shape) (sym : Nat) : CodeEntry :=
  match (t.leaves.filter fun e => e.1 == sym).getLast? with
  | none => CodeEntry.absent
  | some e => ⟨true, BitVec.ofNat 9 e.2.length, BitVec.ofNat 256 (numeral e.2)⟩

/-- The code table GENCODES makes from a tree (43_code_table.md R180). -/
def Shape.codeTable (t : Shape) : Vector CodeEntry 257 := tabulate 257 t.codeEntry

/-- The symbols of non-zero frequency, ascending: the leaves of the tree BUILD makes (42_tree_builder.md R160). -/
def State.countedSymbols (s : State) : List Nat := (List.range 257).filter fun v => s.freqAt v ≠ 0

/-- The sum of all frequencies (42_tree_builder.md R162, R164). -/
def State.totalCount (s : State) : Nat := ((List.range 257).map fun v => (s.freqAt v).toNat).sum

/-- The weight of entry i of a tree store. -/
def entryWeight (node : Vector Node 513) (i : Nat) : Nat :=
  match node[i]? with
  | none => 0
  | some n => n.wgt.toNat

/-- key(i) is less than key(j): by weight, then by index (42_tree_builder.md R160). -/
def entryBefore (node : Vector Node 513) (i j : Nat) : Prop :=
  entryWeight node i < entryWeight node j ∨ (entryWeight node i = entryWeight node j ∧ i < j)

/-- Entry j was in the queue when BUILD made entry i, the leaves being entries 0..k-1: it was made before, and no entry
made before i has it as a child (42_tree_builder.md R160). -/
def InQueueAt (node : Vector Node 513) (k i j : Nat) : Prop :=
  j < i ∧ ∀ m n, k ≤ m → m < i → node[m]? = some n → n.left.toNat ≠ j ∧ n.right.toNat ≠ j

/-- The commands of a list, each run on what the one before left. -/
def execAll : List Instr → State → Res
  | [], s => .next s
  | i :: is, s =>
    match exec i s with
    | .next t => execAll is t
    | r => r

/-! ### Invariants of the state -/

/-- A code-table entry has the form 10_state.md R34 gives it. -/
def CodeEntry.formed (e : CodeEntry) : Prop :=
  (e.valid = false → e.len = 0 ∧ e.bits = 0) ∧ e.len.toNat ≤ 256 ∧ e.bits.toNat < 2 ^ e.len.toNat

/-- What holds of the control state, the code table's form and the source position in every state of the engine. -/
structure StatusOk (s : State) : Prop where
  /-- With no fault recorded FCODE, FCMD and FDETAIL are 0 (10_state.md R23, R26, R27). -/
  noRecord : s.fault = false → s.fcode = 0 ∧ s.fcmd = 0 ∧ s.fdetail = 0
  /-- A recorded fault has one of the codes 0x01 to 0x0E (60_exceptions.md R280). -/
  record : s.fault = true → 1 ≤ s.fcode.toNat ∧ s.fcode.toNat ≤ 14
  /-- BUSY and DONE are never both 1 (10_state.md R23; 70_reset_and_hazards.md R315). -/
  busyNotDone : s.busy = true → s.done = false
  /-- A command running while a fault is recorded is one of the four gate words (60_exceptions.md R286). -/
  gate : s.busy = true → s.fault = true → passesFaultGate s.cur = true
  /-- CODES_VALID = 1 only with TREE_VALID = 1 (10_state.md R35). -/
  codesNeedTree : s.codesValid = true → s.treeValid = true
  /-- IN.pos <= |IN.bits| (10_state.md R38). -/
  posInside : s.inPos ≤ s.inBits.length
  /-- Every code-table entry has its form (10_state.md R34). -/
  codesFormed : ∀ v, (s.codeAt v).formed

/-- TREE_VALID = 1 only with a well-formed tree in the store (10_state.md R33). -/
def TreeValidOk (s : State) : Prop := s.treeValid = true → TreeOk s

/-- CODES_VALID = 1 only with the code table of the tree the store holds now (10_state.md R35). -/
def CodesValidOk (s : State) : Prop :=
  s.codesValid = true → ∃ t : Shape, Holds s.node t s.root ∧ s.code = t.codeTable

/-- It is the engine's turn, and it has a command to run: what `step` then runs is `t`'s command in `t`. -/
def EngineRuns (s t : State) : Prop := nextTurn s = .engine t ∧ t.busy = true

/-- The engine is idle and no fault is recorded. -/
def Idle (s : State) : Prop := s.busy = false ∧ s.fault = false

/-- A source holding `bits` at position 0 and an empty open sink are attached (95_test_vectors.md, start state). -/
def FreshPorts (s : State) (bits : List Bool) : Prop :=
  s.inBits = bits ∧ s.inPos = 0 ∧ s.outBits = [] ∧ s.outClosed = false

/-- Some number of steps from s ends in t. -/
def Reaches (s t : State) : Prop := ∃ n, Sys2Proof.core.run n s = .next t

end Sys2Proof.Machine
end

