-- ==== Sys2Proof/Certificates/Slice0/Obligations.lean ====
section
/-! DEFINITION. The statements for the provers. -/

open Sys2Proof Sys2Proof.Machine

/-! ### Encoding -/

/-- Decoding the encoding of a well-formed instruction gives it back, with every operand at every value its field
admits (30_encoding.md R91 to R96). -/
def Obligations.DecodeUndoesEncode : Prop :=
  ∀ i : Instr, i.wellFormed = true → decode (encode i) = .ok i

/-- A word that decodes is the encoding of the instruction it decodes to, and that instruction is well formed: no word
decodes to an instruction some other word stands for (30_encoding.md R96, R98). -/
def Obligations.EncodeUndoesDecode : Prop :=
  ∀ (c : Word) (i : Instr), decode c = .ok i → encode i = c ∧ i.wellFormed = true

/-- 30_encoding.md R98: every 32-bit word is either exactly one row of the opcode map or illegal. -/
def Obligations.EveryWordIsOneRowOrIllegal : Prop :=
  ∀ c : Word,
    ((∃ i, decode c = .ok i) ∧ (opcodeMap.filter (·.matchesWord c)).length = 1) ∨
      ((∃ e, decode c = .error e) ∧ (opcodeMap.filter (·.matchesWord c)).length = 0)

/-- 30_encoding.md R97: which words are illegal; offered with no fault recorded such a word raises ILLEGAL_CMD with the
word as detail and has no other effect; offered while a fault is recorded it is discarded. -/
def Obligations.IllegalWordIsRecordedOrDiscarded : Prop :=
  ∀ c : Word,
    ((∃ e, decode c = .error e) ↔
      ((0x03 ≤ opcodeOf c ∧ opcodeOf c ≤ 0x0F) ∨ (0x14 ≤ opcodeOf c ∧ opcodeOf c ≤ 0x1F) ∨
        (0x22 ≤ opcodeOf c ∧ opcodeOf c ≤ 0x2F) ∨ (0x32 ≤ opcodeOf c ∧ opcodeOf c ≤ 0x3F) ∨
        (0x42 ≤ opcodeOf c ∧ opcodeOf c ≤ 0x4F) ∨ (0x52 ≤ opcodeOf c ∧ opcodeOf c ≤ 0x5F) ∨
        (0x62 ≤ opcodeOf c ∧ opcodeOf c ≤ 0x6F) ∨ 0x74 ≤ opcodeOf c ∨
        ∃ r ∈ opcodeMap, r.pattern.toNat = opcodeOf c ∧ c &&& (r.mask ^^^ 0xFF#32) ≠ 0)) ∧
    ∀ (s : State) (rest : List Input), (∃ e, decode c = .error e) → s.busy = false →
      s.inputs = .write 32 0 c :: .engine :: rest →
      (s.fault = false →
        ∃ t u, step s = .next t ∧ step t = .next u ∧
          u.known = State.known { s with
            inputs := rest, fault := true, fcode := 0x01, fcmd := c, fdetail := c, done := true }) ∧
      (s.fault = true → step s = .next { s with inputs := .engine :: rest, lost := true, done := true })

/-- Words written out from 30_encoding.md R91 to R96, at least one a family, decode to the commands they stand for. -/
def Obligations.ExampleWordsDecode : Prop :=
  decode 0x00000002#32 = .ok .sreset ∧ decode 0x00000011#32 = .ok .freqCount ∧
    decode 0x00004112#32 = .ok (.freqWr 65) ∧ decode 0x00000421#32 = .ok (.nodeRd 4) ∧
    decode 0x00024131#32 = .ok (.codeRd 65 1) ∧ decode 0x00000041#32 = .ok .rdHdr ∧
    decode 0x00010051#32 = .ok (.encSym 256) ∧ decode 0x00000061#32 = .ok .decSym ∧
    decode 0x00000073#32 = .ok .snkClose

/-! ### The step, the host and reset -/

/-- A step runs the decoded instruction: with BUSY = 1 and CUR decoding to i, when the engine moves (the host has
nothing left to do, or lets it move, or waits) the step is exec of i (40_control.md R121, R123). -/
def Obligations.StepRunsTheDecodedCommand : Prop :=
  ∀ (s : State) (i : Instr), s.busy = true → decode s.cur = .ok i →
    (s.inputs = [] → step s = exec i s) ∧
    (∀ rest, s.inputs = .engine :: rest → step s = exec i { s with inputs := rest }) ∧
    (∀ b rest, s.inputs = .wait b :: rest → step s = exec i s)

/-- 40_control.md R120 and R122: what a CMD write does while BUSY, while a fault is recorded, and otherwise; and no
other host action starts a command. -/
def Obligations.CommandWriteIsAcceptedDroppedOrDiscarded : Prop :=
  ∀ (s : State) (rest : List Input),
    (∀ c : Word, s.inputs = .write 32 0 c :: rest →
      (s.busy = true → step s = .next { s with inputs := rest, lost := true }) ∧
      (s.busy = false → s.fault = true → c ∉ [0x00000000#32, 0x00000001#32, 0x00000002#32, 0x00000073#32] →
        step s = .next { s with inputs := rest, lost := true, done := true }) ∧
      (s.busy = false → (s.fault = true → c ∈ [0x00000000#32, 0x00000001#32, 0x00000002#32, 0x00000073#32]) →
        step s = .next { s with inputs := rest, done := false, cur := c, curArg := s.arg, busy := true })) ∧
    (∀ (a : Input) (t : State), s.inputs = a :: rest → s.busy = false → step s = .next t → t.busy = true →
      ∃ c : Word, a = .write 32 0 c)

/-- 20_memory.md R71: what each offset of the register window reads while BUSY = 0, what CMD and the reserved offsets read
at any time, and what a write to any offset but CMD does; nothing else changes (R72). -/
def Obligations.RegisterWindow : Prop :=
  ∀ (s : State) (off : Nat) (rest : List Input), off % 4 = 0 → off < 256 →
    (s.inputs = .read 32 off :: rest → s.busy = false →
      ∃ v, step s = .next { s with inputs := rest, rdata := v } ∧
        (off = 0x00 → v = 0) ∧ (off = 0x04 → v = s.statusWord) ∧ (off = 0x08 → v = s.arg) ∧ (off = 0x0C → v = s.res0) ∧
        (off = 0x10 → v = s.res1) ∧ (off = 0x14 → v = s.res2) ∧ (off = 0x18 → v = s.fcmd) ∧
        (off = 0x1C → v = s.fdetail) ∧ (off = 0x20 → v = s.treeInfo) ∧ (0x24 ≤ off → v = 0)) ∧
    (s.inputs = .read 32 off :: rest → off = 0x00 ∨ 0x24 ≤ off → ∃ t, step s = .next t ∧ t.rdata = 0) ∧
    (∀ v, s.inputs = .write 32 off v :: rest →
      (off = 0x08 → step s = .next { s with inputs := rest, arg := v }) ∧
      (off ≠ 0x00 → off ≠ 0x08 → step s = .next { s with inputs := rest }))

/-- 10_state.md R28: offset 0x20 reads TREEINFO, NCOUNT in bits [9:0] and ROOT in bits [25:16]; and beside it the layout of
STATUS (R23). -/
def Obligations.StatusAndTreeInfoLayout : Prop :=
  ∀ s : State,
    (∀ rest, s.inputs = .read 32 0x20 :: rest → s.busy = false →
      step s = .next { s with inputs := rest, rdata := s.treeInfo }) ∧
    (s.treeInfo.extractLsb' 0 10 = s.ncount ∧ s.treeInfo.extractLsb' 10 6 = 0 ∧ s.treeInfo.extractLsb' 16 10 = s.root ∧
      s.treeInfo.extractLsb' 26 6 = 0) ∧
    s.statusWord.getLsbD 0 = s.busy ∧ s.statusWord.getLsbD 1 = s.done ∧ s.statusWord.getLsbD 2 = s.fault ∧
    s.statusWord.getLsbD 3 = s.lost ∧ s.statusWord.getLsbD 4 = s.treeValid ∧ s.statusWord.getLsbD 5 = s.codesValid ∧
    s.statusWord.getLsbD 6 = s.outClosed ∧ s.statusWord.getLsbD 7 = false ∧ s.statusWord.extractLsb' 8 8 = s.fcode ∧
    s.statusWord.extractLsb' 16 16 = 0

/-- Reads while BUSY = 1 (70_reset_and_hazards.md R315). R315 says any value for every register but ARG and CMD and for every
STATUS bit but BUSY and DONE; that this value is one free word of Config, drawn at each read by the counter `draws`, is
the model's form of it and not R315's (log 10, DEDUCED; log 1, DESIGN CHOICE). Nothing is known of the free word. -/
def Obligations.ReadsWhileBusy : Prop :=
  ∀ (s : State) (off : Nat) (rest : List Input), off % 4 = 0 → off < 256 → s.busy = true →
    s.inputs = .read 32 off :: rest →
    ∃ v, step s = .next { s with inputs := rest, rdata := v, draws := s.draws + 1 } ∧
      (off = 0x04 → v.getLsbD 0 = true ∧ v.getLsbD 1 = false ∧
        v.extractLsb' 2 30 = (Config.freeWord s.draws).extractLsb' 2 30) ∧
      (off = 0x08 → v = s.arg) ∧
      (0x0C ≤ off → off ≤ 0x20 → v = Config.freeWord s.draws) ∧
      (off = 0x00 ∨ 0x24 ≤ off → v = 0)

/-- 20_memory.md R70: every register access that is not an aligned 32-bit access inside the window is refused. -/
def Obligations.OtherAccessesAreRefused : Prop :=
  ∀ (s : State) (width off : Nat) (v : Word) (rest : List Input), width ≠ 32 ∨ off % 4 ≠ 0 ∨ 256 ≤ off →
    s.inputs = .read width off :: rest ∨ s.inputs = .write width off v :: rest → ∃ r, step s = .refused r

/-- Ports are attached only while idle: a source at position 0, an empty open sink, and nothing else changes
(10_state.md R38, R39; 70_reset_and_hazards.md R313, R321). -/
def Obligations.PortsAttachOnlyWhileIdle : Prop :=
  ∀ (s : State) (bits : List Bool) (rest : List Input),
    (s.inputs = .attachSource bits :: rest →
      (s.busy = false → step s = .next { s with inputs := rest, inBits := bits, inPos := 0 }) ∧
      (s.busy = true → step s = .refused .portChangeWhileBusy)) ∧
    (s.inputs = .attachSink :: rest →
      (s.busy = false → step s = .next { s with inputs := rest, outBits := [], outClosed := false }) ∧
      (s.busy = true → step s = .refused .portChangeWhileBusy))

/-- 70_reset_and_hazards.md R310: the reset input puts the engine state to its reset values whatever the engine was
doing; an idle engine's ports keep their values. -/
def Obligations.ResetInputResetsTheEngine : Prop :=
  ∀ (s : State) (rest : List Input), s.inputs = .reset :: rest →
    ∃ t, step s = .next t ∧ t.statusWord = (if t.outClosed then 0x00000040#32 else 0x00000000#32) ∧
      t.arg = 0 ∧ t.res0 = 0 ∧ t.res1 = 0 ∧ t.res2 = 0 ∧ t.fcmd = 0 ∧ t.fdetail = 0 ∧ t.treeInfo = 0 ∧
      (∀ v, v < 256 → t.freqAt v = 0) ∧ t.freqAt 256 = 1 ∧ (∀ v, t.codeAt v = CodeEntry.absent) ∧
      t.inputs = rest ∧ t.rdata = s.rdata ∧ t.inBits = s.inBits ∧
      (s.busy = false → t.inPos = s.inPos ∧ t.outBits = s.outBits ∧ t.outClosed = s.outClosed)

/-- 70_reset_and_hazards.md R311: a reset while BUSY discards the command; the source position stays inside the source
and the sink's bits extend those at acceptance. -/
def Obligations.ResetWhileBusyDiscardsTheCommand : Prop :=
  ∀ (s : State) (rest : List Input), s.busy = true → s.inputs = .reset :: rest →
    ∃ t, step s = .next t ∧ t.busy = false ∧ t.inPos ≤ t.inBits.length ∧ s.outBits <+: t.outBits ∧
      State.known { t with inPos := 0, outBits := [], outClosed := false } =
        State.known (State.engineReset { s with inputs := rest, inPos := 0, outBits := [], outClosed := false })

/-- 30_encoding.md R100, R101: what COMPRESS and DECOMPRESS expand to, and the fault exit of their WAITs. -/
def Obligations.PseudoCommandsExpand : Prop :=
  (compressInputs =
    [.write 32 0 0x11#32, .wait true, .write 32 0 0x20#32, .wait true, .write 32 0 0x30#32, .wait true,
      .write 32 0 0x70#32, .wait true, .write 32 0 0x40#32, .wait true, .write 32 0 0x72#32, .wait true,
      .write 32 0 0x50#32, .wait true, .write 32 0 0x73#32, .wait true]) ∧
  (decompressInputs =
    [.write 32 0 0x71#32, .wait true, .write 32 0 0x41#32, .wait true, .write 32 0 0x60#32, .wait true,
      .write 32 0 0x73#32, .wait true]) ∧
  ∀ (s : State) (b : Bool) (rest : List Input), s.inputs = .wait b :: rest → s.busy = false → s.done = true →
    (s.fault = false → step s = .next { s with inputs := rest, rdata := s.statusWord }) ∧
    (s.fault = true → step s = .next { s with
      inputs := if b then [.write 32 0 0x73#32, .wait false] else [], rdata := s.statusWord })

/-! ### Control commands -/

/-- 40_control.md R126, R127, R128: NOP, CLRF and SRESET complete in every state, whether or not a fault is recorded,
with exactly the effects their rules give, and an idle engine accepts their words whether or not a fault is recorded; a
word of one of their opcodes with a reserved bit set is none of them. -/
def Obligations.ControlCommandsComplete : Prop :=
  decode 0x00000000#32 = .ok .nop ∧ decode 0x00000001#32 = .ok .clrf ∧ decode 0x00000002#32 = .ok .sreset ∧
  (∀ c : Word, opcodeOf c ≤ 2 → c >>> 8 ≠ 0 → decode c = .error .reservedBitSet) ∧
  (∀ (s : State) (c : Word) (rest : List Input), c ∈ [0x00000000#32, 0x00000001#32, 0x00000002#32] → s.busy = false →
    s.inputs = .write 32 0 c :: rest →
    step s = .next { s with inputs := rest, done := false, cur := c, curArg := s.arg, busy := true }) ∧
  ∀ s : State, Completes .nop s s ∧
    Completes .clrf s { s with fault := false, fcode := 0, lost := false, fcmd := 0, fdetail := 0 } ∧
    Completes .sreset s s.engineReset

/-! ### Frequency table -/

/-- 41_frequency.md R140: FREQ_CLR, and the one-leaf tree of a BUILD right after it. -/
def Obligations.FreqClrClearsTheCounts : Prop :=
  decode 0x00000010#32 = .ok .freqClr ∧ ∀ s : State,
    Completes .freqClr s { s with freq := (Vector.replicate 257 0#32).set 256 1#32 } ∧
    ∃ t, execAll [.freqClr, .build] s = .next t ∧ t.treeValid = true ∧ t.treeInfo = 0x00000001#32 ∧
      t.node[0]? = some (⟨true, 256, 1, 0, 0⟩ : Node)

/-- 41_frequency.md R144: FREQ_WR. -/
def Obligations.FreqWrStoresTheArgument : Prop :=
  (∀ sym, sym < 512 → decode (BitVec.ofNat 32 (sym * 256 + 0x12)) = .ok (.freqWr sym)) ∧
  ∀ (s : State) (sym : Nat),
    (∀ h : sym < 256, Completes (.freqWr sym) s { s with freq := s.freq.set sym s.curArg }) ∧
    (256 ≤ sym → TakesFault (.freqWr sym) s s 0x02 (BitVec.ofNat 32 sym))

/-- 41_frequency.md R145: FREQ_RD. -/
def Obligations.FreqRdReadsTheEntry : Prop :=
  (∀ sym, sym < 512 → decode (BitVec.ofNat 32 (sym * 256 + 0x13)) = .ok (.freqRd sym)) ∧
  ∀ (s : State) (sym : Nat),
    (∀ h : sym < 257, Completes (.freqRd sym) s { s with res0 := s.freq[sym], res1 := 0, res2 := 0 }) ∧
    (257 ≤ sym → TakesFault (.freqRd sym) s s 0x02 (BitVec.ofNat 32 sym))

/-- 41_frequency.md R142: FREQ_COUNT, when no byte value occurs 2^32 times among the whole bytes left, completes with their
counts; and whenever it succeeds it leaves those counts. -/
def Obligations.FreqCountCountsTheBytes : Prop :=
  (∀ s t : State, s.fault = false → exec .freqCount s = .next t → t.fault = false →
    t.inPos = s.inPos + 8 * ((s.inBits.length - s.inPos) / 8) ∧ t.freqAt 256 = 1 ∧
      ∀ v, v < 256 → (t.freqAt v).toNat = (s.bytesAhead ((s.inBits.length - s.inPos) / 8)).count v) ∧
  ∀ s : State, (∀ v, v < 256 → (s.bytesAhead ((s.inBits.length - s.inPos) / 8)).count v ≤ 2 ^ 32 - 1) →
    ∃ t, exec .freqCount s = .next t ∧
      t.known = State.known { s with
        freq := t.freq, inPos := s.inPos + 8 * ((s.inBits.length - s.inPos) / 8), busy := false, done := true } ∧
      (∀ v, v < 256 → (t.freqAt v).toNat = (s.bytesAhead ((s.inBits.length - s.inPos) / 8)).count v) ∧
      t.freqAt 256 = 1

/-- The first byte whose entry already holds 2^32 - 1 raises COUNT_OVERFLOW: it is consumed and not counted, the counts
before it stay, FREQ[256] is not touched (41_frequency.md R141). -/
def Obligations.FreqCountOverflowFaults : Prop :=
  ∀ (s : State) (k : Nat), k < (s.inBits.length - s.inPos) / 8 →
    (∀ v, v < 256 → (s.bytesAhead k).count v ≤ 2 ^ 32 - 1) → (s.bytesAhead k).count (s.byteAt k) = 2 ^ 32 - 1 →
    ∃ t, exec .freqCount s = .next t ∧
      t.known = State.known { s with
        freq := t.freq, inPos := s.inPos + 8 * (k + 1), busy := false, done := true,
        fault := true, fcode := 0x0D, fcmd := s.cur, fdetail := BitVec.ofNat 32 (s.byteAt k) } ∧
      (∀ v, v < 256 → (t.freqAt v).toNat = (s.bytesAhead k).count v) ∧ t.freqAt 256 = s.freqAt 256

/-- 10_state.md R30: FREQ[256] = 1 after reset, and no step writes any other value to it. -/
def Obligations.EofCountIsAlwaysOne : Prop :=
  State.reset.freqAt 256 = 1 ∧
    ∀ s t : State, s.freqAt 256 = 1 → step s = .next t → t.freqAt 256 = 1

/-! ### Tree builder -/

/-- BUILD completes; with k symbols of non-zero frequency NCOUNT = 2k - 1, ROOT = 2k - 2, entries 0..k-1 are the leaves
in ascending symbol order, and nothing but the tree, TREE_VALID and CODES_VALID changes (42_tree_builder.md R160,
R162). -/
def Obligations.BuildMakesLeavesAndRoot : Prop :=
  ∀ s : State, s.freqAt 256 = 1 → ∃ t, exec .build s = .next t ∧
    t.known = State.known { s with
      node := t.node, ncount := t.ncount, root := t.root, treeValid := true, codesValid := false,
      busy := false, done := true } ∧
    t.ncount.toNat = 2 * s.countedSymbols.length - 1 ∧ t.root.toNat = 2 * s.countedSymbols.length - 2 ∧
    ∀ j v : Nat, s.countedSymbols[j]? = some v →
      t.node[j]? = some (⟨true, BitVec.ofNat 9 v, (s.freqAt v).setWidth 41, 0, 0⟩ : Node)

/-- Every entry k..2k-2 of a built tree is internal, with both children before it and their exact sum as its weight; the
root's weight is the sum of all frequencies; merged weights never decrease (42_tree_builder.md R162, R164). -/
def Obligations.BuiltInternalNodesAddUp : Prop :=
  ∀ s t : State, s.freqAt 256 = 1 → exec .build s = .next t →
    (∀ i, s.countedSymbols.length ≤ i → i < 2 * s.countedSymbols.length - 1 →
      ∃ n, t.node[i]? = some n ∧ n.leaf = false ∧ n.sym = 0 ∧ n.left.toNat < i ∧ n.right.toNat < i ∧
        n.wgt.toNat = entryWeight t.node n.left.toNat + entryWeight t.node n.right.toNat) ∧
    entryWeight t.node t.root.toNat = s.totalCount ∧ s.totalCount ≤ 256 * (2 ^ 32 - 1) + 1 ∧
    (∀ i j, s.countedSymbols.length ≤ i → i ≤ j → j < 2 * s.countedSymbols.length - 1 →
      entryWeight t.node i ≤ entryWeight t.node j)

/-- 42_tree_builder.md R161: the leaves have indices in ascending symbol order, each merge removes the two entries of least
(weight, index) in the queue, L first, and BUILD is a function of FREQ alone. -/
def Obligations.BuildMergesTheTwoLeast : Prop :=
  ∀ s t : State, s.freqAt 256 = 1 → exec .build s = .next t →
    (∀ j v : Nat, s.countedSymbols[j]? = some v →
      ∃ n, t.node[j]? = some n ∧ n.leaf = true ∧ n.sym.toNat = v ∧ n.wgt.toNat = (s.freqAt v).toNat) ∧
    (∀ i n, s.countedSymbols.length ≤ i → i < t.ncount.toNat → t.node[i]? = some n →
      InQueueAt t.node s.countedSymbols.length i n.left.toNat ∧
      InQueueAt t.node s.countedSymbols.length i n.right.toNat ∧
      entryBefore t.node n.left.toNat n.right.toNat ∧
      ∀ j, InQueueAt t.node s.countedSymbols.length i j → j ≠ n.left.toNat → j ≠ n.right.toNat →
        entryBefore t.node n.left.toNat j ∧ entryBefore t.node n.right.toNat j) ∧
    (∀ s' t' : State, s'.freq = s.freq → exec .build s' = .next t' →
      t'.ncount = t.ncount ∧ t'.root = t.root ∧ ∀ i, i < t.ncount.toNat → t'.node[i]? = t.node[i]?)

/-- 42_tree_builder.md R163: with FREQ[0..255] all 0 BUILD makes the one-leaf tree; and FREQ_COUNT leaves them all 0
exactly when no whole byte is left to count. -/
def Obligations.EmptyCountsBuildOneLeaf : Prop :=
  (∀ s : State, (∀ v, v < 256 → s.freqAt v = 0) → s.freqAt 256 = 1 → ∃ t, exec .build s = .next t ∧
    t.node[0]? = some (⟨true, 256, 1, 0, 0⟩ : Node) ∧
    State.known t = State.known { s with
      node := t.node, ncount := 1, root := 0, treeValid := true, codesValid := false, busy := false, done := true }) ∧
  (∀ s t : State, s.fault = false → exec .freqCount s = .next t → t.fault = false →
    ((∀ v, v < 256 → t.freqAt v = 0) ↔ (s.inBits.length - s.inPos) / 8 = 0))

/-- 42_tree_builder.md R165: NODE_RD, NO_TREE before BAD_OPERAND. -/
def Obligations.NodeRdReadsTheEntry : Prop :=
  (∀ idx, idx < 1024 → decode (BitVec.ofNat 32 (idx * 256 + 0x21)) = .ok (.nodeRd idx)) ∧
  ∀ (s : State) (idx : Nat),
    (s.treeValid = false → TakesFault (.nodeRd idx) s s 0x03 0) ∧
    (s.treeValid = true → s.ncount.toNat ≤ idx → TakesFault (.nodeRd idx) s s 0x02 (BitVec.ofNat 32 idx)) ∧
    (s.treeValid = true → idx < s.ncount.toNat → ∀ n : Node, s.node[idx]? = some n →
      Completes (.nodeRd idx) s { s with
        res0 := BitVec.ofNat 32 (n.wgt.toNat % 2 ^ 32)
        res1 := BitVec.ofNat 32 (n.wgt.toNat / 2 ^ 32)
        res2 := BitVec.ofNat 32
          (n.leaf.toNat * 2 ^ 31 + n.sym.toNat * 2 ^ 20 + n.left.toNat * 2 ^ 10 + n.right.toNat) })

/-! ### Code table -/

/-- 43_code_table.md R180: GENCODES without a tree, and with one. -/
def Obligations.GenCodesMakesTheTable : Prop :=
  decode 0x00000030#32 = .ok .genCodes ∧ ∀ s : State,
    (s.treeValid = false → TakesFault .genCodes s s 0x03 0) ∧
    (∀ t : Shape, s.treeValid = true → Holds s.node t s.root → t.inAlphabet → t.depth ≤ 256 →
      Completes .genCodes s { s with code := t.codeTable, codesValid := true })

/-- 43_code_table.md R181: each symbol's code is the path of its last leaf; with no symbol twice, which holds of every tree
BUILD makes, the codes are prefix-free, empty only for a leaf root, and their Kraft sum is 1. -/
def Obligations.GeneratedCodesArePrefixFree : Prop :=
  (∀ s b : State, s.freqAt 256 = 1 → exec .build s = .next b →
    ∃ tree, Holds b.node tree b.root ∧ tree.inAlphabet ∧ tree.distinct) ∧
  ∀ (s t : State) (tree : Shape), s.treeValid = true → Holds s.node tree s.root → tree.inAlphabet →
    tree.depth ≤ 256 → exec .genCodes s = .next t →
    (∀ pre y p post, tree.leaves = pre ++ (y, p) :: post → (∀ e ∈ post, e.1 ≠ y) →
      (t.codeAt y).valid = true ∧ (t.codeAt y).str = p) ∧
    (tree.distinct →
      (∀ y z, y ≠ z → (t.codeAt y).valid = true → (t.codeAt z).valid = true →
        ¬ (t.codeAt y).str <+: (t.codeAt z).str) ∧
      (∀ y, (t.codeAt y).valid = true → (t.codeAt y).str = [] → ∃ sym, tree = .leaf sym) ∧
      (((List.range 257).filter fun y => (t.codeAt y).valid).map fun y =>
        (1 : ℚ) / 2 ^ (t.codeAt y).len.toNat).sum = 1)

/-- 43_code_table.md R182: a leaf's depth is at most (N - 1) / 2, so at most 256 in the store, and RDHDR can read a
tree of 513 nodes that reaches 256. -/
def Obligations.CodeLengthBound : Prop :=
  (∀ (s : State) (t : Shape), TreeOk s → Holds s.node t s.root →
    t.depth ≤ (s.ncount.toNat - 1) / 2 ∧ s.ncount.toNat ≤ 513 ∧ ∀ e ∈ t.leaves, e.2.length ≤ 256) ∧
  (∃ (s u : State) (t : Shape), exec .rdHdr s = .next u ∧ u.treeValid = true ∧ u.ncount = 513 ∧ TreeOk u ∧
    Holds u.node t u.root ∧ t.depth = 256)

/-- 43_code_table.md R183: CODE_RD, BAD_OPERAND before NO_CODES. -/
def Obligations.CodeRdReadsTheEntry : Prop :=
  (∀ sym wsel, sym < 512 → wsel < 8 →
    decode (BitVec.ofNat 32 (wsel * 2 ^ 17 + sym * 256 + 0x31)) = .ok (.codeRd sym wsel)) ∧
  ∀ (s : State) (sym wsel : Nat),
    (257 ≤ sym → TakesFault (.codeRd sym wsel) s s 0x02 (BitVec.ofNat 32 sym)) ∧
    (sym < 257 → s.codesValid = false → TakesFault (.codeRd sym wsel) s s 0x04 0) ∧
    (∀ h : sym < 257, s.codesValid = true →
      Completes (.codeRd sym wsel) s { s with
        res0 := BitVec.ofNat 32 (s.code[sym].valid.toNat * 2 ^ 31 + s.code[sym].len.toNat)
        res1 := BitVec.ofNat 32 (s.code[sym].bits.toNat / 2 ^ (32 * wsel) % 2 ^ 32)
        res2 := 0 })

/-! ### Tree header -/

/-- 44_tree_codec.md R200: WRHDR, NO_TREE before SINK_CLOSED, and the header it appends. -/
def Obligations.WrHdrAppendsTheHeader : Prop :=
  decode 0x00000040#32 = .ok .wrHdr ∧ ∀ s : State,
    (s.treeValid = false → TakesFault .wrHdr s s 0x03 0) ∧
    (s.treeValid = true → s.outClosed = true → TakesFault .wrHdr s s 0x05 0) ∧
    (∀ t : Shape, s.treeValid = true → s.outClosed = false → Holds s.node t s.root → t.depth ≤ 256 →
      Completes .wrHdr s { s with outBits := s.outBits ++ t.header })

/-- The header of a well-formed tree with k leaves has 11k - 1 bits, and k = (NCOUNT + 1) / 2 (44_tree_codec.md R201;
30_encoding.md R103). -/
def Obligations.HeaderLength : Prop :=
  ∀ s t : State, s.treeValid = true → s.outClosed = false → TreeOk s → exec .wrHdr s = .next t →
    ∃ k, ((List.range s.ncount.toNat).filter fun i => s.node[i]?.map Node.leaf == some true).length = k ∧
      s.ncount.toNat = 2 * k - 1 ∧ t.outBits.length = s.outBits.length + (11 * k - 1) ∧
      t.outBits.length = s.outBits.length + (11 * ((s.ncount.toNat + 1) / 2) - 1)

/-- RDHDR on a source that holds the header of a tree of at most 513 nodes reads exactly that tree and stops: nodes
numbered in preorder, weights 0, placeholders 0, ROOT = 0 (44_tree_codec.md R203; 10_state.md R31). -/
def Obligations.RdHdrReadsTheTree : Prop :=
  ∀ (s : State) (tree : Shape) (rest : List Bool), tree.inAlphabet → tree.size ≤ 513 →
    s.bitsAhead = tree.header ++ rest →
    ∃ t, exec .rdHdr s = .next t ∧
      t.known = State.known { s with
        node := t.node, ncount := BitVec.ofNat 10 tree.size, root := 0, treeValid := true, codesValid := false,
        inPos := s.inPos + tree.header.length, busy := false, done := true } ∧
      t.ncount.toNat = tree.size ∧ Holds t.node tree 0 ∧ tree.entries t.node 0 = List.range tree.size ∧
      ∀ i, i < tree.size → ∃ n, t.node[i]? = some n ∧ n.wgt = 0 ∧
        (n.leaf = true → n.left = 0 ∧ n.right = 0) ∧
        (n.leaf = false → n.sym = 0 ∧ i < n.left.toNat ∧ i < n.right.toNat)

/-- 44_tree_codec.md R202: an RDHDR that reads the bits WRHDR wrote for a well-formed tree succeeds, consumes exactly
those bits, and leaves the same tree, renumbered in preorder with every weight 0. -/
def Obligations.RdHdrInvertsWrHdr : Prop :=
  ∀ (s t u : State) (header rest : List Bool), s.treeValid = true → s.outClosed = false → TreeOk s →
    exec .wrHdr s = .next t → t.outBits = s.outBits ++ header → u.bitsAhead = header ++ rest →
    ∃ (v : State) (tree : Shape), exec .rdHdr u = .next v ∧ v.fault = u.fault ∧ v.treeValid = true ∧
      v.inPos = u.inPos + header.length ∧ v.ncount = s.ncount ∧
      Holds s.node tree s.root ∧ Holds v.node tree v.root ∧
      tree.entries v.node v.root = List.range v.ncount.toNat ∧
      ∀ i, i < v.ncount.toNat → ∃ n, v.node[i]? = some n ∧ n.wgt = 0

/-- RDHDR always completes. Either the source goes on with the header of a tree of at most 513 nodes with symbols in the
alphabet, and RDHDR leaves that tree and stops just past its header; or it records TRUNC_HDR, HDR_OVERFLOW or BAD_SYMBOL
and leaves no tree, no codes, NCOUNT = ROOT = 0. Nothing else but IN.pos changes (44_tree_codec.md R203;
60_exceptions.md R285). -/
def Obligations.RdHdrEndsWithATreeOrNone : Prop :=
  ∀ s : State, ∃ t, exec .rdHdr s = .next t ∧ s.inPos ≤ t.inPos ∧
    ((t.known = State.known { s with
        node := t.node, ncount := t.ncount, root := 0, treeValid := true, codesValid := false, inPos := t.inPos,
        busy := false, done := true } ∧ TreeOk t ∧
      ∃ (tree : Shape) (rest : List Bool), s.bitsAhead = tree.header ++ rest ∧ tree.inAlphabet ∧ tree.size ≤ 513 ∧
        Holds t.node tree 0 ∧ t.ncount.toNat = tree.size ∧ t.inPos = s.inPos + tree.header.length) ∨
     (t.known = State.known { s with
        node := t.node, ncount := 0, root := 0, treeValid := false, codesValid := false, inPos := t.inPos,
        fault := true, fcode := t.fcode, fcmd := s.cur, fdetail := t.fdetail, busy := false, done := true } ∧
      ((t.fcode = 0x08 ∧ t.fdetail = BitVec.ofNat 32 t.inPos ∧ t.bitsLeft < 9) ∨
       (t.fcode = 0x0C ∧ t.fdetail = 513) ∨
       (t.fcode = 0x0B ∧ 257 ≤ t.fdetail.toNat ∧ t.fdetail.toNat ≤ 511))))

/-- RDHDR's three faults, each at its exact place, whatever follows in the source. `pre` is the header fields read whole
before: at most 513 nodes begun, every symbol legal. If the source ends inside (or before) the next field, RDHDR takes
TRUNC_HDR at the position of that field; if the next field is the structural bit of a 514th node, it takes HDR_OVERFLOW
with 513, that bit consumed; if the next field is a symbol above 256, it takes BAD_SYMBOL with it, its nine bits
consumed. Every one leaves no tree, no codes, NCOUNT = ROOT = 0 and nothing else changed (44_tree_codec.md R203;
60_exceptions.md R282 step 10, R285). -/
def Obligations.RdHdrRejectsBadHeaders : Prop :=
  ∀ (s : State) (tree : Shape) (pre post : List (List Bool)) (f : List Bool), tree.fields = pre ++ f :: post →
    symbolsLegal pre →
    (∀ q, nodesBegun pre ≤ 513 → q <+: f → q ≠ f → s.bitsAhead = pre.flatten ++ q →
      TakesFault .rdHdr s { s with
        treeValid := false, codesValid := false, ncount := 0, root := 0, inPos := s.inPos + pre.flatten.length }
        0x08 (BitVec.ofNat 32 (s.inPos + pre.flatten.length))) ∧
    (∀ rest, nodesBegun pre = 513 → f.length = 1 → s.bitsAhead = pre.flatten ++ f ++ rest →
      TakesFault .rdHdr s { s with
        treeValid := false, codesValid := false, ncount := 0, root := 0, inPos := s.inPos + pre.flatten.length + 1 }
        0x0C 513) ∧
    (∀ rest, nodesBegun pre ≤ 513 → f.length = 9 → 256 < numeral f → s.bitsAhead = pre.flatten ++ f ++ rest →
      TakesFault .rdHdr s { s with
        treeValid := false, codesValid := false, ncount := 0, root := 0, inPos := s.inPos + pre.flatten.length + 9 }
        0x0B (BitVec.ofNat 32 (numeral f)))

/-! ### Encoder -/

/-- ENCODE appends the codes of the whole bytes left and then the code of PSEUDO_EOF, and those are the bits ENC_SYM of
each appends (45_stream_encode.md R220, R222). -/
def Obligations.EncodeWritesThePayload : Prop :=
  ∀ s : State, s.codesValid = true → s.outClosed = false →
    (∀ b ∈ s.bytesAhead ((s.inBits.length - s.inPos) / 8), (s.codeAt b).valid = true) →
    (s.codeAt 256).valid = true →
    Completes .encode s { s with
      inPos := s.inPos + 8 * ((s.inBits.length - s.inPos) / 8)
      outBits := s.outBits ++
        ((s.bytesAhead ((s.inBits.length - s.inPos) / 8)).flatMap fun b => (s.codeAt b).str) ++ (s.codeAt 256).str } ∧
    ∃ u, execAll (((s.bytesAhead ((s.inBits.length - s.inPos) / 8)).map .encSym) ++ [.encSym 256]) s = .next u ∧
      u.outBits = s.outBits ++
        ((s.bytesAhead ((s.inBits.length - s.inPos) / 8)).flatMap fun b => (s.codeAt b).str) ++ (s.codeAt 256).str

/-- ENCODE's faults, in order: NO_CODES and SINK_CLOSED before any read; MISSING_CODE at the first byte with no code,
which is consumed, the codes before it staying written; MISSING_CODE for PSEUDO_EOF at the end (45_stream_encode.md
R220). -/
def Obligations.EncodeFaults : Prop :=
  ∀ s : State,
    (s.codesValid = false → TakesFault .encode s s 0x04 0) ∧
    (s.codesValid = true → s.outClosed = true → TakesFault .encode s s 0x05 0) ∧
    (∀ k, s.codesValid = true → s.outClosed = false → k < (s.inBits.length - s.inPos) / 8 →
      (∀ b ∈ s.bytesAhead k, (s.codeAt b).valid = true) → (s.codeAt (s.byteAt k)).valid = false →
      TakesFault .encode s { s with
        inPos := s.inPos + 8 * (k + 1)
        outBits := s.outBits ++ (s.bytesAhead k).flatMap fun b => (s.codeAt b).str }
        0x0A (BitVec.ofNat 32 (s.byteAt k))) ∧
    (s.codesValid = true → s.outClosed = false →
      (∀ b ∈ s.bytesAhead ((s.inBits.length - s.inPos) / 8), (s.codeAt b).valid = true) →
      (s.codeAt 256).valid = false →
      TakesFault .encode s { s with
        inPos := s.inPos + 8 * ((s.inBits.length - s.inPos) / 8)
        outBits := s.outBits ++
          (s.bytesAhead ((s.inBits.length - s.inPos) / 8)).flatMap fun b => (s.codeAt b).str } 0x0A 256)

/-- 45_stream_encode.md R221: ENC_SYM and its four faults in order. -/
def Obligations.EncSymWritesTheCode : Prop :=
  (∀ sym, sym < 512 → decode (BitVec.ofNat 32 (sym * 256 + 0x51)) = .ok (.encSym sym)) ∧
  ∀ (s : State) (sym : Nat),
    (257 ≤ sym → TakesFault (.encSym sym) s s 0x02 (BitVec.ofNat 32 sym)) ∧
    (sym < 257 → s.codesValid = false → TakesFault (.encSym sym) s s 0x04 0) ∧
    (sym < 257 → s.codesValid = true → s.outClosed = true → TakesFault (.encSym sym) s s 0x05 0) ∧
    (∀ h : sym < 257, s.codesValid = true → s.outClosed = false →
      (s.code[sym].valid = false → TakesFault (.encSym sym) s s 0x0A (BitVec.ofNat 32 sym)) ∧
      (s.code[sym].valid = true →
        Completes (.encSym sym) s { s with
          outBits := s.outBits ++ bitsOf s.code[sym].len.toNat s.code[sym].bits.toNat }))

/-- A code table made by BUILD and GENCODES from a FREQ_COUNT over the same bytes has a code for every symbol ENCODE
meets (45_stream_encode.md R222, R220; 10_state.md R35). -/
def Obligations.NoMissingCodeAfterCounting : Prop :=
  ∀ s counted u : State, s.fault = false → exec .freqCount s = .next counted → counted.fault = false →
    ∃ built coded, exec .build counted = .next built ∧ exec .genCodes built = .next coded ∧
      (∀ v, v ≤ 256 → ((coded.codeAt v).valid = true ↔ counted.freqAt v ≠ 0)) ∧
      (u.fault = false → u.codesValid = true → u.outClosed = false → u.code = coded.code → u.inBits = s.inBits →
        u.inPos = s.inPos → ∃ v, exec .encode u = .next v ∧ v.fault = false)

/-! ### Decoder -/

/-- DECODE of a message of byte leaves' paths followed by PSEUDO_EOF's writes the message's bytes and stops just after
the end marker; on a PSEUDO_EOF leaf root it reads and writes nothing (46_stream_decode.md R240). -/
def Obligations.DecodeWritesTheMessage : Prop :=
  ∀ (s : State) (tree : Shape), s.treeValid = true → s.outClosed = false → Holds s.node tree s.root →
    (tree = .leaf 256 → Completes .decode s s) ∧
    (∀ (l r : Shape) (msg : List (Nat × List Bool)) (eof rest : List Bool), tree = .node l r →
      (∀ e ∈ msg, e ∈ tree.leaves ∧ e.1 < 256) → (256, eof) ∈ tree.leaves →
      s.bitsAhead = msg.flatMap Prod.snd ++ eof ++ rest →
      Completes .decode s { s with
        inPos := s.inPos + (msg.flatMap Prod.snd ++ eof).length
        outBits := s.outBits ++ msg.flatMap fun e => bitsOf 8 e.1 })

/-- DECODE's faults: NO_TREE and SINK_CLOSED before any read, DEGENERATE_TREE for a leaf root that is not PSEUDO_EOF,
TRUNC_PAYLOAD when the source ends inside or between codes, the bytes decoded so far staying written
(46_stream_decode.md R240). -/
def Obligations.DecodeFaults : Prop :=
  ∀ s : State,
    (s.treeValid = false → TakesFault .decode s s 0x03 0) ∧
    (s.treeValid = true → s.outClosed = true → TakesFault .decode s s 0x05 0) ∧
    (∀ sym, s.treeValid = true → s.outClosed = false → Holds s.node (.leaf sym) s.root → sym ≠ 256 →
      TakesFault .decode s s 0x0E (BitVec.ofNat 32 sym)) ∧
    (∀ (l r : Shape) (msg : List (Nat × List Bool)) (y : Nat) (p q : List Bool), s.treeValid = true →
      s.outClosed = false → Holds s.node (.node l r) s.root →
      (∀ e ∈ msg, e ∈ (Shape.node l r).leaves ∧ e.1 < 256) → (y, p) ∈ (Shape.node l r).leaves → q <+: p → q ≠ p →
      s.bitsAhead = msg.flatMap Prod.snd ++ q →
      TakesFault .decode s { s with
        inPos := s.inPos + s.bitsAhead.length
        outBits := s.outBits ++ msg.flatMap fun e => bitsOf 8 e.1 }
        0x09 (BitVec.ofNat 32 (s.inPos + s.bitsAhead.length)))

/-- 46_stream_decode.md R241: DEC_SYM. -/
def Obligations.DecSymReadsOneSymbol : Prop :=
  decode 0x00000061#32 = .ok .decSym ∧ ∀ s : State,
    (s.treeValid = false → TakesFault .decSym s s 0x03 0) ∧
    (∀ (tree : Shape) (y : Nat) (p : List Bool), s.treeValid = true → Holds s.node tree s.root →
      (y, p) ∈ tree.leaves →
      (∀ rest, s.bitsAhead = p ++ rest →
        Completes .decSym s { s with
          inPos := s.inPos + p.length, res0 := BitVec.ofNat 32 y, res1 := BitVec.ofNat 32 p.length, res2 := 0 }) ∧
      (∀ q, q <+: p → q ≠ p → s.bitsAhead = q →
        TakesFault .decSym s { s with inPos := s.inPos + q.length } 0x09 (BitVec.ofNat 32 (s.inPos + q.length))))

/-- 46_stream_decode.md R242: DECODE is DEC_SYM repeated, each symbol but PSEUDO_EOF written as a byte, RES0..RES2
apart. -/
def Obligations.DecodeIsRepeatedDecSym : Prop :=
  ∀ (s t : State) (l r : Shape), s.treeValid = true → s.outClosed = false → s.fault = false →
    Holds s.node (.node l r) s.root → (Shape.node l r).inAlphabet → exec .decSym s = .next t →
    (t.fault = true → TakesFault .decode s { s with inPos := t.inPos } t.fcode t.fdetail) ∧
    (t.fault = false → t.res0 = 256 → Completes .decode s { s with inPos := t.inPos }) ∧
    (t.fault = false → t.res0 ≠ 256 →
      exec .decode s = exec .decode { s with
        inPos := t.inPos, outBits := s.outBits ++ bitsOf 8 t.res0.toNat })

/-- DECODE over the tree a code table was made from gives back the bytes ENCODE encoded, and reads exactly the payload
(45_stream_encode.md R222; 46_stream_decode.md R240; 43_code_table.md R181). -/
def Obligations.DecodeInvertsEncode : Prop :=
  ∀ (s t u : State) (tree : Shape) (payload rest : List Bool), tree.inAlphabet → tree.distinct → tree.depth ≤ 256 →
    s.codesValid = true → s.outClosed = false → s.fault = false → s.code = tree.codeTable →
    exec .encode s = .next t → t.fault = false → t.outBits = s.outBits ++ payload →
    u.treeValid = true → u.outClosed = false → Holds u.node tree u.root → u.bitsAhead = payload ++ rest →
    Completes .decode u { u with
      inPos := u.inPos + payload.length
      outBits := u.outBits ++
        (s.bytesAhead ((s.inBits.length - s.inPos) / 8)).flatMap fun b => bitsOf 8 b }

/-! ### Tag and ports -/

/-- 47_framing_ports.md R260: WRTAG, whatever MAGIC is. -/
def Obligations.WrTagAppendsMagic : Prop :=
  decode 0x00000070#32 = .ok .wrTag ∧ ∀ s : State,
    (s.outClosed = true → TakesFault .wrTag s s 0x05 0) ∧
    (s.outClosed = false → Completes .wrTag s { s with outBits := s.outBits ++ bitsOf 32 Config.MAGIC.toNat })

/-- 47_framing_ports.md R261: CHKTAG, whatever MAGIC is; the sink is never touched. -/
def Obligations.ChkTagChecksMagic : Prop :=
  decode 0x00000071#32 = .ok .chkTag ∧ ∀ s : State,
    (s.bitsAhead.length < 32 → TakesFault .chkTag s s 0x07 (BitVec.ofNat 32 s.bitsAhead.length)) ∧
    (32 ≤ s.bitsAhead.length →
      (numeral (s.bitsAhead.take 32) = Config.MAGIC.toNat → Completes .chkTag s { s with inPos := s.inPos + 32 }) ∧
      (numeral (s.bitsAhead.take 32) ≠ Config.MAGIC.toNat →
        TakesFault .chkTag s { s with inPos := s.inPos + 32 } 0x06 (BitVec.ofNat 32 (numeral (s.bitsAhead.take 32)))))

/-- 47_framing_ports.md R262, R263 and 20_memory.md R61, R63: SRC_REWIND returns to bit 0; SNK_CLOSE pads an open sink
with 0 to 7 zero bits to whole bytes and closes it, and does nothing to a closed one. -/
def Obligations.RewindAndCloseThePorts : Prop :=
  decode 0x00000072#32 = .ok .srcRewind ∧ decode 0x00000073#32 = .ok .snkClose ∧ ∀ s : State,
    Completes .srcRewind s { s with inPos := 0 } ∧
    (s.outClosed = true → Completes .snkClose s s) ∧
    (s.outClosed = false → ∃ k, k < 8 ∧ 8 ∣ s.outBits.length + k ∧
      Completes .snkClose s { s with outBits := s.outBits ++ List.replicate k false, outClosed := true })

/-! ### Invariants and whole-machine rules -/

/-- The reset state meets the invariants. -/
def Obligations.ResetMeetsTheInvariants : Prop :=
  StatusOk State.reset ∧ TreeValidOk State.reset ∧ CodesValidOk State.reset

/-- Every step keeps the invariants of the control state, the code table's form and the source position (10_state.md
R23, R26, R27, R34, R35, R38; 60_exceptions.md R280, R286). -/
def Obligations.StepKeepsStatusOk : Prop :=
  ∀ s t : State, StatusOk s → step s = .next t → StatusOk t

/-- Every step keeps: with TREE_VALID = 1 the store holds a well-formed tree (10_state.md R33). -/
def Obligations.StepKeepsTreeValidOk : Prop :=
  ∀ s t : State, TreeValidOk s → step s = .next t → TreeValidOk t

/-- Every step keeps: with CODES_VALID = 1 the code table is the one GENCODES makes from the tree the store holds now
(10_state.md R35; 70_reset_and_hazards.md R318). -/
def Obligations.StepKeepsCodesValidOk : Prop :=
  ∀ s t : State, CodesValidOk s → step s = .next t → CodesValidOk t

/-- What a well-formed tree is, clause by clause (10_state.md R33). -/
def Obligations.WellFormedTreeClauses : Prop :=
  ∀ s : State, TreeOk s →
    s.root.toNat < s.ncount.toNat ∧ s.ncount.toNat ≤ 513 ∧ s.ncount.toNat % 2 = 1 ∧
    (∀ i n, i < s.ncount.toNat → s.node[i]? = some n →
      (n.leaf = true → n.sym.toNat ≤ 256) ∧
      (n.leaf = false → n.left.toNat < s.ncount.toNat ∧ n.right.toNat < s.ncount.toNat)) ∧
    (∀ i, i < s.ncount.toNat →
      (∃! p, follow s.node s.root p = some (BitVec.ofNat 10 i)) ∧
      ∀ p, p ≠ [] → follow s.node (BitVec.ofNat 10 i) p ≠ some (BitVec.ofNat 10 i))

/-- Every accepted command, legal or not, completes in the engine's one step: BUSY = 0 and DONE = 1 after it, and the
machine never stops there (40_control.md R121, R124; 70_reset_and_hazards.md R325). -/
def Obligations.EveryAcceptedCommandCompletes : Prop :=
  ∀ s t : State, s.freqAt 256 = 1 → TreeValidOk s → EngineRuns s t →
    ∃ u, step s = .next u ∧ u.busy = false ∧ u.done = true ∧ u.inputs = t.inputs

/-- 60_exceptions.md R283: while a fault is recorded no step records another; the record stays as it is or is cleared
whole. -/
def Obligations.FaultRecordIsNeverOverwritten : Prop :=
  ∀ s t : State, StatusOk s → step s = .next t → s.fault = true →
    (t.fault = true ∧ t.fcode = s.fcode ∧ t.fcmd = s.fcmd ∧ t.fdetail = s.fdetail) ∨
      (t.fault = false ∧ t.fcode = 0 ∧ t.fcmd = 0 ∧ t.fdetail = 0)

/-- 60_exceptions.md R289: LOST is set by a CMD write while BUSY or discarded in the fault state, and by nothing else; it
is cleared by CLRF, SRESET and reset, and by nothing else; setting it records no fault. -/
def Obligations.LostIsSticky : Prop :=
  ∀ s t : State, step s = .next t →
    (s.lost = true → t.lost = false →
      (∃ rest, s.inputs = .reset :: rest) ∨ (s.busy = true ∧ (decode s.cur = .ok .clrf ∨ decode s.cur = .ok .sreset))) ∧
    (s.lost = false → t.lost = true →
      (∃ c rest, s.inputs = .write 32 0 c :: rest ∧
        (s.busy = true ∨ (s.fault = true ∧ c ∉ [0x00000000#32, 0x00000001#32, 0x00000002#32, 0x00000073#32]))) ∧
      t.fault = s.fault ∧ t.fcode = s.fcode ∧ t.fcmd = s.fcmd ∧ t.fdetail = s.fdetail) ∧
    (∀ c rest, s.inputs = .write 32 0 c :: rest →
      s.busy = true ∨ (s.fault = true ∧ c ∉ [0x00000000#32, 0x00000001#32, 0x00000002#32, 0x00000073#32]) →
      t.lost = true) ∧
    ((∃ rest, s.inputs = .reset :: rest) → t.lost = false) ∧
    (∀ u, EngineRuns s u → decode u.cur = .ok .clrf ∨ decode u.cur = .ok .sreset → t.lost = false)

/-- Each piece of state is written only by the commands whose rules write it (10_state.md R24, R25, R29, R32, R34, R38,
R39; 20_memory.md R69). -/
def Obligations.StateChangesOnlyByItsCommands : Prop :=
  ∀ (i : Instr) (s t : State), exec i s = .next t → i ≠ .sreset →
    t.arg = s.arg ∧ t.inBits = s.inBits ∧ t.inputs = s.inputs ∧ t.rdata = s.rdata ∧
    ((t.fault = true ∧ s.fault = false) ∨
        ((∀ v, i ≠ .freqRd v) ∧ (∀ v, i ≠ .nodeRd v) ∧ (∀ v w, i ≠ .codeRd v w) ∧ i ≠ .decSym) →
      t.res0 = s.res0 ∧ t.res1 = s.res1 ∧ t.res2 = s.res2) ∧
    (i ≠ .freqClr → i ≠ .freqCount → (∀ v, i ≠ .freqWr v) → t.freq = s.freq) ∧
    (i ≠ .build → i ≠ .rdHdr →
      t.node = s.node ∧ t.ncount = s.ncount ∧ t.root = s.root ∧ t.treeValid = s.treeValid) ∧
    (i ≠ .genCodes → t.code = s.code) ∧
    (i ≠ .build → i ≠ .rdHdr → i ≠ .genCodes → t.codesValid = s.codesValid) ∧
    (i ≠ .clrf → t.lost = s.lost) ∧
    (i ≠ .freqCount → i ≠ .rdHdr → i ≠ .encode → i ≠ .decode → i ≠ .decSym → i ≠ .chkTag → i ≠ .srcRewind →
      t.inPos = s.inPos) ∧
    (i ≠ .wrHdr → i ≠ .encode → (∀ v, i ≠ .encSym v) → i ≠ .decode → i ≠ .wrTag → i ≠ .snkClose →
      t.outBits = s.outBits) ∧
    (i ≠ .snkClose → t.outClosed = s.outClosed)

/-- The sink only grows and a closed one does not change while commands run, until the host attaches another or resets
mid-command; the source's bits change only by attaching another (10_state.md R38, R39; 60_exceptions.md R285;
70_reset_and_hazards.md R320). -/
def Obligations.PortsChangeOnlyAsTheSpecSays : Prop :=
  ∀ s t : State, step s = .next t →
    (t.inBits = s.inBits ∨ ∃ bits rest, s.inputs = .attachSource bits :: rest) ∧
    (s.outBits <+: t.outBits ∨ ∃ rest, s.inputs = .attachSink :: rest) ∧
    (s.outClosed = true → t.outClosed = true ∧ t.outBits = s.outBits ∨
      (∃ rest, s.inputs = .attachSink :: rest) ∨ (s.busy = true ∧ ∃ rest, s.inputs = .reset :: rest))

/-- 46_stream_decode.md R244: for every byte sequence with at most 2^32 - 1 copies of each byte value, COMPRESS from an
idle engine with no fault recorded completes with no fault and leaves one and the same byte stream C in the sink, and
DECOMPRESS of C completes with no fault and leaves exactly the bits of the sequence. -/
def Obligations.CompressThenDecompressRoundTrips : Prop :=
  ∀ bytes : List (BitVec 8), (∀ b, bytes.count b ≤ 2 ^ 32 - 1) →
    ∃ stream : List Bool, 8 ∣ stream.length ∧
      (∀ s : State, Idle s → FreshPorts s (bitsOfBytes bytes) → s.inputs = compressInputs →
        ∃ t, Reaches s t ∧ t.inputs = [] ∧ Idle t ∧ t.done = true ∧ t.outClosed = true ∧ t.outBits = stream) ∧
      (∀ u : State, Idle u → FreshPorts u stream → u.inputs = decompressInputs →
        ∃ v, Reaches u v ∧ v.inputs = [] ∧ Idle v ∧ v.done = true ∧ v.outClosed = true ∧
          v.outBits = bitsOfBytes bytes)
end

