-- ==== Sys2Proof/Laws/State.lean ====
section
/-! SUPPORT. What each named update of the state does to each field, one lemma a field: true by unfolding the update
once, so that no later proof unfolds it. -/

namespace Sys2Proof.Machine

/-! ### State.srcRewind -/

@[simp] theorem State.srcRewind_arg (s : State) : s.srcRewind.arg = s.arg := rfl
@[simp] theorem State.srcRewind_res0 (s : State) : s.srcRewind.res0 = s.res0 := rfl
@[simp] theorem State.srcRewind_res1 (s : State) : s.srcRewind.res1 = s.res1 := rfl
@[simp] theorem State.srcRewind_res2 (s : State) : s.srcRewind.res2 = s.res2 := rfl
@[simp] theorem State.srcRewind_fcmd (s : State) : s.srcRewind.fcmd = s.fcmd := rfl
@[simp] theorem State.srcRewind_fdetail (s : State) : s.srcRewind.fdetail = s.fdetail := rfl
@[simp] theorem State.srcRewind_busy (s : State) : s.srcRewind.busy = s.busy := rfl
@[simp] theorem State.srcRewind_done (s : State) : s.srcRewind.done = s.done := rfl
@[simp] theorem State.srcRewind_fault (s : State) : s.srcRewind.fault = s.fault := rfl
@[simp] theorem State.srcRewind_lost (s : State) : s.srcRewind.lost = s.lost := rfl
@[simp] theorem State.srcRewind_treeValid (s : State) : s.srcRewind.treeValid = s.treeValid := rfl
@[simp] theorem State.srcRewind_codesValid (s : State) : s.srcRewind.codesValid = s.codesValid := rfl
@[simp] theorem State.srcRewind_fcode (s : State) : s.srcRewind.fcode = s.fcode := rfl
@[simp] theorem State.srcRewind_cur (s : State) : s.srcRewind.cur = s.cur := rfl
@[simp] theorem State.srcRewind_curArg (s : State) : s.srcRewind.curArg = s.curArg := rfl
@[simp] theorem State.srcRewind_freq (s : State) : s.srcRewind.freq = s.freq := rfl
@[simp] theorem State.srcRewind_node (s : State) : s.srcRewind.node = s.node := rfl
@[simp] theorem State.srcRewind_ncount (s : State) : s.srcRewind.ncount = s.ncount := rfl
@[simp] theorem State.srcRewind_root (s : State) : s.srcRewind.root = s.root := rfl
@[simp] theorem State.srcRewind_code (s : State) : s.srcRewind.code = s.code := rfl
@[simp] theorem State.srcRewind_inBits (s : State) : s.srcRewind.inBits = s.inBits := rfl
@[simp] theorem State.srcRewind_inPos (s : State) : s.srcRewind.inPos = 0 := rfl
@[simp] theorem State.srcRewind_outBits (s : State) : s.srcRewind.outBits = s.outBits := rfl
@[simp] theorem State.srcRewind_outClosed (s : State) : s.srcRewind.outClosed = s.outClosed := rfl
@[simp] theorem State.srcRewind_inputs (s : State) : s.srcRewind.inputs = s.inputs := rfl
@[simp] theorem State.srcRewind_rdata (s : State) : s.srcRewind.rdata = s.rdata := rfl
@[simp] theorem State.srcRewind_draws (s : State) : s.srcRewind.draws = s.draws := rfl

/-! ### State.snkWrite -/

@[simp] theorem State.snkWrite_arg (s : State) (w v : Nat) : (s.snkWrite w v).arg = s.arg := rfl
@[simp] theorem State.snkWrite_res0 (s : State) (w v : Nat) : (s.snkWrite w v).res0 = s.res0 := rfl
@[simp] theorem State.snkWrite_res1 (s : State) (w v : Nat) : (s.snkWrite w v).res1 = s.res1 := rfl
@[simp] theorem State.snkWrite_res2 (s : State) (w v : Nat) : (s.snkWrite w v).res2 = s.res2 := rfl
@[simp] theorem State.snkWrite_fcmd (s : State) (w v : Nat) : (s.snkWrite w v).fcmd = s.fcmd := rfl
@[simp] theorem State.snkWrite_fdetail (s : State) (w v : Nat) : (s.snkWrite w v).fdetail = s.fdetail := rfl
@[simp] theorem State.snkWrite_busy (s : State) (w v : Nat) : (s.snkWrite w v).busy = s.busy := rfl
@[simp] theorem State.snkWrite_done (s : State) (w v : Nat) : (s.snkWrite w v).done = s.done := rfl
@[simp] theorem State.snkWrite_fault (s : State) (w v : Nat) : (s.snkWrite w v).fault = s.fault := rfl
@[simp] theorem State.snkWrite_lost (s : State) (w v : Nat) : (s.snkWrite w v).lost = s.lost := rfl
@[simp] theorem State.snkWrite_treeValid (s : State) (w v : Nat) : (s.snkWrite w v).treeValid = s.treeValid := rfl
@[simp] theorem State.snkWrite_codesValid (s : State) (w v : Nat) : (s.snkWrite w v).codesValid = s.codesValid := rfl
@[simp] theorem State.snkWrite_fcode (s : State) (w v : Nat) : (s.snkWrite w v).fcode = s.fcode := rfl
@[simp] theorem State.snkWrite_cur (s : State) (w v : Nat) : (s.snkWrite w v).cur = s.cur := rfl
@[simp] theorem State.snkWrite_curArg (s : State) (w v : Nat) : (s.snkWrite w v).curArg = s.curArg := rfl
@[simp] theorem State.snkWrite_freq (s : State) (w v : Nat) : (s.snkWrite w v).freq = s.freq := rfl
@[simp] theorem State.snkWrite_node (s : State) (w v : Nat) : (s.snkWrite w v).node = s.node := rfl
@[simp] theorem State.snkWrite_ncount (s : State) (w v : Nat) : (s.snkWrite w v).ncount = s.ncount := rfl
@[simp] theorem State.snkWrite_root (s : State) (w v : Nat) : (s.snkWrite w v).root = s.root := rfl
@[simp] theorem State.snkWrite_code (s : State) (w v : Nat) : (s.snkWrite w v).code = s.code := rfl
@[simp] theorem State.snkWrite_inBits (s : State) (w v : Nat) : (s.snkWrite w v).inBits = s.inBits := rfl
@[simp] theorem State.snkWrite_inPos (s : State) (w v : Nat) : (s.snkWrite w v).inPos = s.inPos := rfl
@[simp] theorem State.snkWrite_outBits (s : State) (w v : Nat) : (s.snkWrite w v).outBits = s.outBits ++ bitsOf w v := rfl
@[simp] theorem State.snkWrite_outClosed (s : State) (w v : Nat) : (s.snkWrite w v).outClosed = s.outClosed := rfl
@[simp] theorem State.snkWrite_inputs (s : State) (w v : Nat) : (s.snkWrite w v).inputs = s.inputs := rfl
@[simp] theorem State.snkWrite_rdata (s : State) (w v : Nat) : (s.snkWrite w v).rdata = s.rdata := rfl
@[simp] theorem State.snkWrite_draws (s : State) (w v : Nat) : (s.snkWrite w v).draws = s.draws := rfl

/-! ### State.withSource -/

@[simp] theorem State.withSource_arg (s : State) (bits : List Bool) : (s.withSource bits).arg = s.arg := rfl
@[simp] theorem State.withSource_res0 (s : State) (bits : List Bool) : (s.withSource bits).res0 = s.res0 := rfl
@[simp] theorem State.withSource_res1 (s : State) (bits : List Bool) : (s.withSource bits).res1 = s.res1 := rfl
@[simp] theorem State.withSource_res2 (s : State) (bits : List Bool) : (s.withSource bits).res2 = s.res2 := rfl
@[simp] theorem State.withSource_fcmd (s : State) (bits : List Bool) : (s.withSource bits).fcmd = s.fcmd := rfl
@[simp] theorem State.withSource_fdetail (s : State) (bits : List Bool) : (s.withSource bits).fdetail = s.fdetail := rfl
@[simp] theorem State.withSource_busy (s : State) (bits : List Bool) : (s.withSource bits).busy = s.busy := rfl
@[simp] theorem State.withSource_done (s : State) (bits : List Bool) : (s.withSource bits).done = s.done := rfl
@[simp] theorem State.withSource_fault (s : State) (bits : List Bool) : (s.withSource bits).fault = s.fault := rfl
@[simp] theorem State.withSource_lost (s : State) (bits : List Bool) : (s.withSource bits).lost = s.lost := rfl
@[simp] theorem State.withSource_treeValid (s : State) (bits : List Bool) : (s.withSource bits).treeValid = s.treeValid := rfl
@[simp] theorem State.withSource_codesValid (s : State) (bits : List Bool) : (s.withSource bits).codesValid = s.codesValid := rfl
@[simp] theorem State.withSource_fcode (s : State) (bits : List Bool) : (s.withSource bits).fcode = s.fcode := rfl
@[simp] theorem State.withSource_cur (s : State) (bits : List Bool) : (s.withSource bits).cur = s.cur := rfl
@[simp] theorem State.withSource_curArg (s : State) (bits : List Bool) : (s.withSource bits).curArg = s.curArg := rfl
@[simp] theorem State.withSource_freq (s : State) (bits : List Bool) : (s.withSource bits).freq = s.freq := rfl
@[simp] theorem State.withSource_node (s : State) (bits : List Bool) : (s.withSource bits).node = s.node := rfl
@[simp] theorem State.withSource_ncount (s : State) (bits : List Bool) : (s.withSource bits).ncount = s.ncount := rfl
@[simp] theorem State.withSource_root (s : State) (bits : List Bool) : (s.withSource bits).root = s.root := rfl
@[simp] theorem State.withSource_code (s : State) (bits : List Bool) : (s.withSource bits).code = s.code := rfl
@[simp] theorem State.withSource_inBits (s : State) (bits : List Bool) : (s.withSource bits).inBits = bits := rfl
@[simp] theorem State.withSource_inPos (s : State) (bits : List Bool) : (s.withSource bits).inPos = 0 := rfl
@[simp] theorem State.withSource_outBits (s : State) (bits : List Bool) : (s.withSource bits).outBits = s.outBits := rfl
@[simp] theorem State.withSource_outClosed (s : State) (bits : List Bool) : (s.withSource bits).outClosed = s.outClosed := rfl
@[simp] theorem State.withSource_inputs (s : State) (bits : List Bool) : (s.withSource bits).inputs = s.inputs := rfl
@[simp] theorem State.withSource_rdata (s : State) (bits : List Bool) : (s.withSource bits).rdata = s.rdata := rfl
@[simp] theorem State.withSource_draws (s : State) (bits : List Bool) : (s.withSource bits).draws = s.draws := rfl

/-! ### State.withSink -/

@[simp] theorem State.withSink_arg (s : State) : s.withSink.arg = s.arg := rfl
@[simp] theorem State.withSink_res0 (s : State) : s.withSink.res0 = s.res0 := rfl
@[simp] theorem State.withSink_res1 (s : State) : s.withSink.res1 = s.res1 := rfl
@[simp] theorem State.withSink_res2 (s : State) : s.withSink.res2 = s.res2 := rfl
@[simp] theorem State.withSink_fcmd (s : State) : s.withSink.fcmd = s.fcmd := rfl
@[simp] theorem State.withSink_fdetail (s : State) : s.withSink.fdetail = s.fdetail := rfl
@[simp] theorem State.withSink_busy (s : State) : s.withSink.busy = s.busy := rfl
@[simp] theorem State.withSink_done (s : State) : s.withSink.done = s.done := rfl
@[simp] theorem State.withSink_fault (s : State) : s.withSink.fault = s.fault := rfl
@[simp] theorem State.withSink_lost (s : State) : s.withSink.lost = s.lost := rfl
@[simp] theorem State.withSink_treeValid (s : State) : s.withSink.treeValid = s.treeValid := rfl
@[simp] theorem State.withSink_codesValid (s : State) : s.withSink.codesValid = s.codesValid := rfl
@[simp] theorem State.withSink_fcode (s : State) : s.withSink.fcode = s.fcode := rfl
@[simp] theorem State.withSink_cur (s : State) : s.withSink.cur = s.cur := rfl
@[simp] theorem State.withSink_curArg (s : State) : s.withSink.curArg = s.curArg := rfl
@[simp] theorem State.withSink_freq (s : State) : s.withSink.freq = s.freq := rfl
@[simp] theorem State.withSink_node (s : State) : s.withSink.node = s.node := rfl
@[simp] theorem State.withSink_ncount (s : State) : s.withSink.ncount = s.ncount := rfl
@[simp] theorem State.withSink_root (s : State) : s.withSink.root = s.root := rfl
@[simp] theorem State.withSink_code (s : State) : s.withSink.code = s.code := rfl
@[simp] theorem State.withSink_inBits (s : State) : s.withSink.inBits = s.inBits := rfl
@[simp] theorem State.withSink_inPos (s : State) : s.withSink.inPos = s.inPos := rfl
@[simp] theorem State.withSink_outBits (s : State) : s.withSink.outBits = [] := rfl
@[simp] theorem State.withSink_outClosed (s : State) : s.withSink.outClosed = false := rfl
@[simp] theorem State.withSink_inputs (s : State) : s.withSink.inputs = s.inputs := rfl
@[simp] theorem State.withSink_rdata (s : State) : s.withSink.rdata = s.rdata := rfl
@[simp] theorem State.withSink_draws (s : State) : s.withSink.draws = s.draws := rfl

/-! ### State.setFreq -/

@[simp] theorem State.setFreq_arg (s : State) (v : Nat) (x : Word) : (s.setFreq v x).arg = s.arg := rfl
@[simp] theorem State.setFreq_res0 (s : State) (v : Nat) (x : Word) : (s.setFreq v x).res0 = s.res0 := rfl
@[simp] theorem State.setFreq_res1 (s : State) (v : Nat) (x : Word) : (s.setFreq v x).res1 = s.res1 := rfl
@[simp] theorem State.setFreq_res2 (s : State) (v : Nat) (x : Word) : (s.setFreq v x).res2 = s.res2 := rfl
@[simp] theorem State.setFreq_fcmd (s : State) (v : Nat) (x : Word) : (s.setFreq v x).fcmd = s.fcmd := rfl
@[simp] theorem State.setFreq_fdetail (s : State) (v : Nat) (x : Word) : (s.setFreq v x).fdetail = s.fdetail := rfl
@[simp] theorem State.setFreq_busy (s : State) (v : Nat) (x : Word) : (s.setFreq v x).busy = s.busy := rfl
@[simp] theorem State.setFreq_done (s : State) (v : Nat) (x : Word) : (s.setFreq v x).done = s.done := rfl
@[simp] theorem State.setFreq_fault (s : State) (v : Nat) (x : Word) : (s.setFreq v x).fault = s.fault := rfl
@[simp] theorem State.setFreq_lost (s : State) (v : Nat) (x : Word) : (s.setFreq v x).lost = s.lost := rfl
@[simp] theorem State.setFreq_treeValid (s : State) (v : Nat) (x : Word) : (s.setFreq v x).treeValid = s.treeValid := rfl
@[simp] theorem State.setFreq_codesValid (s : State) (v : Nat) (x : Word) : (s.setFreq v x).codesValid = s.codesValid := rfl
@[simp] theorem State.setFreq_fcode (s : State) (v : Nat) (x : Word) : (s.setFreq v x).fcode = s.fcode := rfl
@[simp] theorem State.setFreq_cur (s : State) (v : Nat) (x : Word) : (s.setFreq v x).cur = s.cur := rfl
@[simp] theorem State.setFreq_curArg (s : State) (v : Nat) (x : Word) : (s.setFreq v x).curArg = s.curArg := rfl
@[simp] theorem State.setFreq_freq (s : State) (v : Nat) (x : Word) : (s.setFreq v x).freq = s.freq.setIfInBounds v x := rfl
@[simp] theorem State.setFreq_node (s : State) (v : Nat) (x : Word) : (s.setFreq v x).node = s.node := rfl
@[simp] theorem State.setFreq_ncount (s : State) (v : Nat) (x : Word) : (s.setFreq v x).ncount = s.ncount := rfl
@[simp] theorem State.setFreq_root (s : State) (v : Nat) (x : Word) : (s.setFreq v x).root = s.root := rfl
@[simp] theorem State.setFreq_code (s : State) (v : Nat) (x : Word) : (s.setFreq v x).code = s.code := rfl
@[simp] theorem State.setFreq_inBits (s : State) (v : Nat) (x : Word) : (s.setFreq v x).inBits = s.inBits := rfl
@[simp] theorem State.setFreq_inPos (s : State) (v : Nat) (x : Word) : (s.setFreq v x).inPos = s.inPos := rfl
@[simp] theorem State.setFreq_outBits (s : State) (v : Nat) (x : Word) : (s.setFreq v x).outBits = s.outBits := rfl
@[simp] theorem State.setFreq_outClosed (s : State) (v : Nat) (x : Word) : (s.setFreq v x).outClosed = s.outClosed := rfl
@[simp] theorem State.setFreq_inputs (s : State) (v : Nat) (x : Word) : (s.setFreq v x).inputs = s.inputs := rfl
@[simp] theorem State.setFreq_rdata (s : State) (v : Nat) (x : Word) : (s.setFreq v x).rdata = s.rdata := rfl
@[simp] theorem State.setFreq_draws (s : State) (v : Nat) (x : Word) : (s.setFreq v x).draws = s.draws := rfl

/-! ### State.clearCounts -/

@[simp] theorem State.clearCounts_arg (s : State) : s.clearCounts.arg = s.arg := rfl
@[simp] theorem State.clearCounts_res0 (s : State) : s.clearCounts.res0 = s.res0 := rfl
@[simp] theorem State.clearCounts_res1 (s : State) : s.clearCounts.res1 = s.res1 := rfl
@[simp] theorem State.clearCounts_res2 (s : State) : s.clearCounts.res2 = s.res2 := rfl
@[simp] theorem State.clearCounts_fcmd (s : State) : s.clearCounts.fcmd = s.fcmd := rfl
@[simp] theorem State.clearCounts_fdetail (s : State) : s.clearCounts.fdetail = s.fdetail := rfl
@[simp] theorem State.clearCounts_busy (s : State) : s.clearCounts.busy = s.busy := rfl
@[simp] theorem State.clearCounts_done (s : State) : s.clearCounts.done = s.done := rfl
@[simp] theorem State.clearCounts_fault (s : State) : s.clearCounts.fault = s.fault := rfl
@[simp] theorem State.clearCounts_lost (s : State) : s.clearCounts.lost = s.lost := rfl
@[simp] theorem State.clearCounts_treeValid (s : State) : s.clearCounts.treeValid = s.treeValid := rfl
@[simp] theorem State.clearCounts_codesValid (s : State) : s.clearCounts.codesValid = s.codesValid := rfl
@[simp] theorem State.clearCounts_fcode (s : State) : s.clearCounts.fcode = s.fcode := rfl
@[simp] theorem State.clearCounts_cur (s : State) : s.clearCounts.cur = s.cur := rfl
@[simp] theorem State.clearCounts_curArg (s : State) : s.clearCounts.curArg = s.curArg := rfl
@[simp] theorem State.clearCounts_freq (s : State) : s.clearCounts.freq = tabulate 257 fun v => if v < 256 then 0 else s.freqAt v := rfl
@[simp] theorem State.clearCounts_node (s : State) : s.clearCounts.node = s.node := rfl
@[simp] theorem State.clearCounts_ncount (s : State) : s.clearCounts.ncount = s.ncount := rfl
@[simp] theorem State.clearCounts_root (s : State) : s.clearCounts.root = s.root := rfl
@[simp] theorem State.clearCounts_code (s : State) : s.clearCounts.code = s.code := rfl
@[simp] theorem State.clearCounts_inBits (s : State) : s.clearCounts.inBits = s.inBits := rfl
@[simp] theorem State.clearCounts_inPos (s : State) : s.clearCounts.inPos = s.inPos := rfl
@[simp] theorem State.clearCounts_outBits (s : State) : s.clearCounts.outBits = s.outBits := rfl
@[simp] theorem State.clearCounts_outClosed (s : State) : s.clearCounts.outClosed = s.outClosed := rfl
@[simp] theorem State.clearCounts_inputs (s : State) : s.clearCounts.inputs = s.inputs := rfl
@[simp] theorem State.clearCounts_rdata (s : State) : s.clearCounts.rdata = s.rdata := rfl
@[simp] theorem State.clearCounts_draws (s : State) : s.clearCounts.draws = s.draws := rfl

/-! ### State.undefineNodes -/

@[simp] theorem State.undefineNodes_arg (s : State) : s.undefineNodes.arg = s.arg := rfl
@[simp] theorem State.undefineNodes_res0 (s : State) : s.undefineNodes.res0 = s.res0 := rfl
@[simp] theorem State.undefineNodes_res1 (s : State) : s.undefineNodes.res1 = s.res1 := rfl
@[simp] theorem State.undefineNodes_res2 (s : State) : s.undefineNodes.res2 = s.res2 := rfl
@[simp] theorem State.undefineNodes_fcmd (s : State) : s.undefineNodes.fcmd = s.fcmd := rfl
@[simp] theorem State.undefineNodes_fdetail (s : State) : s.undefineNodes.fdetail = s.fdetail := rfl
@[simp] theorem State.undefineNodes_busy (s : State) : s.undefineNodes.busy = s.busy := rfl
@[simp] theorem State.undefineNodes_done (s : State) : s.undefineNodes.done = s.done := rfl
@[simp] theorem State.undefineNodes_fault (s : State) : s.undefineNodes.fault = s.fault := rfl
@[simp] theorem State.undefineNodes_lost (s : State) : s.undefineNodes.lost = s.lost := rfl
@[simp] theorem State.undefineNodes_treeValid (s : State) : s.undefineNodes.treeValid = s.treeValid := rfl
@[simp] theorem State.undefineNodes_codesValid (s : State) : s.undefineNodes.codesValid = s.codesValid := rfl
@[simp] theorem State.undefineNodes_fcode (s : State) : s.undefineNodes.fcode = s.fcode := rfl
@[simp] theorem State.undefineNodes_cur (s : State) : s.undefineNodes.cur = s.cur := rfl
@[simp] theorem State.undefineNodes_curArg (s : State) : s.undefineNodes.curArg = s.curArg := rfl
@[simp] theorem State.undefineNodes_freq (s : State) : s.undefineNodes.freq = s.freq := rfl
@[simp] theorem State.undefineNodes_node (s : State) : s.undefineNodes.node = tabulate 513 fun i =>
      if i < s.ncount.toNat then s.node[i]?.getD Node.zero else freeNode s.draws i := rfl
@[simp] theorem State.undefineNodes_ncount (s : State) : s.undefineNodes.ncount = s.ncount := rfl
@[simp] theorem State.undefineNodes_root (s : State) : s.undefineNodes.root = s.root := rfl
@[simp] theorem State.undefineNodes_code (s : State) : s.undefineNodes.code = s.code := rfl
@[simp] theorem State.undefineNodes_inBits (s : State) : s.undefineNodes.inBits = s.inBits := rfl
@[simp] theorem State.undefineNodes_inPos (s : State) : s.undefineNodes.inPos = s.inPos := rfl
@[simp] theorem State.undefineNodes_outBits (s : State) : s.undefineNodes.outBits = s.outBits := rfl
@[simp] theorem State.undefineNodes_outClosed (s : State) : s.undefineNodes.outClosed = s.outClosed := rfl
@[simp] theorem State.undefineNodes_inputs (s : State) : s.undefineNodes.inputs = s.inputs := rfl
@[simp] theorem State.undefineNodes_rdata (s : State) : s.undefineNodes.rdata = s.rdata := rfl
@[simp] theorem State.undefineNodes_draws (s : State) : s.undefineNodes.draws = s.draws + 1 := rfl

/-! ### State.undefineCur -/

@[simp] theorem State.undefineCur_arg (s : State) : s.undefineCur.arg = s.arg := rfl
@[simp] theorem State.undefineCur_res0 (s : State) : s.undefineCur.res0 = s.res0 := rfl
@[simp] theorem State.undefineCur_res1 (s : State) : s.undefineCur.res1 = s.res1 := rfl
@[simp] theorem State.undefineCur_res2 (s : State) : s.undefineCur.res2 = s.res2 := rfl
@[simp] theorem State.undefineCur_fcmd (s : State) : s.undefineCur.fcmd = s.fcmd := rfl
@[simp] theorem State.undefineCur_fdetail (s : State) : s.undefineCur.fdetail = s.fdetail := rfl
@[simp] theorem State.undefineCur_busy (s : State) : s.undefineCur.busy = s.busy := rfl
@[simp] theorem State.undefineCur_done (s : State) : s.undefineCur.done = s.done := rfl
@[simp] theorem State.undefineCur_fault (s : State) : s.undefineCur.fault = s.fault := rfl
@[simp] theorem State.undefineCur_lost (s : State) : s.undefineCur.lost = s.lost := rfl
@[simp] theorem State.undefineCur_treeValid (s : State) : s.undefineCur.treeValid = s.treeValid := rfl
@[simp] theorem State.undefineCur_codesValid (s : State) : s.undefineCur.codesValid = s.codesValid := rfl
@[simp] theorem State.undefineCur_fcode (s : State) : s.undefineCur.fcode = s.fcode := rfl
@[simp] theorem State.undefineCur_cur (s : State) : s.undefineCur.cur = Config.freeWord s.draws := rfl
@[simp] theorem State.undefineCur_curArg (s : State) : s.undefineCur.curArg = Config.freeWord (s.draws + 1) := rfl
@[simp] theorem State.undefineCur_freq (s : State) : s.undefineCur.freq = s.freq := rfl
@[simp] theorem State.undefineCur_node (s : State) : s.undefineCur.node = s.node := rfl
@[simp] theorem State.undefineCur_ncount (s : State) : s.undefineCur.ncount = s.ncount := rfl
@[simp] theorem State.undefineCur_root (s : State) : s.undefineCur.root = s.root := rfl
@[simp] theorem State.undefineCur_code (s : State) : s.undefineCur.code = s.code := rfl
@[simp] theorem State.undefineCur_inBits (s : State) : s.undefineCur.inBits = s.inBits := rfl
@[simp] theorem State.undefineCur_inPos (s : State) : s.undefineCur.inPos = s.inPos := rfl
@[simp] theorem State.undefineCur_outBits (s : State) : s.undefineCur.outBits = s.outBits := rfl
@[simp] theorem State.undefineCur_outClosed (s : State) : s.undefineCur.outClosed = s.outClosed := rfl
@[simp] theorem State.undefineCur_inputs (s : State) : s.undefineCur.inputs = s.inputs := rfl
@[simp] theorem State.undefineCur_rdata (s : State) : s.undefineCur.rdata = s.rdata := rfl
@[simp] theorem State.undefineCur_draws (s : State) : s.undefineCur.draws = s.draws + 2 := rfl

/-! ### State.complete -/

@[simp] theorem State.complete_arg (s : State) : s.complete.arg = s.arg := rfl
@[simp] theorem State.complete_res0 (s : State) : s.complete.res0 = s.res0 := rfl
@[simp] theorem State.complete_res1 (s : State) : s.complete.res1 = s.res1 := rfl
@[simp] theorem State.complete_res2 (s : State) : s.complete.res2 = s.res2 := rfl
@[simp] theorem State.complete_fcmd (s : State) : s.complete.fcmd = s.fcmd := rfl
@[simp] theorem State.complete_fdetail (s : State) : s.complete.fdetail = s.fdetail := rfl
@[simp] theorem State.complete_busy (s : State) : s.complete.busy = false := rfl
@[simp] theorem State.complete_done (s : State) : s.complete.done = true := rfl
@[simp] theorem State.complete_fault (s : State) : s.complete.fault = s.fault := rfl
@[simp] theorem State.complete_lost (s : State) : s.complete.lost = s.lost := rfl
@[simp] theorem State.complete_treeValid (s : State) : s.complete.treeValid = s.treeValid := rfl
@[simp] theorem State.complete_codesValid (s : State) : s.complete.codesValid = s.codesValid := rfl
@[simp] theorem State.complete_fcode (s : State) : s.complete.fcode = s.fcode := rfl
@[simp] theorem State.complete_cur (s : State) : s.complete.cur = Config.freeWord s.draws := rfl
@[simp] theorem State.complete_curArg (s : State) : s.complete.curArg = Config.freeWord (s.draws + 1) := rfl
@[simp] theorem State.complete_freq (s : State) : s.complete.freq = s.freq := rfl
@[simp] theorem State.complete_node (s : State) : s.complete.node = s.node := rfl
@[simp] theorem State.complete_ncount (s : State) : s.complete.ncount = s.ncount := rfl
@[simp] theorem State.complete_root (s : State) : s.complete.root = s.root := rfl
@[simp] theorem State.complete_code (s : State) : s.complete.code = s.code := rfl
@[simp] theorem State.complete_inBits (s : State) : s.complete.inBits = s.inBits := rfl
@[simp] theorem State.complete_inPos (s : State) : s.complete.inPos = s.inPos := rfl
@[simp] theorem State.complete_outBits (s : State) : s.complete.outBits = s.outBits := rfl
@[simp] theorem State.complete_outClosed (s : State) : s.complete.outClosed = s.outClosed := rfl
@[simp] theorem State.complete_inputs (s : State) : s.complete.inputs = s.inputs := rfl
@[simp] theorem State.complete_rdata (s : State) : s.complete.rdata = s.rdata := rfl
@[simp] theorem State.complete_draws (s : State) : s.complete.draws = s.draws + 2 := rfl

/-! ### State.recordFault -/

@[simp] theorem State.recordFault_arg (s : State) (c : FaultCode) (d : Word) : (s.recordFault c d).arg = s.arg := rfl
@[simp] theorem State.recordFault_res0 (s : State) (c : FaultCode) (d : Word) : (s.recordFault c d).res0 = s.res0 := rfl
@[simp] theorem State.recordFault_res1 (s : State) (c : FaultCode) (d : Word) : (s.recordFault c d).res1 = s.res1 := rfl
@[simp] theorem State.recordFault_res2 (s : State) (c : FaultCode) (d : Word) : (s.recordFault c d).res2 = s.res2 := rfl
@[simp] theorem State.recordFault_fcmd (s : State) (c : FaultCode) (d : Word) : (s.recordFault c d).fcmd = s.cur := rfl
@[simp] theorem State.recordFault_fdetail (s : State) (c : FaultCode) (d : Word) : (s.recordFault c d).fdetail = d := rfl
@[simp] theorem State.recordFault_busy (s : State) (c : FaultCode) (d : Word) : (s.recordFault c d).busy = s.busy := rfl
@[simp] theorem State.recordFault_done (s : State) (c : FaultCode) (d : Word) : (s.recordFault c d).done = s.done := rfl
@[simp] theorem State.recordFault_fault (s : State) (c : FaultCode) (d : Word) : (s.recordFault c d).fault = true := rfl
@[simp] theorem State.recordFault_lost (s : State) (c : FaultCode) (d : Word) : (s.recordFault c d).lost = s.lost := rfl
@[simp] theorem State.recordFault_treeValid (s : State) (c : FaultCode) (d : Word) : (s.recordFault c d).treeValid = s.treeValid := rfl
@[simp] theorem State.recordFault_codesValid (s : State) (c : FaultCode) (d : Word) : (s.recordFault c d).codesValid = s.codesValid := rfl
@[simp] theorem State.recordFault_fcode (s : State) (c : FaultCode) (d : Word) : (s.recordFault c d).fcode = faultNumber c := rfl
@[simp] theorem State.recordFault_cur (s : State) (c : FaultCode) (d : Word) : (s.recordFault c d).cur = s.cur := rfl
@[simp] theorem State.recordFault_curArg (s : State) (c : FaultCode) (d : Word) : (s.recordFault c d).curArg = s.curArg := rfl
@[simp] theorem State.recordFault_freq (s : State) (c : FaultCode) (d : Word) : (s.recordFault c d).freq = s.freq := rfl
@[simp] theorem State.recordFault_node (s : State) (c : FaultCode) (d : Word) : (s.recordFault c d).node = s.node := rfl
@[simp] theorem State.recordFault_ncount (s : State) (c : FaultCode) (d : Word) : (s.recordFault c d).ncount = s.ncount := rfl
@[simp] theorem State.recordFault_root (s : State) (c : FaultCode) (d : Word) : (s.recordFault c d).root = s.root := rfl
@[simp] theorem State.recordFault_code (s : State) (c : FaultCode) (d : Word) : (s.recordFault c d).code = s.code := rfl
@[simp] theorem State.recordFault_inBits (s : State) (c : FaultCode) (d : Word) : (s.recordFault c d).inBits = s.inBits := rfl
@[simp] theorem State.recordFault_inPos (s : State) (c : FaultCode) (d : Word) : (s.recordFault c d).inPos = s.inPos := rfl
@[simp] theorem State.recordFault_outBits (s : State) (c : FaultCode) (d : Word) : (s.recordFault c d).outBits = s.outBits := rfl
@[simp] theorem State.recordFault_outClosed (s : State) (c : FaultCode) (d : Word) : (s.recordFault c d).outClosed = s.outClosed := rfl
@[simp] theorem State.recordFault_inputs (s : State) (c : FaultCode) (d : Word) : (s.recordFault c d).inputs = s.inputs := rfl
@[simp] theorem State.recordFault_rdata (s : State) (c : FaultCode) (d : Word) : (s.recordFault c d).rdata = s.rdata := rfl
@[simp] theorem State.recordFault_draws (s : State) (c : FaultCode) (d : Word) : (s.recordFault c d).draws = s.draws := rfl

/-! ### State.clearFault -/

@[simp] theorem State.clearFault_arg (s : State) : s.clearFault.arg = s.arg := rfl
@[simp] theorem State.clearFault_res0 (s : State) : s.clearFault.res0 = s.res0 := rfl
@[simp] theorem State.clearFault_res1 (s : State) : s.clearFault.res1 = s.res1 := rfl
@[simp] theorem State.clearFault_res2 (s : State) : s.clearFault.res2 = s.res2 := rfl
@[simp] theorem State.clearFault_fcmd (s : State) : s.clearFault.fcmd = 0 := rfl
@[simp] theorem State.clearFault_fdetail (s : State) : s.clearFault.fdetail = 0 := rfl
@[simp] theorem State.clearFault_busy (s : State) : s.clearFault.busy = s.busy := rfl
@[simp] theorem State.clearFault_done (s : State) : s.clearFault.done = s.done := rfl
@[simp] theorem State.clearFault_fault (s : State) : s.clearFault.fault = false := rfl
@[simp] theorem State.clearFault_lost (s : State) : s.clearFault.lost = false := rfl
@[simp] theorem State.clearFault_treeValid (s : State) : s.clearFault.treeValid = s.treeValid := rfl
@[simp] theorem State.clearFault_codesValid (s : State) : s.clearFault.codesValid = s.codesValid := rfl
@[simp] theorem State.clearFault_fcode (s : State) : s.clearFault.fcode = 0 := rfl
@[simp] theorem State.clearFault_cur (s : State) : s.clearFault.cur = s.cur := rfl
@[simp] theorem State.clearFault_curArg (s : State) : s.clearFault.curArg = s.curArg := rfl
@[simp] theorem State.clearFault_freq (s : State) : s.clearFault.freq = s.freq := rfl
@[simp] theorem State.clearFault_node (s : State) : s.clearFault.node = s.node := rfl
@[simp] theorem State.clearFault_ncount (s : State) : s.clearFault.ncount = s.ncount := rfl
@[simp] theorem State.clearFault_root (s : State) : s.clearFault.root = s.root := rfl
@[simp] theorem State.clearFault_code (s : State) : s.clearFault.code = s.code := rfl
@[simp] theorem State.clearFault_inBits (s : State) : s.clearFault.inBits = s.inBits := rfl
@[simp] theorem State.clearFault_inPos (s : State) : s.clearFault.inPos = s.inPos := rfl
@[simp] theorem State.clearFault_outBits (s : State) : s.clearFault.outBits = s.outBits := rfl
@[simp] theorem State.clearFault_outClosed (s : State) : s.clearFault.outClosed = s.outClosed := rfl
@[simp] theorem State.clearFault_inputs (s : State) : s.clearFault.inputs = s.inputs := rfl
@[simp] theorem State.clearFault_rdata (s : State) : s.clearFault.rdata = s.rdata := rfl
@[simp] theorem State.clearFault_draws (s : State) : s.clearFault.draws = s.draws := rfl

/-! ### State.setResults -/

@[simp] theorem State.setResults_arg (s : State) (a b c : Word) : (s.setResults a b c).arg = s.arg := rfl
@[simp] theorem State.setResults_res0 (s : State) (a b c : Word) : (s.setResults a b c).res0 = a := rfl
@[simp] theorem State.setResults_res1 (s : State) (a b c : Word) : (s.setResults a b c).res1 = b := rfl
@[simp] theorem State.setResults_res2 (s : State) (a b c : Word) : (s.setResults a b c).res2 = c := rfl
@[simp] theorem State.setResults_fcmd (s : State) (a b c : Word) : (s.setResults a b c).fcmd = s.fcmd := rfl
@[simp] theorem State.setResults_fdetail (s : State) (a b c : Word) : (s.setResults a b c).fdetail = s.fdetail := rfl
@[simp] theorem State.setResults_busy (s : State) (a b c : Word) : (s.setResults a b c).busy = s.busy := rfl
@[simp] theorem State.setResults_done (s : State) (a b c : Word) : (s.setResults a b c).done = s.done := rfl
@[simp] theorem State.setResults_fault (s : State) (a b c : Word) : (s.setResults a b c).fault = s.fault := rfl
@[simp] theorem State.setResults_lost (s : State) (a b c : Word) : (s.setResults a b c).lost = s.lost := rfl
@[simp] theorem State.setResults_treeValid (s : State) (a b c : Word) : (s.setResults a b c).treeValid = s.treeValid := rfl
@[simp] theorem State.setResults_codesValid (s : State) (a b c : Word) : (s.setResults a b c).codesValid = s.codesValid := rfl
@[simp] theorem State.setResults_fcode (s : State) (a b c : Word) : (s.setResults a b c).fcode = s.fcode := rfl
@[simp] theorem State.setResults_cur (s : State) (a b c : Word) : (s.setResults a b c).cur = s.cur := rfl
@[simp] theorem State.setResults_curArg (s : State) (a b c : Word) : (s.setResults a b c).curArg = s.curArg := rfl
@[simp] theorem State.setResults_freq (s : State) (a b c : Word) : (s.setResults a b c).freq = s.freq := rfl
@[simp] theorem State.setResults_node (s : State) (a b c : Word) : (s.setResults a b c).node = s.node := rfl
@[simp] theorem State.setResults_ncount (s : State) (a b c : Word) : (s.setResults a b c).ncount = s.ncount := rfl
@[simp] theorem State.setResults_root (s : State) (a b c : Word) : (s.setResults a b c).root = s.root := rfl
@[simp] theorem State.setResults_code (s : State) (a b c : Word) : (s.setResults a b c).code = s.code := rfl
@[simp] theorem State.setResults_inBits (s : State) (a b c : Word) : (s.setResults a b c).inBits = s.inBits := rfl
@[simp] theorem State.setResults_inPos (s : State) (a b c : Word) : (s.setResults a b c).inPos = s.inPos := rfl
@[simp] theorem State.setResults_outBits (s : State) (a b c : Word) : (s.setResults a b c).outBits = s.outBits := rfl
@[simp] theorem State.setResults_outClosed (s : State) (a b c : Word) : (s.setResults a b c).outClosed = s.outClosed := rfl
@[simp] theorem State.setResults_inputs (s : State) (a b c : Word) : (s.setResults a b c).inputs = s.inputs := rfl
@[simp] theorem State.setResults_rdata (s : State) (a b c : Word) : (s.setResults a b c).rdata = s.rdata := rfl
@[simp] theorem State.setResults_draws (s : State) (a b c : Word) : (s.setResults a b c).draws = s.draws := rfl

/-! ### State.discard -/

@[simp] theorem State.discard_arg (s : State) : s.discard.arg = s.arg := rfl
@[simp] theorem State.discard_res0 (s : State) : s.discard.res0 = s.res0 := rfl
@[simp] theorem State.discard_res1 (s : State) : s.discard.res1 = s.res1 := rfl
@[simp] theorem State.discard_res2 (s : State) : s.discard.res2 = s.res2 := rfl
@[simp] theorem State.discard_fcmd (s : State) : s.discard.fcmd = s.fcmd := rfl
@[simp] theorem State.discard_fdetail (s : State) : s.discard.fdetail = s.fdetail := rfl
@[simp] theorem State.discard_busy (s : State) : s.discard.busy = s.busy := rfl
@[simp] theorem State.discard_done (s : State) : s.discard.done = true := rfl
@[simp] theorem State.discard_fault (s : State) : s.discard.fault = s.fault := rfl
@[simp] theorem State.discard_lost (s : State) : s.discard.lost = true := rfl
@[simp] theorem State.discard_treeValid (s : State) : s.discard.treeValid = s.treeValid := rfl
@[simp] theorem State.discard_codesValid (s : State) : s.discard.codesValid = s.codesValid := rfl
@[simp] theorem State.discard_fcode (s : State) : s.discard.fcode = s.fcode := rfl
@[simp] theorem State.discard_cur (s : State) : s.discard.cur = s.cur := rfl
@[simp] theorem State.discard_curArg (s : State) : s.discard.curArg = s.curArg := rfl
@[simp] theorem State.discard_freq (s : State) : s.discard.freq = s.freq := rfl
@[simp] theorem State.discard_node (s : State) : s.discard.node = s.node := rfl
@[simp] theorem State.discard_ncount (s : State) : s.discard.ncount = s.ncount := rfl
@[simp] theorem State.discard_root (s : State) : s.discard.root = s.root := rfl
@[simp] theorem State.discard_code (s : State) : s.discard.code = s.code := rfl
@[simp] theorem State.discard_inBits (s : State) : s.discard.inBits = s.inBits := rfl
@[simp] theorem State.discard_inPos (s : State) : s.discard.inPos = s.inPos := rfl
@[simp] theorem State.discard_outBits (s : State) : s.discard.outBits = s.outBits := rfl
@[simp] theorem State.discard_outClosed (s : State) : s.discard.outClosed = s.outClosed := rfl
@[simp] theorem State.discard_inputs (s : State) : s.discard.inputs = s.inputs := rfl
@[simp] theorem State.discard_rdata (s : State) : s.discard.rdata = s.rdata := rfl
@[simp] theorem State.discard_draws (s : State) : s.discard.draws = s.draws := rfl

/-! ### State.accept -/

@[simp] theorem State.accept_arg (s : State) (c : Word) : (s.accept c).arg = s.arg := rfl
@[simp] theorem State.accept_res0 (s : State) (c : Word) : (s.accept c).res0 = s.res0 := rfl
@[simp] theorem State.accept_res1 (s : State) (c : Word) : (s.accept c).res1 = s.res1 := rfl
@[simp] theorem State.accept_res2 (s : State) (c : Word) : (s.accept c).res2 = s.res2 := rfl
@[simp] theorem State.accept_fcmd (s : State) (c : Word) : (s.accept c).fcmd = s.fcmd := rfl
@[simp] theorem State.accept_fdetail (s : State) (c : Word) : (s.accept c).fdetail = s.fdetail := rfl
@[simp] theorem State.accept_busy (s : State) (c : Word) : (s.accept c).busy = true := rfl
@[simp] theorem State.accept_done (s : State) (c : Word) : (s.accept c).done = false := rfl
@[simp] theorem State.accept_fault (s : State) (c : Word) : (s.accept c).fault = s.fault := rfl
@[simp] theorem State.accept_lost (s : State) (c : Word) : (s.accept c).lost = s.lost := rfl
@[simp] theorem State.accept_treeValid (s : State) (c : Word) : (s.accept c).treeValid = s.treeValid := rfl
@[simp] theorem State.accept_codesValid (s : State) (c : Word) : (s.accept c).codesValid = s.codesValid := rfl
@[simp] theorem State.accept_fcode (s : State) (c : Word) : (s.accept c).fcode = s.fcode := rfl
@[simp] theorem State.accept_cur (s : State) (c : Word) : (s.accept c).cur = c := rfl
@[simp] theorem State.accept_curArg (s : State) (c : Word) : (s.accept c).curArg = s.arg := rfl
@[simp] theorem State.accept_freq (s : State) (c : Word) : (s.accept c).freq = s.freq := rfl
@[simp] theorem State.accept_node (s : State) (c : Word) : (s.accept c).node = s.node := rfl
@[simp] theorem State.accept_ncount (s : State) (c : Word) : (s.accept c).ncount = s.ncount := rfl
@[simp] theorem State.accept_root (s : State) (c : Word) : (s.accept c).root = s.root := rfl
@[simp] theorem State.accept_code (s : State) (c : Word) : (s.accept c).code = s.code := rfl
@[simp] theorem State.accept_inBits (s : State) (c : Word) : (s.accept c).inBits = s.inBits := rfl
@[simp] theorem State.accept_inPos (s : State) (c : Word) : (s.accept c).inPos = s.inPos := rfl
@[simp] theorem State.accept_outBits (s : State) (c : Word) : (s.accept c).outBits = s.outBits := rfl
@[simp] theorem State.accept_outClosed (s : State) (c : Word) : (s.accept c).outClosed = s.outClosed := rfl
@[simp] theorem State.accept_inputs (s : State) (c : Word) : (s.accept c).inputs = s.inputs := rfl
@[simp] theorem State.accept_rdata (s : State) (c : Word) : (s.accept c).rdata = s.rdata := rfl
@[simp] theorem State.accept_draws (s : State) (c : Word) : (s.accept c).draws = s.draws := rfl

/-! ### State.setCode -/

@[simp] theorem State.setCode_arg (s : State) (v : Nat) (e : CodeEntry) : (s.setCode v e).arg = s.arg := rfl
@[simp] theorem State.setCode_res0 (s : State) (v : Nat) (e : CodeEntry) : (s.setCode v e).res0 = s.res0 := rfl
@[simp] theorem State.setCode_res1 (s : State) (v : Nat) (e : CodeEntry) : (s.setCode v e).res1 = s.res1 := rfl
@[simp] theorem State.setCode_res2 (s : State) (v : Nat) (e : CodeEntry) : (s.setCode v e).res2 = s.res2 := rfl
@[simp] theorem State.setCode_fcmd (s : State) (v : Nat) (e : CodeEntry) : (s.setCode v e).fcmd = s.fcmd := rfl
@[simp] theorem State.setCode_fdetail (s : State) (v : Nat) (e : CodeEntry) : (s.setCode v e).fdetail = s.fdetail := rfl
@[simp] theorem State.setCode_busy (s : State) (v : Nat) (e : CodeEntry) : (s.setCode v e).busy = s.busy := rfl
@[simp] theorem State.setCode_done (s : State) (v : Nat) (e : CodeEntry) : (s.setCode v e).done = s.done := rfl
@[simp] theorem State.setCode_fault (s : State) (v : Nat) (e : CodeEntry) : (s.setCode v e).fault = s.fault := rfl
@[simp] theorem State.setCode_lost (s : State) (v : Nat) (e : CodeEntry) : (s.setCode v e).lost = s.lost := rfl
@[simp] theorem State.setCode_treeValid (s : State) (v : Nat) (e : CodeEntry) : (s.setCode v e).treeValid = s.treeValid := rfl
@[simp] theorem State.setCode_codesValid (s : State) (v : Nat) (e : CodeEntry) : (s.setCode v e).codesValid = s.codesValid := rfl
@[simp] theorem State.setCode_fcode (s : State) (v : Nat) (e : CodeEntry) : (s.setCode v e).fcode = s.fcode := rfl
@[simp] theorem State.setCode_cur (s : State) (v : Nat) (e : CodeEntry) : (s.setCode v e).cur = s.cur := rfl
@[simp] theorem State.setCode_curArg (s : State) (v : Nat) (e : CodeEntry) : (s.setCode v e).curArg = s.curArg := rfl
@[simp] theorem State.setCode_freq (s : State) (v : Nat) (e : CodeEntry) : (s.setCode v e).freq = s.freq := rfl
@[simp] theorem State.setCode_node (s : State) (v : Nat) (e : CodeEntry) : (s.setCode v e).node = s.node := rfl
@[simp] theorem State.setCode_ncount (s : State) (v : Nat) (e : CodeEntry) : (s.setCode v e).ncount = s.ncount := rfl
@[simp] theorem State.setCode_root (s : State) (v : Nat) (e : CodeEntry) : (s.setCode v e).root = s.root := rfl
@[simp] theorem State.setCode_code (s : State) (v : Nat) (e : CodeEntry) : (s.setCode v e).code = s.code.setIfInBounds v e := rfl
@[simp] theorem State.setCode_inBits (s : State) (v : Nat) (e : CodeEntry) : (s.setCode v e).inBits = s.inBits := rfl
@[simp] theorem State.setCode_inPos (s : State) (v : Nat) (e : CodeEntry) : (s.setCode v e).inPos = s.inPos := rfl
@[simp] theorem State.setCode_outBits (s : State) (v : Nat) (e : CodeEntry) : (s.setCode v e).outBits = s.outBits := rfl
@[simp] theorem State.setCode_outClosed (s : State) (v : Nat) (e : CodeEntry) : (s.setCode v e).outClosed = s.outClosed := rfl
@[simp] theorem State.setCode_inputs (s : State) (v : Nat) (e : CodeEntry) : (s.setCode v e).inputs = s.inputs := rfl
@[simp] theorem State.setCode_rdata (s : State) (v : Nat) (e : CodeEntry) : (s.setCode v e).rdata = s.rdata := rfl
@[simp] theorem State.setCode_draws (s : State) (v : Nat) (e : CodeEntry) : (s.setCode v e).draws = s.draws := rfl

/-! ### State.clearCodes -/

@[simp] theorem State.clearCodes_arg (s : State) : s.clearCodes.arg = s.arg := rfl
@[simp] theorem State.clearCodes_res0 (s : State) : s.clearCodes.res0 = s.res0 := rfl
@[simp] theorem State.clearCodes_res1 (s : State) : s.clearCodes.res1 = s.res1 := rfl
@[simp] theorem State.clearCodes_res2 (s : State) : s.clearCodes.res2 = s.res2 := rfl
@[simp] theorem State.clearCodes_fcmd (s : State) : s.clearCodes.fcmd = s.fcmd := rfl
@[simp] theorem State.clearCodes_fdetail (s : State) : s.clearCodes.fdetail = s.fdetail := rfl
@[simp] theorem State.clearCodes_busy (s : State) : s.clearCodes.busy = s.busy := rfl
@[simp] theorem State.clearCodes_done (s : State) : s.clearCodes.done = s.done := rfl
@[simp] theorem State.clearCodes_fault (s : State) : s.clearCodes.fault = s.fault := rfl
@[simp] theorem State.clearCodes_lost (s : State) : s.clearCodes.lost = s.lost := rfl
@[simp] theorem State.clearCodes_treeValid (s : State) : s.clearCodes.treeValid = s.treeValid := rfl
@[simp] theorem State.clearCodes_codesValid (s : State) : s.clearCodes.codesValid = s.codesValid := rfl
@[simp] theorem State.clearCodes_fcode (s : State) : s.clearCodes.fcode = s.fcode := rfl
@[simp] theorem State.clearCodes_cur (s : State) : s.clearCodes.cur = s.cur := rfl
@[simp] theorem State.clearCodes_curArg (s : State) : s.clearCodes.curArg = s.curArg := rfl
@[simp] theorem State.clearCodes_freq (s : State) : s.clearCodes.freq = s.freq := rfl
@[simp] theorem State.clearCodes_node (s : State) : s.clearCodes.node = s.node := rfl
@[simp] theorem State.clearCodes_ncount (s : State) : s.clearCodes.ncount = s.ncount := rfl
@[simp] theorem State.clearCodes_root (s : State) : s.clearCodes.root = s.root := rfl
@[simp] theorem State.clearCodes_code (s : State) : s.clearCodes.code = Vector.replicate 257 CodeEntry.absent := rfl
@[simp] theorem State.clearCodes_inBits (s : State) : s.clearCodes.inBits = s.inBits := rfl
@[simp] theorem State.clearCodes_inPos (s : State) : s.clearCodes.inPos = s.inPos := rfl
@[simp] theorem State.clearCodes_outBits (s : State) : s.clearCodes.outBits = s.outBits := rfl
@[simp] theorem State.clearCodes_outClosed (s : State) : s.clearCodes.outClosed = s.outClosed := rfl
@[simp] theorem State.clearCodes_inputs (s : State) : s.clearCodes.inputs = s.inputs := rfl
@[simp] theorem State.clearCodes_rdata (s : State) : s.clearCodes.rdata = s.rdata := rfl
@[simp] theorem State.clearCodes_draws (s : State) : s.clearCodes.draws = s.draws := rfl

/-! ### State.setNode -/

@[simp] theorem State.setNode_arg (s : State) (i : Nat) (n : Node) : (s.setNode i n).arg = s.arg := rfl
@[simp] theorem State.setNode_res0 (s : State) (i : Nat) (n : Node) : (s.setNode i n).res0 = s.res0 := rfl
@[simp] theorem State.setNode_res1 (s : State) (i : Nat) (n : Node) : (s.setNode i n).res1 = s.res1 := rfl
@[simp] theorem State.setNode_res2 (s : State) (i : Nat) (n : Node) : (s.setNode i n).res2 = s.res2 := rfl
@[simp] theorem State.setNode_fcmd (s : State) (i : Nat) (n : Node) : (s.setNode i n).fcmd = s.fcmd := rfl
@[simp] theorem State.setNode_fdetail (s : State) (i : Nat) (n : Node) : (s.setNode i n).fdetail = s.fdetail := rfl
@[simp] theorem State.setNode_busy (s : State) (i : Nat) (n : Node) : (s.setNode i n).busy = s.busy := rfl
@[simp] theorem State.setNode_done (s : State) (i : Nat) (n : Node) : (s.setNode i n).done = s.done := rfl
@[simp] theorem State.setNode_fault (s : State) (i : Nat) (n : Node) : (s.setNode i n).fault = s.fault := rfl
@[simp] theorem State.setNode_lost (s : State) (i : Nat) (n : Node) : (s.setNode i n).lost = s.lost := rfl
@[simp] theorem State.setNode_treeValid (s : State) (i : Nat) (n : Node) : (s.setNode i n).treeValid = s.treeValid := rfl
@[simp] theorem State.setNode_codesValid (s : State) (i : Nat) (n : Node) : (s.setNode i n).codesValid = s.codesValid := rfl
@[simp] theorem State.setNode_fcode (s : State) (i : Nat) (n : Node) : (s.setNode i n).fcode = s.fcode := rfl
@[simp] theorem State.setNode_cur (s : State) (i : Nat) (n : Node) : (s.setNode i n).cur = s.cur := rfl
@[simp] theorem State.setNode_curArg (s : State) (i : Nat) (n : Node) : (s.setNode i n).curArg = s.curArg := rfl
@[simp] theorem State.setNode_freq (s : State) (i : Nat) (n : Node) : (s.setNode i n).freq = s.freq := rfl
@[simp] theorem State.setNode_node (s : State) (i : Nat) (n : Node) : (s.setNode i n).node = s.node.setIfInBounds i n := rfl
@[simp] theorem State.setNode_ncount (s : State) (i : Nat) (n : Node) : (s.setNode i n).ncount = s.ncount := rfl
@[simp] theorem State.setNode_root (s : State) (i : Nat) (n : Node) : (s.setNode i n).root = s.root := rfl
@[simp] theorem State.setNode_code (s : State) (i : Nat) (n : Node) : (s.setNode i n).code = s.code := rfl
@[simp] theorem State.setNode_inBits (s : State) (i : Nat) (n : Node) : (s.setNode i n).inBits = s.inBits := rfl
@[simp] theorem State.setNode_inPos (s : State) (i : Nat) (n : Node) : (s.setNode i n).inPos = s.inPos := rfl
@[simp] theorem State.setNode_outBits (s : State) (i : Nat) (n : Node) : (s.setNode i n).outBits = s.outBits := rfl
@[simp] theorem State.setNode_outClosed (s : State) (i : Nat) (n : Node) : (s.setNode i n).outClosed = s.outClosed := rfl
@[simp] theorem State.setNode_inputs (s : State) (i : Nat) (n : Node) : (s.setNode i n).inputs = s.inputs := rfl
@[simp] theorem State.setNode_rdata (s : State) (i : Nat) (n : Node) : (s.setNode i n).rdata = s.rdata := rfl
@[simp] theorem State.setNode_draws (s : State) (i : Nat) (n : Node) : (s.setNode i n).draws = s.draws := rfl

/-! ### State.dropTree -/

@[simp] theorem State.dropTree_arg (s : State) : s.dropTree.arg = s.arg := rfl
@[simp] theorem State.dropTree_res0 (s : State) : s.dropTree.res0 = s.res0 := rfl
@[simp] theorem State.dropTree_res1 (s : State) : s.dropTree.res1 = s.res1 := rfl
@[simp] theorem State.dropTree_res2 (s : State) : s.dropTree.res2 = s.res2 := rfl
@[simp] theorem State.dropTree_fcmd (s : State) : s.dropTree.fcmd = s.fcmd := rfl
@[simp] theorem State.dropTree_fdetail (s : State) : s.dropTree.fdetail = s.fdetail := rfl
@[simp] theorem State.dropTree_busy (s : State) : s.dropTree.busy = s.busy := rfl
@[simp] theorem State.dropTree_done (s : State) : s.dropTree.done = s.done := rfl
@[simp] theorem State.dropTree_fault (s : State) : s.dropTree.fault = s.fault := rfl
@[simp] theorem State.dropTree_lost (s : State) : s.dropTree.lost = s.lost := rfl
@[simp] theorem State.dropTree_treeValid (s : State) : s.dropTree.treeValid = false := rfl
@[simp] theorem State.dropTree_codesValid (s : State) : s.dropTree.codesValid = false := rfl
@[simp] theorem State.dropTree_fcode (s : State) : s.dropTree.fcode = s.fcode := rfl
@[simp] theorem State.dropTree_cur (s : State) : s.dropTree.cur = s.cur := rfl
@[simp] theorem State.dropTree_curArg (s : State) : s.dropTree.curArg = s.curArg := rfl
@[simp] theorem State.dropTree_freq (s : State) : s.dropTree.freq = s.freq := rfl
@[simp] theorem State.dropTree_node (s : State) : s.dropTree.node = s.node := rfl
@[simp] theorem State.dropTree_ncount (s : State) : s.dropTree.ncount = 0 := rfl
@[simp] theorem State.dropTree_root (s : State) : s.dropTree.root = 0 := rfl
@[simp] theorem State.dropTree_code (s : State) : s.dropTree.code = s.code := rfl
@[simp] theorem State.dropTree_inBits (s : State) : s.dropTree.inBits = s.inBits := rfl
@[simp] theorem State.dropTree_inPos (s : State) : s.dropTree.inPos = s.inPos := rfl
@[simp] theorem State.dropTree_outBits (s : State) : s.dropTree.outBits = s.outBits := rfl
@[simp] theorem State.dropTree_outClosed (s : State) : s.dropTree.outClosed = s.outClosed := rfl
@[simp] theorem State.dropTree_inputs (s : State) : s.dropTree.inputs = s.inputs := rfl
@[simp] theorem State.dropTree_rdata (s : State) : s.dropTree.rdata = s.rdata := rfl
@[simp] theorem State.dropTree_draws (s : State) : s.dropTree.draws = s.draws := rfl

/-! ### State.writeCode -/

@[simp] theorem State.writeCode_arg (s : State) (v : Nat) : (s.writeCode v).arg = s.arg := rfl
@[simp] theorem State.writeCode_res0 (s : State) (v : Nat) : (s.writeCode v).res0 = s.res0 := rfl
@[simp] theorem State.writeCode_res1 (s : State) (v : Nat) : (s.writeCode v).res1 = s.res1 := rfl
@[simp] theorem State.writeCode_res2 (s : State) (v : Nat) : (s.writeCode v).res2 = s.res2 := rfl
@[simp] theorem State.writeCode_fcmd (s : State) (v : Nat) : (s.writeCode v).fcmd = s.fcmd := rfl
@[simp] theorem State.writeCode_fdetail (s : State) (v : Nat) : (s.writeCode v).fdetail = s.fdetail := rfl
@[simp] theorem State.writeCode_busy (s : State) (v : Nat) : (s.writeCode v).busy = s.busy := rfl
@[simp] theorem State.writeCode_done (s : State) (v : Nat) : (s.writeCode v).done = s.done := rfl
@[simp] theorem State.writeCode_fault (s : State) (v : Nat) : (s.writeCode v).fault = s.fault := rfl
@[simp] theorem State.writeCode_lost (s : State) (v : Nat) : (s.writeCode v).lost = s.lost := rfl
@[simp] theorem State.writeCode_treeValid (s : State) (v : Nat) : (s.writeCode v).treeValid = s.treeValid := rfl
@[simp] theorem State.writeCode_codesValid (s : State) (v : Nat) : (s.writeCode v).codesValid = s.codesValid := rfl
@[simp] theorem State.writeCode_fcode (s : State) (v : Nat) : (s.writeCode v).fcode = s.fcode := rfl
@[simp] theorem State.writeCode_cur (s : State) (v : Nat) : (s.writeCode v).cur = s.cur := rfl
@[simp] theorem State.writeCode_curArg (s : State) (v : Nat) : (s.writeCode v).curArg = s.curArg := rfl
@[simp] theorem State.writeCode_freq (s : State) (v : Nat) : (s.writeCode v).freq = s.freq := rfl
@[simp] theorem State.writeCode_node (s : State) (v : Nat) : (s.writeCode v).node = s.node := rfl
@[simp] theorem State.writeCode_ncount (s : State) (v : Nat) : (s.writeCode v).ncount = s.ncount := rfl
@[simp] theorem State.writeCode_root (s : State) (v : Nat) : (s.writeCode v).root = s.root := rfl
@[simp] theorem State.writeCode_code (s : State) (v : Nat) : (s.writeCode v).code = s.code := rfl
@[simp] theorem State.writeCode_inBits (s : State) (v : Nat) : (s.writeCode v).inBits = s.inBits := rfl
@[simp] theorem State.writeCode_inPos (s : State) (v : Nat) : (s.writeCode v).inPos = s.inPos := rfl
@[simp] theorem State.writeCode_outBits (s : State) (v : Nat) : (s.writeCode v).outBits = s.outBits ++ bitsOf (s.codeAt v).len.toNat (s.codeAt v).bits.toNat := rfl
@[simp] theorem State.writeCode_outClosed (s : State) (v : Nat) : (s.writeCode v).outClosed = s.outClosed := rfl
@[simp] theorem State.writeCode_inputs (s : State) (v : Nat) : (s.writeCode v).inputs = s.inputs := rfl
@[simp] theorem State.writeCode_rdata (s : State) (v : Nat) : (s.writeCode v).rdata = s.rdata := rfl
@[simp] theorem State.writeCode_draws (s : State) (v : Nat) : (s.writeCode v).draws = s.draws := rfl

/-! ### State.freePorts -/

@[simp] theorem State.freePorts_arg (s : State) : s.freePorts.arg = s.arg := rfl
@[simp] theorem State.freePorts_res0 (s : State) : s.freePorts.res0 = s.res0 := rfl
@[simp] theorem State.freePorts_res1 (s : State) : s.freePorts.res1 = s.res1 := rfl
@[simp] theorem State.freePorts_res2 (s : State) : s.freePorts.res2 = s.res2 := rfl
@[simp] theorem State.freePorts_fcmd (s : State) : s.freePorts.fcmd = s.fcmd := rfl
@[simp] theorem State.freePorts_fdetail (s : State) : s.freePorts.fdetail = s.fdetail := rfl
@[simp] theorem State.freePorts_busy (s : State) : s.freePorts.busy = s.busy := rfl
@[simp] theorem State.freePorts_done (s : State) : s.freePorts.done = s.done := rfl
@[simp] theorem State.freePorts_fault (s : State) : s.freePorts.fault = s.fault := rfl
@[simp] theorem State.freePorts_lost (s : State) : s.freePorts.lost = s.lost := rfl
@[simp] theorem State.freePorts_treeValid (s : State) : s.freePorts.treeValid = s.treeValid := rfl
@[simp] theorem State.freePorts_codesValid (s : State) : s.freePorts.codesValid = s.codesValid := rfl
@[simp] theorem State.freePorts_fcode (s : State) : s.freePorts.fcode = s.fcode := rfl
@[simp] theorem State.freePorts_cur (s : State) : s.freePorts.cur = s.cur := rfl
@[simp] theorem State.freePorts_curArg (s : State) : s.freePorts.curArg = s.curArg := rfl
@[simp] theorem State.freePorts_freq (s : State) : s.freePorts.freq = s.freq := rfl
@[simp] theorem State.freePorts_node (s : State) : s.freePorts.node = s.node := rfl
@[simp] theorem State.freePorts_ncount (s : State) : s.freePorts.ncount = s.ncount := rfl
@[simp] theorem State.freePorts_root (s : State) : s.freePorts.root = s.root := rfl
@[simp] theorem State.freePorts_code (s : State) : s.freePorts.code = s.code := rfl
@[simp] theorem State.freePorts_inBits (s : State) : s.freePorts.inBits = s.inBits := rfl
@[simp] theorem State.freePorts_inPos (s : State) : s.freePorts.inPos = min (Config.freePos s.draws) s.inBits.length := rfl
@[simp] theorem State.freePorts_outBits (s : State) : s.freePorts.outBits = s.outBits ++ Config.freeBits s.draws := rfl
@[simp] theorem State.freePorts_outClosed (s : State) : s.freePorts.outClosed = Config.freeClosed s.draws := rfl
@[simp] theorem State.freePorts_inputs (s : State) : s.freePorts.inputs = s.inputs := rfl
@[simp] theorem State.freePorts_rdata (s : State) : s.freePorts.rdata = s.rdata := rfl
@[simp] theorem State.freePorts_draws (s : State) : s.freePorts.draws = s.draws + 1 := rfl

/-! ### State.snkClose -/

@[simp] theorem State.snkClose_arg (s : State) : s.snkClose.arg = s.arg := by unfold State.snkClose; split <;> rfl
@[simp] theorem State.snkClose_res0 (s : State) : s.snkClose.res0 = s.res0 := by unfold State.snkClose; split <;> rfl
@[simp] theorem State.snkClose_res1 (s : State) : s.snkClose.res1 = s.res1 := by unfold State.snkClose; split <;> rfl
@[simp] theorem State.snkClose_res2 (s : State) : s.snkClose.res2 = s.res2 := by unfold State.snkClose; split <;> rfl
@[simp] theorem State.snkClose_fcmd (s : State) : s.snkClose.fcmd = s.fcmd := by unfold State.snkClose; split <;> rfl
@[simp] theorem State.snkClose_fdetail (s : State) : s.snkClose.fdetail = s.fdetail := by unfold State.snkClose; split <;> rfl
@[simp] theorem State.snkClose_busy (s : State) : s.snkClose.busy = s.busy := by unfold State.snkClose; split <;> rfl
@[simp] theorem State.snkClose_done (s : State) : s.snkClose.done = s.done := by unfold State.snkClose; split <;> rfl
@[simp] theorem State.snkClose_fault (s : State) : s.snkClose.fault = s.fault := by unfold State.snkClose; split <;> rfl
@[simp] theorem State.snkClose_lost (s : State) : s.snkClose.lost = s.lost := by unfold State.snkClose; split <;> rfl
@[simp] theorem State.snkClose_treeValid (s : State) : s.snkClose.treeValid = s.treeValid := by unfold State.snkClose; split <;> rfl
@[simp] theorem State.snkClose_codesValid (s : State) : s.snkClose.codesValid = s.codesValid := by unfold State.snkClose; split <;> rfl
@[simp] theorem State.snkClose_fcode (s : State) : s.snkClose.fcode = s.fcode := by unfold State.snkClose; split <;> rfl
@[simp] theorem State.snkClose_cur (s : State) : s.snkClose.cur = s.cur := by unfold State.snkClose; split <;> rfl
@[simp] theorem State.snkClose_curArg (s : State) : s.snkClose.curArg = s.curArg := by unfold State.snkClose; split <;> rfl
@[simp] theorem State.snkClose_freq (s : State) : s.snkClose.freq = s.freq := by unfold State.snkClose; split <;> rfl
@[simp] theorem State.snkClose_node (s : State) : s.snkClose.node = s.node := by unfold State.snkClose; split <;> rfl
@[simp] theorem State.snkClose_ncount (s : State) : s.snkClose.ncount = s.ncount := by unfold State.snkClose; split <;> rfl
@[simp] theorem State.snkClose_root (s : State) : s.snkClose.root = s.root := by unfold State.snkClose; split <;> rfl
@[simp] theorem State.snkClose_code (s : State) : s.snkClose.code = s.code := by unfold State.snkClose; split <;> rfl
@[simp] theorem State.snkClose_inBits (s : State) : s.snkClose.inBits = s.inBits := by unfold State.snkClose; split <;> rfl
@[simp] theorem State.snkClose_inPos (s : State) : s.snkClose.inPos = s.inPos := by unfold State.snkClose; split <;> rfl
@[simp] theorem State.snkClose_outClosed (s : State) : s.snkClose.outClosed = true := by
  unfold State.snkClose; split <;> simp_all
@[simp] theorem State.snkClose_inputs (s : State) : s.snkClose.inputs = s.inputs := by unfold State.snkClose; split <;> rfl
@[simp] theorem State.snkClose_rdata (s : State) : s.snkClose.rdata = s.rdata := by unfold State.snkClose; split <;> rfl
@[simp] theorem State.snkClose_draws (s : State) : s.snkClose.draws = s.draws := by unfold State.snkClose; split <;> rfl

/-! ### State.resetEngine and State.engineReset -/

@[simp] theorem State.resetEngine_arg (s : State) : s.resetEngine.arg = 0 := rfl
@[simp] theorem State.engineReset_arg (s : State) : s.engineReset.arg = 0 := rfl
@[simp] theorem State.resetEngine_res0 (s : State) : s.resetEngine.res0 = 0 := rfl
@[simp] theorem State.engineReset_res0 (s : State) : s.engineReset.res0 = 0 := rfl
@[simp] theorem State.resetEngine_res1 (s : State) : s.resetEngine.res1 = 0 := rfl
@[simp] theorem State.engineReset_res1 (s : State) : s.engineReset.res1 = 0 := rfl
@[simp] theorem State.resetEngine_res2 (s : State) : s.resetEngine.res2 = 0 := rfl
@[simp] theorem State.engineReset_res2 (s : State) : s.engineReset.res2 = 0 := rfl
@[simp] theorem State.resetEngine_fcmd (s : State) : s.resetEngine.fcmd = 0 := rfl
@[simp] theorem State.engineReset_fcmd (s : State) : s.engineReset.fcmd = 0 := rfl
@[simp] theorem State.resetEngine_fdetail (s : State) : s.resetEngine.fdetail = 0 := rfl
@[simp] theorem State.engineReset_fdetail (s : State) : s.engineReset.fdetail = 0 := rfl
@[simp] theorem State.resetEngine_busy (s : State) : s.resetEngine.busy = false := rfl
@[simp] theorem State.engineReset_busy (s : State) : s.engineReset.busy = false := rfl
@[simp] theorem State.resetEngine_done (s : State) : s.resetEngine.done = false := rfl
@[simp] theorem State.engineReset_done (s : State) : s.engineReset.done = false := rfl
@[simp] theorem State.resetEngine_fault (s : State) : s.resetEngine.fault = false := rfl
@[simp] theorem State.engineReset_fault (s : State) : s.engineReset.fault = false := rfl
@[simp] theorem State.resetEngine_lost (s : State) : s.resetEngine.lost = false := rfl
@[simp] theorem State.engineReset_lost (s : State) : s.engineReset.lost = false := rfl
@[simp] theorem State.resetEngine_treeValid (s : State) : s.resetEngine.treeValid = false := rfl
@[simp] theorem State.engineReset_treeValid (s : State) : s.engineReset.treeValid = false := rfl
@[simp] theorem State.resetEngine_codesValid (s : State) : s.resetEngine.codesValid = false := rfl
@[simp] theorem State.engineReset_codesValid (s : State) : s.engineReset.codesValid = false := rfl
@[simp] theorem State.resetEngine_fcode (s : State) : s.resetEngine.fcode = 0 := rfl
@[simp] theorem State.engineReset_fcode (s : State) : s.engineReset.fcode = 0 := rfl
@[simp] theorem State.resetEngine_freq (s : State) : s.resetEngine.freq = State.reset.freq := rfl
@[simp] theorem State.engineReset_freq (s : State) : s.engineReset.freq = State.reset.freq := rfl
@[simp] theorem State.resetEngine_ncount (s : State) : s.resetEngine.ncount = 0 := rfl
@[simp] theorem State.engineReset_ncount (s : State) : s.engineReset.ncount = 0 := rfl
@[simp] theorem State.resetEngine_root (s : State) : s.resetEngine.root = 0 := rfl
@[simp] theorem State.engineReset_root (s : State) : s.engineReset.root = 0 := rfl
@[simp] theorem State.resetEngine_code (s : State) : s.resetEngine.code = Vector.replicate 257 CodeEntry.absent := rfl
@[simp] theorem State.engineReset_code (s : State) : s.engineReset.code = Vector.replicate 257 CodeEntry.absent := rfl
@[simp] theorem State.resetEngine_inBits (s : State) : s.resetEngine.inBits = s.inBits := rfl
@[simp] theorem State.engineReset_inBits (s : State) : s.engineReset.inBits = s.inBits := rfl
@[simp] theorem State.resetEngine_inPos (s : State) : s.resetEngine.inPos = s.inPos := rfl
@[simp] theorem State.engineReset_inPos (s : State) : s.engineReset.inPos = s.inPos := rfl
@[simp] theorem State.resetEngine_outBits (s : State) : s.resetEngine.outBits = s.outBits := rfl
@[simp] theorem State.engineReset_outBits (s : State) : s.engineReset.outBits = s.outBits := rfl
@[simp] theorem State.resetEngine_outClosed (s : State) : s.resetEngine.outClosed = s.outClosed := rfl
@[simp] theorem State.engineReset_outClosed (s : State) : s.engineReset.outClosed = s.outClosed := rfl
@[simp] theorem State.resetEngine_inputs (s : State) : s.resetEngine.inputs = s.inputs := rfl
@[simp] theorem State.engineReset_inputs (s : State) : s.engineReset.inputs = s.inputs := rfl
@[simp] theorem State.resetEngine_rdata (s : State) : s.resetEngine.rdata = s.rdata := rfl
@[simp] theorem State.engineReset_rdata (s : State) : s.engineReset.rdata = s.rdata := rfl

/-! ### State.known -/

@[simp] theorem State.known_arg (s : State) : s.known.arg = s.arg := rfl
@[simp] theorem State.known_res0 (s : State) : s.known.res0 = s.res0 := rfl
@[simp] theorem State.known_res1 (s : State) : s.known.res1 = s.res1 := rfl
@[simp] theorem State.known_res2 (s : State) : s.known.res2 = s.res2 := rfl
@[simp] theorem State.known_fcmd (s : State) : s.known.fcmd = s.fcmd := rfl
@[simp] theorem State.known_fdetail (s : State) : s.known.fdetail = s.fdetail := rfl
@[simp] theorem State.known_busy (s : State) : s.known.busy = s.busy := rfl
@[simp] theorem State.known_done (s : State) : s.known.done = s.done := rfl
@[simp] theorem State.known_fault (s : State) : s.known.fault = s.fault := rfl
@[simp] theorem State.known_lost (s : State) : s.known.lost = s.lost := rfl
@[simp] theorem State.known_treeValid (s : State) : s.known.treeValid = s.treeValid := rfl
@[simp] theorem State.known_codesValid (s : State) : s.known.codesValid = s.codesValid := rfl
@[simp] theorem State.known_fcode (s : State) : s.known.fcode = s.fcode := rfl
@[simp] theorem State.known_freq (s : State) : s.known.freq = s.freq := rfl
@[simp] theorem State.known_ncount (s : State) : s.known.ncount = s.ncount := rfl
@[simp] theorem State.known_root (s : State) : s.known.root = s.root := rfl
@[simp] theorem State.known_code (s : State) : s.known.code = s.code := rfl
@[simp] theorem State.known_inBits (s : State) : s.known.inBits = s.inBits := rfl
@[simp] theorem State.known_inPos (s : State) : s.known.inPos = s.inPos := rfl
@[simp] theorem State.known_outBits (s : State) : s.known.outBits = s.outBits := rfl
@[simp] theorem State.known_outClosed (s : State) : s.known.outClosed = s.outClosed := rfl
@[simp] theorem State.known_inputs (s : State) : s.known.inputs = s.inputs := rfl
@[simp] theorem State.known_rdata (s : State) : s.known.rdata = s.rdata := rfl

end Sys2Proof.Machine
end

