-- ==== Sys2Proof/Laws/Bits.lean ====
section
/-! SUPPORT. Bit strings, tables and the ports: what each shared operation does, said once. -/

namespace Sys2Proof.Machine

/-! ### numeral and bitsOf (00_scope.md R8) -/

@[simp] theorem length_bitsOf (w v : Nat) : (bitsOf w v).length = w := by
  induction w with
  | zero => rfl
  | succ w ih => simp [bitsOf, ih]

theorem foldl_numeral (p : List Bool) (n : Nat) :
    p.foldl (fun n b => 2 * n + b.toNat) n = n * 2 ^ p.length + numeral p := by
  induction p generalizing n with
  | nil => simp [numeral]
  | cons b p ih =>
    simp only [List.foldl_cons, List.length_cons, numeral]
    rw [ih, ih (2 * 0 + b.toNat)]
    ring

@[simp] theorem numeral_nil : numeral [] = 0 := rfl

theorem numeral_cons (b : Bool) (p : List Bool) : numeral (b :: p) = b.toNat * 2 ^ p.length + numeral p := by
  have := foldl_numeral p (2 * 0 + b.toNat)
  simpa [numeral] using this

theorem numeral_append (p q : List Bool) : numeral (p ++ q) = numeral p * 2 ^ q.length + numeral q := by
  simp only [numeral, List.foldl_append]
  exact foldl_numeral q _

theorem numeral_lt (p : List Bool) : numeral p < 2 ^ p.length := by
  induction p with
  | nil => simp
  | cons b p ih =>
    rw [numeral_cons, List.length_cons, pow_succ]
    cases b <;> simp <;> omega

theorem bitsOf_eq_of_low (w : Nat) : ∀ u v : Nat, u % 2 ^ w = v % 2 ^ w → bitsOf w u = bitsOf w v := by
  induction w with
  | zero => intros; rfl
  | succ w ih =>
    intro u v h
    have hw : u % 2 ^ w = v % 2 ^ w := by
      rw [← Nat.mod_mod_of_dvd u (pow_dvd_pow 2 (Nat.le_succ w)), h,
        Nat.mod_mod_of_dvd v (pow_dvd_pow 2 (Nat.le_succ w))]
    have hb : u.testBit w = v.testBit w := by
      have h1 := Nat.testBit_mod_two_pow u (w + 1) w
      have h2 := Nat.testBit_mod_two_pow v (w + 1) w
      rw [h] at h1
      simpa using h1.symm.trans h2
    simp [bitsOf, ih u v hw, hb]

/-- numeral undoes bits_w (00_scope.md R8). -/
theorem numeral_bitsOf (w v : Nat) : numeral (bitsOf w v) = v % 2 ^ w := by
  induction w with
  | zero => simp [bitsOf, Nat.mod_one]
  | succ w ih =>
    rw [bitsOf, numeral_cons, ih, length_bitsOf, Nat.toNat_testBit]
    rw [pow_succ, Nat.mod_mul]
    ring

/-- bits_w undoes numeral (00_scope.md R8). -/
theorem bitsOf_numeral (p : List Bool) : bitsOf p.length (numeral p) = p := by
  induction p with
  | nil => rfl
  | cons b p ih =>
    have hlt := numeral_lt p
    rw [List.length_cons, bitsOf]
    congr 1
    · rw [numeral_cons, Nat.testBit_eq_decide_div_mod_eq]
      have : (b.toNat * 2 ^ p.length + numeral p) / 2 ^ p.length = b.toNat := by
        rw [Nat.add_comm, Nat.add_mul_div_right _ _ (by positivity), Nat.div_eq_of_lt hlt, Nat.zero_add]
      rw [this]
      cases b <;> rfl
    · rw [bitsOf_eq_of_low p.length (numeral (b :: p)) (numeral p), ih]
      rw [numeral_cons, Nat.mul_add_mod_self_right]

/-! ### Tables -/

@[simp] theorem getElem_tabulate {α : Type} (n : Nat) (f : Nat → α) (i : Nat) (h : i < n) :
    (tabulate n f)[i] = f i := by
  unfold tabulate
  simp

theorem getElem?_tabulate {α : Type} (n : Nat) (f : Nat → α) (i : Nat) :
    (tabulate n f)[i]? = if i < n then some (f i) else none := by
  split
  · rename_i h
    rw [Vector.getElem?_eq_getElem h, getElem_tabulate n f i h]
  · rename_i h
    exact Vector.getElem?_eq_none (by omega)

theorem freqAt_setFreq (s : State) (v w : Nat) (x : Word) (hv : v ≤ 256) :
    (s.setFreq v x).freqAt w = if w = v then x else s.freqAt w := by
  unfold State.freqAt
  rw [State.setFreq_freq, Vector.getElem?_setIfInBounds]
  split
  · rename_i h
    subst h
    simp [show v < 257 by omega]
  · rename_i h
    rw [if_neg (fun e => h e.symm)]

theorem freqAt_clearCounts (s : State) (v : Nat) :
    s.clearCounts.freqAt v = if v < 256 then 0 else s.freqAt v := by
  unfold State.freqAt
  rw [State.clearCounts_freq, getElem?_tabulate]
  by_cases h : v < 257
  · simp [h, State.freqAt]
  · simp [h]

theorem codeAt_setCode (s : State) (v w : Nat) (e : CodeEntry) (hv : v ≤ 256) :
    (s.setCode v e).codeAt w = if w = v then e else s.codeAt w := by
  unfold State.codeAt
  rw [State.setCode_code, Vector.getElem?_setIfInBounds]
  split
  · rename_i h
    subst h
    simp [show v < 257 by omega]
  · rename_i h
    rw [if_neg (fun e => h e.symm)]

@[simp] theorem codeAt_clearCodes (s : State) (v : Nat) : s.clearCodes.codeAt v = CodeEntry.absent := by
  unfold State.codeAt
  rw [State.clearCodes_code]
  by_cases h : v < 257
  · simp [h]
  · have : (Vector.replicate 257 CodeEntry.absent)[v]? = none := Vector.getElem?_eq_none (by omega)
    rw [this]
    rfl

/-! ### The ports -/

/-- Everything SrcRead can do (20_memory.md R60): fewer than w bits remain and nothing happens, or it answers the
next w bits and moves past them. -/
theorem srcRead_eq (s : State) (w : Nat) :
    s.srcRead w =
      if s.bitsLeft < w then none
      else some (numeral ((s.inBits.drop s.inPos).take w), { s with inPos := s.inPos + w }) := rfl

theorem srcRead_none {s : State} {w : Nat} : s.srcRead w = none ↔ s.bitsLeft < w := by
  rw [srcRead_eq]; split <;> simp_all

theorem srcRead_some {s s1 : State} {w v : Nat} (h : s.srcRead w = some (v, s1)) :
    w ≤ s.bitsLeft ∧ v = numeral ((s.inBits.drop s.inPos).take w) ∧ s1 = { s with inPos := s.inPos + w } := by
  rw [srcRead_eq] at h
  split at h
  · cases h
  · cases h
    exact ⟨by omega, rfl, rfl⟩

/-- A field read is below 2^w (20_memory.md R60). -/
theorem srcRead_lt {s s1 : State} {w v : Nat} (h : s.srcRead w = some (v, s1)) : v < 2 ^ w := by
  obtain ⟨hw, rfl, -⟩ := srcRead_some h
  have := numeral_lt ((s.inBits.drop s.inPos).take w)
  rw [List.length_take, List.length_drop] at this
  rwa [show min w (s.inBits.length - s.inPos) = w from Nat.min_eq_left hw] at this

/-- Reading a field off the front of what is left of the source. -/
theorem srcRead_append {s : State} {p rest : List Bool} (h : s.inBits.drop s.inPos = p ++ rest) :
    s.srcRead p.length = some (numeral p, { s with inPos := s.inPos + p.length }) := by
  have hl : s.bitsLeft = p.length + rest.length := by
    rw [State.bitsLeft, ← List.length_drop, h, List.length_append]
  rw [srcRead_eq, if_neg (by omega), h, List.take_left]

/-- What is left of the source after such a read. -/
theorem drop_after {s : State} {p rest : List Bool} (h : s.inBits.drop s.inPos = p ++ rest) :
    s.inBits.drop (s.inPos + p.length) = rest := by
  rw [← List.drop_drop, h, List.drop_left]

/-- Writing the code of an entry writes its string (45_stream_encode.md R220). -/
theorem writeCode_eq (s : State) (v : Nat) :
    s.writeCode v = { s with outBits := s.outBits ++ (s.codeAt v).str } := rfl

/-- The string of the entry made for a path is the path (43_code_table.md R180, R182). -/
theorem str_codeOfPath (p : List Bool) (h : p.length ≤ 256) : (codeOfPath p).str = p := by
  have h1 : p.length % 512 = p.length := Nat.mod_eq_of_lt (by omega)
  have h2 : numeral p < 2 ^ 256 := lt_of_lt_of_le (numeral_lt p) (Nat.pow_le_pow_right (by decide) h)
  simp only [codeOfPath, CodeEntry.str, BitVec.toNat_ofNat]
  rw [show (2 : Nat) ^ 9 = 512 from rfl, h1, Nat.mod_eq_of_lt h2, bitsOf_numeral]

/-- SnkClose leaves a whole number of bytes if it closes the sink (20_memory.md R63). -/
theorem snkClose_aligned (s : State) (h : s.outClosed = false) : 8 ∣ s.snkClose.outBits.length := by
  simp [State.snkClose, h, padding]
  omega

end Sys2Proof.Machine
end

