-- ==== Sys2Proof/Laws/Endings.lean ====
section
/-! SUPPORT. How a command ends, and what a state's `known` part keeps: the lemmas the claims about commands are
assembled from. -/

namespace Sys2Proof.Machine

/-- Two states are equal when all their fields are. -/
theorem State.known_congr {s t : State} (hb : s.busy = t.busy) (hc : s.busy = true → s.cur = t.cur ∧ s.curArg = t.curArg)
    (hn : s.ncount = t.ncount)
    (hnode : ∀ i, i < s.ncount.toNat → s.node[i]? = t.node[i]?)
    (hrest : { s with busy := t.busy, cur := t.cur, curArg := t.curArg, ncount := t.ncount, node := t.node, draws := t.draws } = t) :
    s.known = t.known := by
  rw [← congrArg State.known hrest]
  simp only [State.known, hb, hn]
  congr 1
  · rw [← hb]; split
    · exact (hc ‹_›).1
    · rfl
  · rw [← hb]; split
    · exact (hc ‹_›).2
    · rfl
  · ext1 i hi
    rw [getElem_tabulate, getElem_tabulate, ← hn]
    split
    · rw [hnode i ‹_›]
    · rfl

/-- Making CUR and CUR_ARG free changes nothing the spec defines of an idle state. -/
@[simp] theorem known_complete (s : State) : s.complete.known = State.known { s with busy := false, done := true } :=
  State.known_congr rfl (by simp) rfl (by simp) rfl

/-- Making the entries at NCOUNT and above free changes nothing the spec defines. -/
@[simp] theorem known_undefineNodes (s : State) : s.undefineNodes.known = s.known := by
  apply State.known_congr
  · simp
  · simp
  · simp
  · intro i hi
    rw [State.undefineNodes_ncount] at hi
    rw [State.undefineNodes_node, getElem?_tabulate]
    split
    · rename_i h
      rw [Vector.getElem?_eq_getElem h]
      rfl
    · rename_i h
      rw [Vector.getElem?_eq_none (by omega)]
  · simp only [State.undefineNodes]

/-- A command that finishes in u completes with u's effects. -/
theorem completes_of_finish {i : Instr} {s u : State} (h : exec i s = finish u) : Completes i s u :=
  ⟨u.complete, h, known_complete u⟩

/-- A command that raises a fault in u, CUR still the accepted word, takes that fault with u's effects. -/
theorem takesFault_of_raise {i : Instr} {s u : State} {c : FaultCode} {d : Word} (h : exec i s = raise c d u)
    (hc : u.cur = s.cur) : TakesFault i s u (faultNumber c) d := by
  refine ⟨_, h, ?_⟩
  rw [known_complete]
  simp only [State.recordFault, hc]

/-- `Completes` only looks at what the spec defines of the target state. -/
theorem Completes.congr {i : Instr} {s u v : State} (h : Completes i s u)
    (e : State.known { u with busy := false, done := true } = State.known { v with busy := false, done := true }) :
    Completes i s v := by
  obtain ⟨t, h1, h2⟩ := h
  exact ⟨t, h1, h2.trans e⟩

/-- Whichever way a command ends, it leaves BUSY = 0 and DONE = 1 (40_control.md R121). -/
theorem finish_status {s t : State} (h : finish s = .next t) : t.busy = false ∧ t.done = true := by
  cases h; exact ⟨rfl, rfl⟩

theorem raise_status {c : FaultCode} {d : Word} {s t : State} (h : raise c d s = .next t) :
    t.busy = false ∧ t.done = true := by
  cases h; exact ⟨rfl, rfl⟩

end Sys2Proof.Machine
end

