-- ==== Sys2Proof/Laws/PerInstr.lean ====
section
/-! SUPPORT. Statements about every instruction as syntax, one lemma a constructor. -/

namespace Sys2Proof.Laws.EncodedOpcode

/-- The opcode byte of each command (30_encoding.md R96). -/
def opcodeNumber : Instr → Nat
  | .nop => 0x00
  | .clrf => 0x01
  | .sreset => 0x02
  | .freqClr => 0x10
  | .freqCount => 0x11
  | .freqWr _ => 0x12
  | .freqRd _ => 0x13
  | .build => 0x20
  | .nodeRd _ => 0x21
  | .genCodes => 0x30
  | .codeRd _ _ => 0x31
  | .wrHdr => 0x40
  | .rdHdr => 0x41
  | .encode => 0x50
  | .encSym _ => 0x51
  | .decode => 0x60
  | .decSym => 0x61
  | .wrTag => 0x70
  | .chkTag => 0x71
  | .srcRewind => 0x72
  | .snkClose => 0x73

/-- The word of an instruction carries its opcode in bits [7:0], whatever the operands. -/
def Statement (i : Instr) : Prop := opcodeOf (encode i) = opcodeNumber i

/-- A field shifted up by 8 or more leaves the opcode byte alone. -/
theorem low_byte (x op : Word) (k : Nat) (hk : 8 ≤ k) (hop : op.toNat < 256) :
    ((x <<< k ||| op).extractLsb' 0 8).toNat = op.toNat := by
  have : (x <<< k ||| op).extractLsb' 0 8 = op.extractLsb' 0 8 := by
    ext i hi
    have : i < k := by omega
    simp [this]
  rw [this]
  simp
  omega

theorem nop : Statement .nop := rfl
theorem clrf : Statement .clrf := rfl
theorem sreset : Statement .sreset := rfl
theorem freqClr : Statement .freqClr := rfl
theorem freqCount : Statement .freqCount := rfl
theorem freqWr (sym : Nat) : Statement (.freqWr sym) := low_byte _ _ 8 (by decide) (by decide)
theorem freqRd (sym : Nat) : Statement (.freqRd sym) := low_byte _ _ 8 (by decide) (by decide)
theorem build : Statement .build := rfl
theorem nodeRd (idx : Nat) : Statement (.nodeRd idx) := low_byte _ _ 8 (by decide) (by decide)
theorem genCodes : Statement .genCodes := rfl
theorem codeRd (sym wsel : Nat) : Statement (.codeRd sym wsel) := by
  have h := low_byte (BitVec.ofNat 32 wsel <<< 9 ||| BitVec.ofNat 32 sym) 0x31#32 8 (by decide) (by decide)
  have e : wordSW 0x31#32 sym wsel = (BitVec.ofNat 32 wsel <<< 9 ||| BitVec.ofNat 32 sym) <<< 8 ||| 0x31#32 := by
    simp [wordSW, BitVec.shiftLeft_or_distrib, ← BitVec.shiftLeft_add]
  simpa [Statement, opcodeOf, encode, e, opcodeNumber] using h
theorem wrHdr : Statement .wrHdr := rfl
theorem rdHdr : Statement .rdHdr := rfl
theorem encode : Statement .encode := rfl
theorem encSym (sym : Nat) : Statement (.encSym sym) := low_byte _ _ 8 (by decide) (by decide)
theorem decode : Statement .decode := rfl
theorem decSym : Statement .decSym := rfl
theorem wrTag : Statement .wrTag := rfl
theorem chkTag : Statement .chkTag := rfl
theorem srcRewind : Statement .srcRewind := rfl
theorem snkClose : Statement .snkClose := rfl

end Sys2Proof.Laws.EncodedOpcode
end

