-- ==== Sys2Proof/Laws/Walks.lean ====
section
/-! SUPPORT. What the tree walks, the queue and the stream loops can do, said once for each. -/

namespace Sys2Proof.Machine

/-! ### Holds -/

/-- The store holds at most one tree at an entry. -/
theorem Holds.unique {node : Vector Node 513} : ∀ {t u : Shape} {i : BitVec 10}, Holds node t i → Holds node u i → t = u
  | .leaf _, .leaf _, _, ⟨n, hn, _, hs⟩, ⟨m, hm, _, hs'⟩ => by
    rw [hn] at hm
    cases hm
    rw [← hs, ← hs']
  | .leaf _, .node _ _, _, ⟨n, hn, hl, _⟩, ⟨m, hm, hl', _⟩ => by
    rw [hn] at hm
    cases hm
    rw [hl] at hl'
    cases hl'
  | .node _ _, .leaf _, _, ⟨n, hn, hl, _⟩, ⟨m, hm, hl', _⟩ => by
    rw [hn] at hm
    cases hm
    rw [hl] at hl'
    cases hl'
  | .node _ _, .node _ _, _, ⟨n, hn, _, hl, hr⟩, ⟨m, hm, _, hl', hr'⟩ => by
    rw [hn] at hm
    cases hm
    rw [Holds.unique hl hl', Holds.unique hr hr']

/-! ### GENCODES' walk (43_code_table.md R180) -/

/-- The codes of a list of leaves, each written in turn, the path `p` before each leaf's own. -/
def State.setCodes (s : State) (p : List Bool) (leaves : List (Nat × List Bool)) : State :=
  leaves.foldl (fun u e => u.setCode e.1 (codeOfPath (p ++ e.2))) s

theorem setCodes_node (s : State) (p : List Bool) (leaves : List (Nat × List Bool)) :
    (s.setCodes p leaves).node = s.node := by
  induction leaves generalizing s with
  | nil => rfl
  | cons e l ih => exact ih (s.setCode e.1 _)

/-- Writing codes changes nothing but the code table. -/
theorem setCodes_frame (s : State) (p : List Bool) (leaves : List (Nat × List Bool)) :
    s.setCodes p leaves = { s with code := (s.setCodes p leaves).code } := by
  induction leaves generalizing s with
  | nil => rfl
  | cons e l ih => exact ih (s.setCode e.1 _)

theorem setCodes_append (s : State) (p : List Bool) (l m : List (Nat × List Bool)) :
    s.setCodes p (l ++ m) = (s.setCodes p l).setCodes p m := List.foldl_append ..

theorem setCodes_map (s : State) (p : List Bool) (b : Bool) (l : List (Nat × List Bool)) :
    s.setCodes p (l.map fun e => (e.1, b :: e.2)) = s.setCodes (p ++ [b]) l := by
  simp only [State.setCodes, List.foldl_map, List.append_assoc, List.singleton_append]

/-- Everything the walk can do: it writes the codes of the leaves of a tree the store holds. -/
theorem walk_some {d : Nat} {i : BitVec 10} {p : List Bool} {s u : State} (h : walk d i p s = some u) :
    ∃ t : Shape, Holds s.node t i ∧ t.inAlphabet ∧ t.depth < d ∧ u = s.setCodes p t.leaves := by
  induction d generalizing i p s u with
  | zero => cases h
  | succ d ih =>
    simp only [walk] at h
    split at h
    · cases h
    · rename_i n hn
      split at h
      · rename_i hl
        split at h
        · rename_i hy
          cases h
          refine ⟨.leaf n.sym.toNat, ⟨n, hn, hl, rfl⟩, ?_, Nat.succ_pos d, ?_⟩
          · simpa [Shape.inAlphabet, Shape.leaves, symInAlphabet] using hy
          · simp [State.setCodes, Shape.leaves]
        · cases h
      · rename_i hl
        split at h
        · cases h
        · rename_i s1 h1
          obtain ⟨l, hl1, hl2, hl3, rfl⟩ := ih h1
          obtain ⟨r, hr1, hr2, hr3, rfl⟩ := ih h
          rw [setCodes_node] at hr1
          refine ⟨.node l r, ⟨n, hn, by simpa using hl, hl1, hr1⟩, ?_, ?_, ?_⟩
          · intro e he
            simp only [Shape.leaves, List.mem_append, List.mem_map] at he
            obtain ⟨a, ha, rfl⟩ | ⟨a, ha, rfl⟩ := he
            · exact hl2 a ha
            · exact hr2 a ha
          · simp only [Shape.depth]; omega
          · rw [Shape.leaves, setCodes_append, setCodes_map, setCodes_map]

/-- The walk succeeds on every tree the store holds that is not too deep. -/
theorem walk_of_holds {t : Shape} {d : Nat} {i : BitVec 10} {p : List Bool} {s : State} (h : Holds s.node t i)
    (ha : t.inAlphabet) (hd : t.depth < d) : walk d i p s = some (s.setCodes p t.leaves) := by
  induction t generalizing d i p s with
  | leaf y =>
    obtain ⟨n, hn, hl, rfl⟩ := h
    obtain ⟨d, rfl⟩ := Nat.exists_eq_succ_of_ne_zero (Nat.pos_iff_ne_zero.mp (Nat.zero_lt_of_lt hd))
    have : n.sym.toNat ≤ 256 := ha (n.sym.toNat, []) (by simp [Shape.leaves])
    simp [walk, State.nodeAt, hn, hl, symInAlphabet, this, State.setCodes, Shape.leaves]
  | node l r ihl ihr =>
    obtain ⟨n, hn, hl, h1, h2⟩ := h
    obtain ⟨d, rfl⟩ := Nat.exists_eq_succ_of_ne_zero (Nat.pos_iff_ne_zero.mp (Nat.zero_lt_of_lt hd))
    have hal : l.inAlphabet := fun e he => ha (e.1, false :: e.2) (by
      simp only [Shape.leaves, List.mem_append, List.mem_map]; exact .inl ⟨e, he, rfl⟩)
    have har : r.inAlphabet := fun e he => ha (e.1, true :: e.2) (by
      simp only [Shape.leaves, List.mem_append, List.mem_map]; exact .inr ⟨e, he, rfl⟩)
    simp only [Shape.depth] at hd
    have e1 := ihl (d := d) (p := p ++ [false]) h1 hal (by omega)
    have e2 := ihr (d := d) (p := p ++ [true]) (s := s.setCodes (p ++ [false]) l.leaves)
      (by rw [setCodes_node]; exact h2) har (by omega)
    simp only [walk, State.nodeAt, hn, hl, Bool.false_eq_true, if_false, e1, e2]
    rw [Shape.leaves, setCodes_append, setCodes_map, setCodes_map]

/-! ### WRHDR's walk (44_tree_codec.md R200) -/

/-- Everything Put can do: it appends the header of a tree the store holds. -/
theorem put_some {d : Nat} {i : BitVec 10} {s u : State} (h : put d i s = some u) :
    ∃ t : Shape, Holds s.node t i ∧ t.depth < d ∧ u = { s with outBits := s.outBits ++ t.header } := by
  induction d generalizing i s u with
  | zero => cases h
  | succ d ih =>
    simp only [put] at h
    split at h
    · cases h
    · rename_i n hn
      split at h
      · rename_i hl
        cases h
        exact ⟨.leaf n.sym.toNat, ⟨n, hn, hl, rfl⟩, Nat.succ_pos d, by
          simp [State.snkWrite, Shape.header, bitsOf, List.append_assoc]⟩
      · rename_i hl
        split at h
        · cases h
        · rename_i s1 h1
          obtain ⟨l, hl1, hl3, rfl⟩ := ih h1
          obtain ⟨r, hr1, hr3, rfl⟩ := ih h
          refine ⟨.node l r, ⟨n, hn, by simpa using hl, hl1, hr1⟩, ?_, ?_⟩
          · simp only [Shape.depth]; omega
          · simp [State.snkWrite, Shape.header, bitsOf, List.append_assoc]

/-- Put succeeds on every tree the store holds that is not too deep. -/
theorem put_of_holds {t : Shape} {d : Nat} {i : BitVec 10} {s : State} (h : Holds s.node t i) (hd : t.depth < d) :
    put d i s = some { s with outBits := s.outBits ++ t.header } := by
  induction t generalizing d i s with
  | leaf y =>
    obtain ⟨n, hn, hl, rfl⟩ := h
    obtain ⟨d, rfl⟩ := Nat.exists_eq_succ_of_ne_zero (Nat.pos_iff_ne_zero.mp (Nat.zero_lt_of_lt hd))
    simp [put, State.nodeAt, hn, hl, State.snkWrite, Shape.header, bitsOf, List.append_assoc]
  | node l r ihl ihr =>
    obtain ⟨n, hn, hl, h1, h2⟩ := h
    obtain ⟨d, rfl⟩ := Nat.exists_eq_succ_of_ne_zero (Nat.pos_iff_ne_zero.mp (Nat.zero_lt_of_lt hd))
    simp only [Shape.depth] at hd
    have e1 := ihl (d := d) (s := s.snkWrite 1 0) h1 (by omega)
    have e2 := ihr (d := d) (s := { s.snkWrite 1 0 with outBits := (s.snkWrite 1 0).outBits ++ l.header }) h2 (by omega)
    simp only [put, State.nodeAt, hn, hl, Bool.false_eq_true, if_false, e1, e2]
    simp [State.snkWrite, Shape.header, bitsOf, List.append_assoc]

/-! ### RDHDR's Get (44_tree_codec.md R203) -/

/-- What Get may change: the tree store and the source position, which only moves on. -/
def ReadFrame (s u : State) : Prop := u = { s with node := u.node, inPos := u.inPos } ∧ s.inPos ≤ u.inPos

theorem ReadFrame.refl (s : State) : ReadFrame s s := ⟨rfl, le_rfl⟩

theorem ReadFrame.trans {s u v : State} (h : ReadFrame s u) (h' : ReadFrame u v) : ReadFrame s v := by
  refine ⟨?_, h.2.trans h'.2⟩
  rw [h'.1, h.1]

theorem ReadFrame.of_srcRead {s u : State} {w v : Nat} (h : s.srcRead w = some (v, u)) : ReadFrame s u := by
  obtain ⟨_, _, rfl⟩ := srcRead_some h
  exact ⟨rfl, Nat.le_add_right _ _⟩

theorem ReadFrame.setNode (s : State) (i : Nat) (n : Node) : ReadFrame s (s.setNode i n) := ⟨rfl, le_rfl⟩

/-- What Get can end with: a node, numbered n, and the next free number; or one of RDHDR's three faults. -/
def HeaderEnd (n : Nat) (s : State) : HeaderRead → Prop
  | .got i n' u => i = n ∧ n < n' ∧ n' ≤ Config.NODE_CAP ∧ ReadFrame s u
  | .bad code detail u => ReadFrame s u ∧
      ((code = .truncHdr ∧ detail = u.posDetail ∧ u.bitsLeft < 9) ∨
       (code = .hdrOverflow ∧ detail = fieldDetail Config.NODE_CAP) ∨
       (code = .badSymbol ∧ ∃ v, detail = fieldDetail v ∧ 256 < v ∧ v < 512))

theorem getHeader_ends (d : Nat) : ∀ (n : Nat) (s : State), n ≤ Config.NODE_CAP → HeaderEnd n s (getHeader d n s) := by
  induction d with
  | zero => intro n s _; exact ⟨ReadFrame.refl s, .inr (.inl ⟨rfl, rfl⟩)⟩
  | succ d ih =>
    intro n s hn
    simp only [getHeader]
    split
    · rename_i h
      have := srcRead_none.mp h
      exact ⟨ReadFrame.refl s, .inl ⟨rfl, rfl, by omega⟩⟩
    · rename_i b s1 h
      have f1 := ReadFrame.of_srcRead h
      split
      · exact ⟨f1, .inr (.inl ⟨rfl, rfl⟩)⟩
      · rename_i hcap
        split
        · have e1 := ih (n + 1) s1 (by omega)
          split
          · rename_i c x s2 h2
            rw [h2] at e1
            exact ⟨f1.trans e1.1, e1.2⟩
          · rename_i l n2 s2 h2
            rw [h2] at e1
            obtain ⟨rfl, hlt, hle, f2⟩ := e1
            have e2 := ih n2 s2 hle
            split
            · rename_i c x s3 h3
              rw [h3] at e2
              exact ⟨(f1.trans f2).trans e2.1, e2.2⟩
            · rename_i r n3 s3 h3
              rw [h3] at e2
              obtain ⟨rfl, hlt', hle', f3⟩ := e2
              exact ⟨rfl, by omega, hle', ((f1.trans f2).trans f3).trans (ReadFrame.setNode _ _ _)⟩
        · split
          · rename_i h2
            have := srcRead_none.mp h2
            exact ⟨f1, .inl ⟨rfl, rfl, by omega⟩⟩
          · rename_i v s2 h2
            have f2 := f1.trans (ReadFrame.of_srcRead h2)
            split
            · rename_i hv
              have hlt := srcRead_lt h2
              exact ⟨f2, .inr (.inr ⟨rfl, v, rfl, by simpa [symInAlphabet] using hv, by omega⟩)⟩
            · exact ⟨rfl, by omega, by omega, f2.trans (ReadFrame.setNode _ _ _)⟩

/-- The header is its fields, one after the other. -/
theorem flatten_fields (t : Shape) : t.fields.flatten = t.header := by
  induction t with
  | leaf y => simp [Shape.fields, Shape.header]
  | node l r ihl ihr => simp [Shape.fields, Shape.header, ihl, ihr]

/-- The fields of a header begin one node for each node of the tree. -/
theorem nodesBegun_fields (t : Shape) : nodesBegun t.fields = t.size := by
  have app : ∀ p q, nodesBegun (p ++ q) = nodesBegun p + nodesBegun q := by simp [nodesBegun]
  induction t with
  | leaf y => simp [Shape.fields, nodesBegun, Shape.size]
  | node l r ihl ihr =>
    have e : nodesBegun ([false] :: (l.fields ++ r.fields)) = 1 + nodesBegun (l.fields ++ r.fields) := by
      simp [nodesBegun]; omega
    rw [Shape.fields, e, app, ihl, ihr, Shape.size]
    omega

/-- What a field read took off the source. -/
theorem srcRead_consumed {s u : State} {w v : Nat} (h : s.srcRead w = some (v, u)) :
    s.inBits.drop s.inPos = bitsOf w v ++ u.inBits.drop u.inPos ∧ u.inPos = s.inPos + w := by
  obtain ⟨hw, rfl, rfl⟩ := srcRead_some h
  have hl : ((s.inBits.drop s.inPos).take w).length = w := by
    rw [List.length_take, List.length_drop]
    exact Nat.min_eq_left hw
  have hb := bitsOf_numeral ((s.inBits.drop s.inPos).take w)
  rw [hl] at hb
  refine ⟨?_, rfl⟩
  rw [hb, ← List.drop_drop, List.take_append_drop]

/-- When Get succeeds it has read exactly the header of a tree with symbols in the alphabet, one new node for each of the
tree's: it makes no tree the source does not hold whole. -/
theorem getHeader_source (d : Nat) : ∀ (n : Nat) (s : State) (i n' : Nat) (u : State), getHeader d n s = .got i n' u →
    ∃ t : Shape, s.inBits.drop s.inPos = t.header ++ u.inBits.drop u.inPos ∧ u.inPos = s.inPos + t.header.length ∧
      t.inAlphabet ∧ n' = n + t.size := by
  induction d with
  | zero => intro n s i n' u h; cases h
  | succ d ih =>
    intro n s i n' u h
    simp only [getHeader] at h
    split at h
    · cases h
    · rename_i b s1 h1
      obtain ⟨c1, p1⟩ := srcRead_consumed h1
      have hb := srcRead_lt h1
      split at h
      · cases h
      · split at h
        · rename_i hb0
          split at h
          · cases h
          · rename_i l n2 s2 h2
            split at h
            · cases h
            · rename_i r n3 s3 h3
              cases h
              obtain ⟨tl, c2, p2, a2, e2⟩ := ih _ _ _ _ _ h2
              obtain ⟨tr, c3, p3, a3, e3⟩ := ih _ _ _ _ _ h3
              refine ⟨.node tl tr, ?_, ?_, ?_, ?_⟩
              · rw [c1, c2, c3, hb0]
                simp [Shape.header, bitsOf, State.setNode]
              · simp only [Shape.header, List.length_cons, List.length_append, State.setNode]
                omega
              · intro e he
                simp only [Shape.leaves, List.mem_append, List.mem_map] at he
                obtain ⟨a, ha, rfl⟩ | ⟨a, ha, rfl⟩ := he
                · exact a2 a ha
                · exact a3 a ha
              · simp only [Shape.size]
                omega
        · rename_i hb0
          split at h
          · cases h
          · rename_i v s2 h2
            obtain ⟨c2, p2⟩ := srcRead_consumed h2
            split at h
            · cases h
            · rename_i hv
              cases h
              have hb1 : b = 1 := by omega
              refine ⟨.leaf v, ?_, ?_, ?_, rfl⟩
              · rw [c1, c2, hb1]
                simp [Shape.header, bitsOf, State.setNode]
              · simp only [Shape.header, List.length_cons, length_bitsOf, State.setNode]
                omega
              · simpa [Shape.inAlphabet, Shape.leaves, symInAlphabet] using hv

/-! ### BUILD's queue (42_tree_builder.md R160, R161) -/

/-- key(i) is less than key(j), as numbers. -/
theorem keyLess_iff (node : Vector Node 513) (i j : Nat) : keyLess node i j = true ↔
    (weightOf node i).toNat < (weightOf node j).toNat ∨
      ((weightOf node i).toNat = (weightOf node j).toNat ∧ i < j) := by
  simp [keyLess, BitVec.lt_def, ← BitVec.toNat_inj]

/-- leastKey answers one of the indices it is given, and none of them has a smaller key. -/
theorem leastKey_spec (node : Vector Node 513) (rest : List Nat) : ∀ i : Nat,
    leastKey node i rest ∈ i :: rest ∧ ∀ j ∈ i :: rest, j ≠ leastKey node i rest → keyLess node (leastKey node i rest) j = true := by
  induction rest with
  | nil => intro i; simp [leastKey]
  | cons k rest ih =>
    intro i
    have e : leastKey node i (k :: rest) = leastKey node (if keyLess node k i then k else i) rest := rfl
    obtain ⟨h1, h2⟩ := ih (if keyLess node k i then k else i)
    rw [e]
    refine ⟨?_, ?_⟩
    · rcases List.mem_cons.mp h1 with h | h
      · rw [h]; split <;> simp
      · exact List.mem_cons_of_mem _ (List.mem_cons_of_mem _ h)
    · intro j hj hne
      by_cases hj' : j ∈ (if keyLess node k i then k else i) :: rest
      · exact h2 j hj' hne
      · have hb : j ≠ (if keyLess node k i then k else i) := fun x => hj' (x ▸ List.mem_cons_self ..)
        have hr : j ∉ rest := fun x => hj' (List.mem_cons_of_mem _ x)
        have hkey : keyLess node (if keyLess node k i then k else i) j = true := by
          simp only [List.mem_cons, hr, or_false] at hj
          split at hb
          · rename_i hk
            rw [if_pos hk]
            rcases hj with rfl | rfl
            · exact hk
            · exact absurd rfl hb
          · rename_i hk
            rw [if_neg hk]
            rcases hj with rfl | rfl
            · exact absurd rfl hb
            · rw [keyLess_iff] at hk ⊢
              omega
        by_cases hm : leastKey node (if keyLess node k i then k else i) rest = (if keyLess node k i then k else i)
        · rw [hm]; exact hkey
        · have := h2 _ (List.mem_cons_self ..) (Ne.symm hm)
          rw [keyLess_iff] at this hkey ⊢
          omega

/-- Everything RemoveMin can do: it removes the index of least key, or finds the queue empty. -/
theorem removeMin_some {node : Vector Node 513} {q q' : List Nat} {i : Nat} (h : removeMin node q = some (i, q')) :
    i ∈ q ∧ q' = q.erase i ∧ ∀ j ∈ q, j ≠ i → keyLess node i j = true := by
  cases q with
  | nil => cases h
  | cons k rest =>
    simp only [removeMin, Option.some.injEq, Prod.mk.injEq] at h
    obtain ⟨rfl, rfl⟩ := h
    obtain ⟨h1, h2⟩ := leastKey_spec node rest k
    exact ⟨h1, rfl, h2⟩

theorem removeMin_none {node : Vector Node 513} {q : List Nat} : removeMin node q = none ↔ q = [] := by
  cases q <;> simp [removeMin]

/-! ### The stream loops -/

/-- FREQ_COUNT's loop ends by finishing or by COUNT_OVERFLOW, and changes nothing but the counts and the source
position (41_frequency.md R141). -/
theorem countLoop_ends (k : Nat) (s : State) : ∃ u : State, u = { s with freq := u.freq, inPos := u.inPos } ∧
    (countLoop k s = finish (u.setFreq Config.PSEUDO_EOF 1) ∨
      ∃ v, v < 256 ∧ countLoop k s = raise .countOverflow (fieldDetail v) u) := by
  induction k generalizing s with
  | zero => exact ⟨s, rfl, .inl rfl⟩
  | succ k ih =>
    simp only [countLoop]
    split
    · exact ⟨s, rfl, .inl rfl⟩
    · rename_i v s1 h
      have hv : v < 256 := srcRead_lt h
      obtain ⟨_, _, rfl⟩ := srcRead_some h
      split
      · exact ⟨_, rfl, .inr ⟨v, hv, rfl⟩⟩
      · obtain ⟨u, hu, e⟩ := ih (State.setFreq { s with inPos := s.inPos + 8 } v
          (({ s with inPos := s.inPos + 8 } : State).freqAt v + 1))
        refine ⟨u, ?_, e⟩
        rw [hu]
        rfl

/-- ENCODE's loop ends by finishing or by MISSING_CODE, and changes nothing but the sink's bits, which it extends, and the
source position (45_stream_encode.md R220). -/
theorem encodeLoop_ends (k : Nat) (s : State) : ∃ u : State,
    u = { s with inPos := u.inPos, outBits := u.outBits } ∧ s.outBits <+: u.outBits ∧
    (encodeLoop k s = finish u ∨ ∃ v, v ≤ 256 ∧ encodeLoop k s = raise .missingCode (fieldDetail v) u) := by
  have hend : ∀ s : State, ∃ u : State, u = { s with inPos := u.inPos, outBits := u.outBits } ∧ s.outBits <+: u.outBits ∧
      (encodeEnd s = finish u ∨ ∃ v, v ≤ 256 ∧ encodeEnd s = raise .missingCode (fieldDetail v) u) := by
    intro s
    unfold encodeEnd
    split
    · exact ⟨s, rfl, List.prefix_refl _, .inr ⟨256, le_rfl, rfl⟩⟩
    · exact ⟨s.writeCode 256, rfl, List.prefix_append _ _, .inl rfl⟩
  induction k generalizing s with
  | zero => exact hend s
  | succ k ih =>
    simp only [encodeLoop]
    split
    · exact hend s
    · rename_i v s1 h
      have hv : v < 256 := srcRead_lt h
      obtain ⟨_, _, rfl⟩ := srcRead_some h
      split
      · exact ⟨{ s with inPos := s.inPos + 8 }, rfl, List.prefix_refl _, .inr ⟨v, hv.le, rfl⟩⟩
      · obtain ⟨u, hu, hp, e⟩ := ih (State.writeCode { s with inPos := s.inPos + 8 } v)
        refine ⟨u, ?_, (List.prefix_append _ _).trans hp, e⟩
        rw [hu]
        rfl

/-- DECODE's loop ends by finishing, by TRUNC_PAYLOAD at the source position, or at a store that holds no tree; it changes
nothing but the sink's bits, which it extends, and the source position (46_stream_decode.md R240). -/
theorem decodeLoop_ends (k : Nat) (cur : Node) (s : State) : ∃ u : State,
    u = { s with inPos := u.inPos, outBits := u.outBits } ∧ s.outBits <+: u.outBits ∧
    (decodeLoop k cur s = finish u ∨ decodeLoop k cur s = raise .truncPayload u.posDetail u ∨
      decodeLoop k cur s = .fault .treeNotWellFormed) := by
  induction k generalizing cur s with
  | zero => exact ⟨s, rfl, List.prefix_refl _, .inr (.inl rfl)⟩
  | succ k ih =>
    simp only [decodeLoop]
    split
    · exact ⟨s, rfl, List.prefix_refl _, .inr (.inl rfl)⟩
    · rename_i b s1 h
      obtain ⟨_, _, rfl⟩ := srcRead_some h
      split
      · rename_i n top _ _
        split
        · obtain ⟨u, hu, hp, e⟩ := ih n { s with inPos := s.inPos + 1 }
          exact ⟨u, by rw [hu], hp, e⟩
        · split
          · exact ⟨{ s with inPos := s.inPos + 1 }, rfl, List.prefix_refl _, .inl rfl⟩
          · split
            · obtain ⟨u, hu, hp, e⟩ := ih top (State.snkWrite { s with inPos := s.inPos + 1 } 8 n.sym.toNat)
              refine ⟨u, ?_, (List.prefix_append _ _).trans hp, e⟩
              rw [hu]
              rfl
            · exact ⟨s, rfl, List.prefix_refl _, .inr (.inr rfl)⟩
      · exact ⟨s, rfl, List.prefix_refl _, .inr (.inr rfl)⟩

/-- DEC_SYM's loop ends with a symbol and how many bits it took, by TRUNC_PAYLOAD at the source position, or at a store that
holds no tree; it changes nothing else but the source position (46_stream_decode.md R241). -/
theorem decSymLoop_ends (k : Nat) (cur : Node) (m : Nat) (s : State) : ∃ u : State,
    u = { s with inPos := u.inPos } ∧
    ((∃ (sym : BitVec 9) (bits : Nat), decSymLoop k cur m s = finish (u.setResults (sym.setWidth 32) (BitVec.ofNat 32 bits) 0)) ∨
      decSymLoop k cur m s = raise .truncPayload u.posDetail u ∨ decSymLoop k cur m s = .fault .treeNotWellFormed) := by
  induction k generalizing cur m s with
  | zero =>
    unfold decSymLoop
    split
    · exact ⟨s, rfl, .inl ⟨_, _, rfl⟩⟩
    · exact ⟨s, rfl, .inr (.inl rfl)⟩
  | succ k ih =>
    unfold decSymLoop
    split
    · exact ⟨s, rfl, .inl ⟨_, _, rfl⟩⟩
    · split
      · rename_i k' b s1 hk h
        obtain ⟨_, _, rfl⟩ := srcRead_some h
        split
        · exact ⟨s, rfl, .inr (.inr rfl)⟩
        · rename_i n _
          obtain rfl : k = k' := by omega
          obtain ⟨u, hu, e⟩ := ih n (m + 1) { s with inPos := s.inPos + 1 }
          exact ⟨u, by rw [hu], e⟩
      · exact ⟨s, rfl, .inr (.inl rfl)⟩

end Sys2Proof.Machine
end

