-- ==== Sys2Proof/Laws/Steps.lean ====
section
/-! SUPPORT. How a command and a step can end: the case lemmas about exec and step. -/

namespace Sys2Proof.Machine

/-- Every command ends by finishing, by taking a fault, or at one of the two stops of a store or queue no run has
(60_exceptions.md R283). -/
theorem exec_ends (i : Instr) (s : State) :
    (∃ u, exec i s = finish u) ∨ (∃ c d u, exec i s = raise c d u) ∨ ∃ f, exec i s = .fault f := by
  have fin : ∀ {r : Res} {u : State}, r = finish u →
      (∃ u, r = finish u) ∨ (∃ c d u, r = raise c d u) ∨ ∃ f, r = .fault f := fun h => .inl ⟨_, h⟩
  have rai : ∀ {r : Res} {c : FaultCode} {d : Word} {u : State}, r = raise c d u →
      (∃ u, r = finish u) ∨ (∃ c d u, r = raise c d u) ∨ ∃ f, r = .fault f := fun h => .inr (.inl ⟨_, _, _, h⟩)
  have fau : ∀ {r : Res} {f : Fault}, r = .fault f →
      (∃ u, r = finish u) ∨ (∃ c d u, r = raise c d u) ∨ ∃ f, r = .fault f := fun h => .inr (.inr ⟨_, h⟩)
  cases i <;> simp only [exec]
  case nop => exact fin rfl
  case clrf => exact fin rfl
  case sreset => exact fin rfl
  case freqClr => exact fin rfl
  case freqCount =>
    obtain ⟨u, -, h | ⟨v, -, h⟩⟩ := countLoop_ends s.bytesLeft s.clearCounts
    · exact fin h
    · exact rai h
  case freqWr sym => unfold execFreqWr; split; exacts [rai rfl, fin rfl]
  case freqRd sym => unfold execFreqRd; split; exacts [rai rfl, fin rfl]
  case build => unfold execBuild; split; exacts [fau rfl, fin rfl]
  case nodeRd idx =>
    unfold execNodeRd
    split
    · exact rai rfl
    · split
      · exact rai rfl
      · split; exacts [fau rfl, fin rfl]
  case genCodes =>
    unfold execGenCodes
    split
    · exact rai rfl
    · split; exacts [fau rfl, fin rfl]
  case codeRd sym wsel =>
    unfold execCodeRd
    split
    · exact rai rfl
    · split; exacts [rai rfl, fin rfl]
  case wrHdr =>
    unfold execWrHdr
    split
    · exact rai rfl
    · split
      · exact rai rfl
      · split; exacts [fau rfl, fin rfl]
  case rdHdr => unfold execRdHdr; split; exacts [rai rfl, fin rfl]
  case encode =>
    unfold execEncode
    split
    · exact rai rfl
    · split
      · exact rai rfl
      · obtain ⟨u, -, -, h | ⟨v, -, h⟩⟩ := encodeLoop_ends s.bytesLeft s
        · exact fin h
        · exact rai h
  case encSym sym =>
    unfold execEncSym
    split
    · exact rai rfl
    · split
      · exact rai rfl
      · split
        · exact rai rfl
        · split; exacts [rai rfl, fin rfl]
  case decode =>
    unfold execDecode
    split
    · exact rai rfl
    · split
      · exact rai rfl
      · split
        · exact fau rfl
        · rename_i top _
          split
          · split; exacts [fin rfl, rai rfl]
          · obtain ⟨u, -, -, h | h | h⟩ := decodeLoop_ends s.bitsLeft top s
            · exact fin h
            · exact rai h
            · exact fau h
  case decSym =>
    unfold execDecSym
    split
    · exact rai rfl
    · split
      · exact fau rfl
      · rename_i top _
        obtain ⟨u, -, ⟨y, k, h⟩ | h | h⟩ := decSymLoop_ends s.bitsLeft top 0 s
        · exact fin h
        · exact rai h
        · exact fau h
  case wrTag => unfold execWrTag; split; exacts [rai rfl, fin rfl]
  case chkTag =>
    unfold execChkTag
    split
    · exact rai rfl
    · split; exacts [fin rfl, rai rfl]
  case srcRewind => exact fin rfl
  case snkClose => exact fin rfl

/-- A command that leads to a next state has completed (40_control.md R121). -/
theorem exec_status {i : Instr} {s t : State} (h : exec i s = .next t) : t.busy = false ∧ t.done = true := by
  obtain ⟨u, e⟩ | ⟨c, d, u, e⟩ | ⟨f, e⟩ := exec_ends i s
  · exact finish_status (e ▸ h)
  · exact raise_status (e ▸ h)
  · rw [e] at h; cases h

/-- Everything a step that leads to a next state can be: the engine runs a command, runs an illegal word, or is idle; or
the host writes, reads, attaches a port, resets, or has found its WAIT over. -/
theorem step_cases {s t : State} (h : step s = .next t) :
    (∃ u i, nextTurn s = .engine u ∧ u.busy = true ∧ decode u.cur = .ok i ∧ exec i u = .next t) ∨
    (∃ u e, nextTurn s = .engine u ∧ u.busy = true ∧ decode u.cur = .error e ∧ execIllegal u = .next t) ∨
    (nextTurn s = .engine t ∧ t.busy = false) ∨
    (∃ rest off v, s.inputs = .write 32 off v :: rest ∧ off < 256 ∧ off % 4 = 0 ∧
      t = State.hostWrite { s with inputs := rest } off v) ∨
    (∃ rest off, s.inputs = .read 32 off :: rest ∧ off < 256 ∧ off % 4 = 0 ∧
      t = State.hostRead { s with inputs := rest } off) ∨
    (∃ rest bits, s.inputs = .attachSource bits :: rest ∧ s.busy = false ∧
      t = State.withSource { s with inputs := rest } bits) ∨
    (∃ rest, s.inputs = .attachSink :: rest ∧ s.busy = false ∧ t = State.withSink { s with inputs := rest }) ∨
    (∃ rest, s.inputs = .reset :: rest ∧ t = State.resetInput { s with inputs := rest }) ∨
    (∃ rest b, s.inputs = .wait b :: rest ∧ s.busy = false ∧ s.done = true ∧
      t = State.waitDone { s with inputs := rest } b) := by
  have eng : ∀ u : State, nextTurn s = .engine u → engineTurn u = .next t →
      (∃ u i, nextTurn s = .engine u ∧ u.busy = true ∧ decode u.cur = .ok i ∧ exec i u = .next t) ∨
      (∃ u e, nextTurn s = .engine u ∧ u.busy = true ∧ decode u.cur = .error e ∧ execIllegal u = .next t) ∨
      (nextTurn s = .engine t ∧ t.busy = false) := by
    intro u hu h
    unfold engineTurn at h
    split at h
    · rename_i hb
      split at h
      · rename_i i hi
        exact .inl ⟨u, i, hu, hb, hi, h⟩
      · rename_i e he
        exact .inr (.inl ⟨u, e, hu, hb, he, h⟩)
    · rename_i hb
      cases h
      exact .inr (.inr ⟨hu, by simpa using hb⟩)
  have acc : ∀ {width off : Nat}, accessRefusal width off = none → width = 32 ∧ off < 256 ∧ off % 4 = 0 := by
    intro width off ha
    unfold accessRefusal at ha
    split at ha
    · cases ha
    · split at ha
      · cases ha
      · split at ha
        · cases ha
        · omega
  have eng' : ∀ u : State, nextTurn s = .engine u → step s = engineTurn u := by
    intro u hu; unfold step; rw [hu]
  rcases hin : s.inputs with _ | ⟨a, rest⟩
  · have hu : nextTurn s = .engine s := by unfold nextTurn; rw [hin]
    rcases eng s hu ((eng' s hu) ▸ h) with h | h | h
    exacts [.inl h, .inr (.inl h), .inr (.inr (.inl h))]
  · cases a with
    | engine =>
      have hu : nextTurn s = .engine { s with inputs := rest } := by unfold nextTurn; rw [hin]
      rcases eng _ hu ((eng' _ hu) ▸ h) with h | h | h
      exacts [.inl h, .inr (.inl h), .inr (.inr (.inl h))]
    | wait b =>
      by_cases hw : (!s.busy && s.done) = true
      · have hu : nextTurn s = .host (.wait b) { s with inputs := rest } := by unfold nextTurn; rw [hin]; simp only [hw, if_true]
        unfold step at h
        rw [hu] at h
        simp only [hostTurn] at h
        cases h
        simp only [Bool.and_eq_true, Bool.not_eq_true'] at hw
        exact .inr (.inr (.inr (.inr (.inr (.inr (.inr (.inr ⟨rest, b, rfl, hw.1, hw.2, rfl⟩)))))))
      · have hu : nextTurn s = .engine s := by
          unfold nextTurn
          rw [hin]
          simp only [Bool.not_eq_true] at hw
          simp only [hw, Bool.false_eq_true, if_false]
        rcases eng s hu ((eng' s hu) ▸ h) with h | h | h
        exacts [.inl h, .inr (.inl h), .inr (.inr (.inl h))]
    | write width off v =>
      have hu : nextTurn s = .host (.write width off v) { s with inputs := rest } := by unfold nextTurn; rw [hin]
      unfold step at h
      rw [hu] at h
      simp only [hostTurn] at h
      split at h
      · cases h
      · rename_i ha
        cases h
        obtain ⟨rfl, h1, h2⟩ := acc ha
        exact .inr (.inr (.inr (.inl ⟨rest, off, v, rfl, h1, h2, rfl⟩)))
    | read width off =>
      have hu : nextTurn s = .host (.read width off) { s with inputs := rest } := by unfold nextTurn; rw [hin]
      unfold step at h
      rw [hu] at h
      simp only [hostTurn] at h
      split at h
      · cases h
      · rename_i ha
        cases h
        obtain ⟨rfl, h1, h2⟩ := acc ha
        exact .inr (.inr (.inr (.inr (.inl ⟨rest, off, rfl, h1, h2, rfl⟩))))
    | attachSource bits =>
      have hu : nextTurn s = .host (.attachSource bits) { s with inputs := rest } := by unfold nextTurn; rw [hin]
      unfold step at h
      rw [hu] at h
      simp only [hostTurn] at h
      split at h
      · cases h
      · rename_i hb
        cases h
        exact .inr (.inr (.inr (.inr (.inr (.inl ⟨rest, bits, rfl, by simpa using hb, rfl⟩)))))
    | attachSink =>
      have hu : nextTurn s = .host .attachSink { s with inputs := rest } := by unfold nextTurn; rw [hin]
      unfold step at h
      rw [hu] at h
      simp only [hostTurn] at h
      split at h
      · cases h
      · rename_i hb
        cases h
        exact .inr (.inr (.inr (.inr (.inr (.inr (.inl ⟨rest, rfl, by simpa using hb, rfl⟩))))))
    | reset =>
      have hu : nextTurn s = .host .reset { s with inputs := rest } := by unfold nextTurn; rw [hin]
      unfold step at h
      rw [hu] at h
      simp only [hostTurn] at h
      cases h
      exact .inr (.inr (.inr (.inr (.inr (.inr (.inr (.inl ⟨rest, rfl, rfl⟩)))))))

/-- What a turn of the engine starts from: the state itself, or the state with the head of the host's list taken. -/
theorem nextTurn_engine {s u : State} (h : nextTurn s = .engine u) : u = { s with inputs := u.inputs } := by
  unfold nextTurn at h
  split at h
  · cases h; rfl
  · cases h; rfl
  · split at h
    · cases h
    · cases h; rfl
  · cases h

end Sys2Proof.Machine
end

