-- ==== Sys2Proof/Tests/Slice0.lean ====
section
/-! SUPPORT. Tests: ill-formed terms, words written out from 30_encoding.md R90 to R96, single steps whose results stand
in the spec's rules and in 95_test_vectors.md, and a witness for the hypotheses of every statement. -/

open Sys2Proof Sys2Proof.Machine

namespace Sys2Proof.Tests

set_option Elab.async false

/-! ### Helpers -/

/-- The outcome is a next state that passes the check. -/
def nextWith (p : State → Bool) : Res → Bool
  | .next t => p t
  | _ => false

theorem exists_next {r : Res} {p : State → Bool} (h : nextWith p r = true) : ∃ t, r = .next t ∧ p t = true := by
  cases r with
  | next t => exact ⟨t, rfl, h⟩
  | fault f => cases h
  | refused q => cases h

/-- The outcome is a refusal. -/
def isRefused : Res → Bool
  | .refused _ => true
  | _ => false

/-- The bytes 41 41 42 of vector V-S1. -/
def aabBytes : List (BitVec 8) := [0x41, 0x41, 0x42]

/-- Reset, with the bytes of V-S1 attached (95_test_vectors.md, start state). -/
def aabSource : State := { State.reset with inBits := bitsOfBytes aabBytes }

/-- The tree of V-S1 as a shape. -/
def aabTree : Shape := .node (.leaf 65) (.node (.leaf 66) (.leaf 256))

/-- The tree store of V-S1, as 95_test_vectors.md lists it. -/
def aabNode : Nat → Node
  | 0 => ⟨true, 65, 2, 0, 0⟩
  | 1 => ⟨true, 66, 1, 0, 0⟩
  | 2 => ⟨true, 256, 1, 0, 0⟩
  | 3 => ⟨false, 0, 2, 1, 2⟩
  | 4 => ⟨false, 0, 4, 0, 3⟩
  | _ => Node.zero

/-- The code table of V-S1, as 95_test_vectors.md lists it. -/
def aabCode : Nat → CodeEntry
  | 65 => ⟨true, 1, 0⟩
  | 66 => ⟨true, 2, 2⟩
  | 256 => ⟨true, 2, 3⟩
  | _ => CodeEntry.absent

/-- V-S1 after FREQ_COUNT, BUILD, GENCODES and SRC_REWIND. -/
def aab : State :=
  { aabSource with
    freq := tabulate 257 fun v => if v = 65 then 2 else if v = 66 then 1 else if v = 256 then 1 else 0
    node := tabulate 513 aabNode
    ncount := 5
    root := 4
    treeValid := true
    code := tabulate 257 aabCode
    codesValid := true }

/-- `aab` with other bits in the source. -/
def aabReading (bits : List Bool) : State := { aab with inBits := bits }

/-- `s` with a command accepted and the host letting the engine move. -/
def running (i : Instr) (s : State) : State := { s.accept (encode i) with inputs := [.engine] }

/-- Reset with the fault of V-C2 recorded. -/
def faulted : State := { State.reset with fault := true, fcode := 1, fcmd := 0xFF, fdetail := 0xFF, done := true }

/-- The host does `a` next. -/
def doing (a : Input) (s : State) : State := { s with inputs := [a] }

/-! ### Ill-formed terms are refused -/

theorem test_wf_freqWr : (Instr.freqWr 512).wellFormed = false := by decide
theorem test_wf_freqRd : (Instr.freqRd 512).wellFormed = false := by decide
theorem test_wf_encSym : (Instr.encSym 512).wellFormed = false := by decide
theorem test_wf_codeRd_sym : (Instr.codeRd 512 0).wellFormed = false := by decide
theorem test_wf_codeRd_wsel : (Instr.codeRd 0 8).wellFormed = false := by decide
theorem test_wf_nodeRd : (Instr.nodeRd 1024).wellFormed = false := by decide

/-! ### Decoding, words written out as reserved, operand and opcode bits (30_encoding.md R90 to R96) -/

theorem test_decode_nop : decode 0b000000000000000000000000_00000000#32 = .ok .nop := by decide
theorem test_decode_clrf : decode 0b000000000000000000000000_00000001#32 = .ok .clrf := by decide
theorem test_decode_sreset : decode 0b000000000000000000000000_00000010#32 = .ok .sreset := by decide
theorem test_decode_freqClr : decode 0b000000000000000000000000_00010000#32 = .ok .freqClr := by decide
theorem test_decode_freqCount : decode 0b000000000000000000000000_00010001#32 = .ok .freqCount := by decide
theorem test_decode_freqWr : decode 0b000000000000000_001000001_00010010#32 = .ok (.freqWr 65) := by decide
theorem test_decode_freqRd : decode 0b000000000000000_100000001_00010011#32 = .ok (.freqRd 257) := by decide
theorem test_decode_build : decode 0b000000000000000000000000_00100000#32 = .ok .build := by decide
theorem test_decode_nodeRd : decode 0b00000000000000_1000000011_00100001#32 = .ok (.nodeRd 515) := by decide
theorem test_decode_genCodes : decode 0b000000000000000000000000_00110000#32 = .ok .genCodes := by decide
theorem test_decode_codeRd : decode 0b000000000000_110_100101100_00110001#32 = .ok (.codeRd 300 6) := by decide
theorem test_decode_wrHdr : decode 0b000000000000000000000000_01000000#32 = .ok .wrHdr := by decide
theorem test_decode_rdHdr : decode 0b000000000000000000000000_01000001#32 = .ok .rdHdr := by decide
theorem test_decode_encode : decode 0b000000000000000000000000_01010000#32 = .ok .encode := by decide
theorem test_decode_encSym : decode 0b000000000000000_100000000_01010001#32 = .ok (.encSym 256) := by decide
theorem test_decode_decode : decode 0b000000000000000000000000_01100000#32 = .ok .decode := by decide
theorem test_decode_decSym : decode 0b000000000000000000000000_01100001#32 = .ok .decSym := by decide
theorem test_decode_wrTag : decode 0b000000000000000000000000_01110000#32 = .ok .wrTag := by decide
theorem test_decode_chkTag : decode 0b000000000000000000000000_01110001#32 = .ok .chkTag := by decide
theorem test_decode_srcRewind : decode 0b000000000000000000000000_01110010#32 = .ok .srcRewind := by decide
theorem test_decode_snkClose : decode 0b000000000000000000000000_01110011#32 = .ok .snkClose := by decide
/-- The first reserved bit of formats S, I and SW, and the top bit of format N (30_encoding.md R97). -/
theorem test_decode_reserved :
    decode 0x00020012#32 = .error .reservedBitSet ∧ decode 0x00040021#32 = .error .reservedBitSet ∧
      decode 0x00100031#32 = .error .reservedBitSet ∧ decode 0x80000000#32 = .error .reservedBitSet := by decide
theorem test_decode_unassigned : decode 0x000000FF#32 = .error .unassignedOpcode := by decide
theorem test_asm : (Instr.codeRd 66 0).asm = "CODE_RD 66, 0" := by decide +kernel

/-! ### Single steps; each expected value stands in the rule or vector named -/

/-- V-C1. -/
theorem test_nop_status : nextWith (fun t => t.statusWord == 0x00000002) (exec .nop State.reset) = true := by
  decide +kernel
/-- V-C4. -/
theorem test_clrf_record : nextWith (fun t => t.statusWord == 0x00000002 && t.fcmd == 0 && t.fdetail == 0)
    (exec .clrf { faulted with lost := true }) = true := by decide +kernel
/-- V-C7, and 40_control.md R128: ARG is cleared, the closed sink stays closed. -/
theorem test_sreset_status : nextWith (fun t => t.statusWord == 0x00000042 && t.arg == 0 && t.treeInfo == 0)
    (exec .sreset { aab with outClosed := true, arg := 5 }) = true := by decide +kernel
/-- V-Q7. -/
theorem test_freqClr : nextWith (fun t => t.freqAt 65 == 0 && t.freqAt 256 == 1) (exec .freqClr aab) = true := by
  decide +kernel
/-- V-Q5: the trailing three bits are not read. -/
theorem test_freqCount_partial : nextWith (fun t => t.freqAt 65 == 2 && t.inPos == 16)
    (exec .freqCount { State.reset with inBits := bitsOfBytes [0x41, 0x41] ++ [true, false, true] }) = true := by
  decide +kernel
/-- V-Q6: the count starts at IN.pos. -/
theorem test_freqCount_middle : nextWith (fun t => t.freqAt 65 == 0 && t.freqAt 66 == 2 && t.inPos == 24)
    (exec .freqCount { State.reset with inBits := bitsOfBytes [0x41, 0x42, 0x42], inPos := 8 }) = true := by
  decide +kernel
/-- V-Q1. -/
theorem test_freqWr : nextWith (fun t => t.freqAt 65 == 5) (exec (.freqWr 65) { State.reset with curArg := 5 }) = true := by
  decide +kernel
/-- V-Q2. -/
theorem test_freqWr_eof : nextWith (fun t => t.statusWord == 0x00000206 && t.fdetail == 0x100 && t.freqAt 256 == 1)
    (exec (.freqWr 256) State.reset) = true := by decide +kernel
/-- V-Q4. -/
theorem test_freqRd_eof : nextWith (fun t => t.res0 == 1) (exec (.freqRd 256) State.reset) = true := by decide +kernel
/-- V-Q3. -/
theorem test_freqRd_range : nextWith (fun t => t.statusWord == 0x00000206 && t.fdetail == 0x101)
    (exec (.freqRd 257) State.reset) = true := by decide +kernel
/-- V-S1: the nodes BUILD makes. -/
theorem test_build_aab : nextWith (fun t => t.treeInfo == 0x00040005 && t.ncount == 5 &&
    (List.range 5).all fun i => t.node[i]? == some (aabNode i)) (exec .build aab) = true := by decide +kernel
/-- V-B3: the tie at 2^32 - 1, and 41-bit weights. -/
theorem test_build_wide : nextWith (fun t => t.node[3]? == some ⟨false, 0, 0x100000000, 2, 0⟩ &&
      t.node[4]? == some ⟨false, 0, 0x1FFFFFFFF, 1, 3⟩)
    (exec .build ((State.reset.setFreq 0 0xFFFFFFFF).setFreq 1 0xFFFFFFFF)) = true := by decide +kernel
/-- V-B1. -/
theorem test_nodeRd : nextWith (fun t => t.res0 == 1 && t.res1 == 0 && t.res2 == 0x90000000) (exec (.nodeRd 2) aab) = true := by
  decide +kernel
/-- V-B4: NO_TREE wins over BAD_OPERAND. -/
theorem test_nodeRd_noTree : nextWith (fun t => t.statusWord == 0x00000306) (exec (.nodeRd 0) State.reset) = true := by
  decide +kernel
/-- V-S1: the codes GENCODES makes. -/
theorem test_genCodes_aab : nextWith (fun t => [65, 66, 67, 256].all fun v => t.codeAt v == aabCode v)
    (exec .genCodes { aab with code := State.reset.code }) = true := by decide +kernel
/-- V-G7. -/
theorem test_genCodes_noTree : nextWith (fun t => t.statusWord == 0x00000306) (exec .genCodes State.reset) = true := by
  decide +kernel
/-- V-G1. -/
theorem test_codeRd : nextWith (fun t => t.res0 == 0x80000002 && t.res1 == 2 && t.res2 == 0)
    (exec (.codeRd 66 0) aab) = true := by decide +kernel
/-- V-G6: BAD_OPERAND wins over NO_CODES. -/
theorem test_codeRd_range : nextWith (fun t => t.statusWord == 0x00000206 && t.fdetail == 0x12C)
    (exec (.codeRd 300 0) State.reset) = true := by decide +kernel
/-- V-H1. -/
theorem test_wrHdr : nextWith (fun t => t.outBits == bitsOf 32 0x48290B00) (exec .wrHdr aab) = true := by decide +kernel
/-- V-H2 and 44_tree_codec.md R203: preorder indices, weight 0. -/
theorem test_rdHdr : nextWith (fun t => t.treeInfo == 0x00000005 && t.inPos == 32 &&
      t.node[2]? == some ⟨false, 0, 0, 3, 4⟩ && t.node[4]? == some ⟨true, 256, 0, 0, 0⟩)
    (exec .rdHdr { State.reset with inBits := bitsOf 32 0x48290B00 }) = true := by decide +kernel
/-- The header bytes 48 of V-F8 without the tag: the leaf value is cut, its structural bit is consumed. -/
theorem test_rdHdr_truncated : nextWith (fun t => t.statusWord == 0x00000806 && t.inPos == 2 && t.fdetail == 2)
    (exec .rdHdr { State.reset with inBits := bitsOf 8 0x48 }) = true := by decide +kernel
/-- 45_stream_encode.md R220, its example. -/
theorem test_encode : nextWith (fun t => t.outBits == [false, false, true, false, true, true] && t.inPos == 24)
    (exec .encode aab) = true := by decide +kernel
/-- V-E11: a byte with no code is consumed. -/
theorem test_encode_missing : nextWith (fun t => t.fcode == 0x0A && t.fdetail == 0x43 && t.inPos == 8 && t.outBits == [])
    (exec .encode (aabReading (bitsOf 8 0x43))) = true := by decide +kernel
/-- 45_stream_encode.md R221, its example. -/
theorem test_encSym : nextWith (fun t => t.outBits == [true, false]) (exec (.encSym 66) aab) = true := by decide +kernel
/-- 45_stream_encode.md R221, its example. -/
theorem test_encSym_missing : nextWith (fun t => t.fcode == 0x0A && t.fdetail == 67 && t.outBits == [])
    (exec (.encSym 67) aab) = true := by decide +kernel
/-- 46_stream_decode.md R240, its example. -/
theorem test_decode_payload : nextWith (fun t => t.outBits == bitsOfBytes aabBytes && t.inPos == 6)
    (exec .decode (aabReading [false, false, true, false, true, true, false, false])) = true := by decide +kernel
/-- V-F10 without tag and header: the bytes decoded stay written. -/
theorem test_decode_truncated : nextWith (fun t => t.fcode == 0x09 && t.fdetail == 5 && t.outBits == bitsOfBytes aabBytes)
    (exec .decode (aabReading [false, false, true, false, true])) = true := by decide +kernel
/-- 46_stream_decode.md R241, its example. -/
theorem test_decSym : nextWith (fun t => t.res0 == 66 && t.res1 == 2 && t.res2 == 0 && t.outBits == [])
    (exec .decSym (aabReading [true, false])) = true := by decide +kernel
/-- V-X2. -/
theorem test_decSym_noTree : nextWith (fun t => t.statusWord == 0x00000306) (exec .decSym State.reset) = true := by
  decide +kernel
/-- V-T6. -/
theorem test_wrTag_closed : nextWith (fun t => t.statusWord == 0x00000546)
    (exec .wrTag { State.reset with outClosed := true }) = true := by decide +kernel
/-- 47_framing_ports.md R260: 32 bits are appended. -/
theorem test_wrTag_length : nextWith (fun t => t.outBits.length == 33) (exec .wrTag { State.reset with outBits := [true] }) = true := by
  decide +kernel
/-- V-F4. -/
theorem test_chkTag_short : nextWith (fun t => t.statusWord == 0x00000706 && t.fdetail == 24 && t.inPos == 0)
    (exec .chkTag { State.reset with inBits := bitsOf 24 0xFACE82 }) = true := by decide +kernel
/-- V-T4. -/
theorem test_srcRewind : nextWith (fun t => t.inPos == 0) (exec .srcRewind { aab with inPos := 24 }) = true := by
  decide +kernel
/-- V-T5: 35 bits are padded to 40. -/
theorem test_snkClose : nextWith (fun t => t.outBits == bitsOf 40 0xFACE8201A0 && t.statusWord == 0x00000042)
    (exec .snkClose { State.reset with outBits := bitsOf 32 0xFACE8201 ++ [true, false, true] }) = true := by decide +kernel
/-- V-T5: a second SNK_CLOSE changes nothing. -/
theorem test_snkClose_again : nextWith (fun t => t.outBits == [true]) (exec .snkClose { State.reset with
    outBits := [true], outClosed := true }) = true := by decide +kernel
/-- V-C2. -/
theorem test_illegal : nextWith (fun t => t.statusWord == 0x00000106 && t.fcmd == 0xFF && t.fdetail == 0xFF)
    (step (State.reset.withFetchWord 32 0xFF)) = true := by decide +kernel
/-- V-C3: discarded while a fault is recorded. -/
theorem test_discard : nextWith (fun t => t.statusWord == 0x0000010E && t.fcmd == 0xFF)
    (step (doing (.write 32 0 0x100) faulted)) = true := by decide +kernel
/-- V-C8: a CMD write while BUSY is dropped. -/
theorem test_dropped : nextWith (fun t => t.lost && t.busy && t.cur == 0x11)
    (step (doing (.write 32 0 0x20) (State.reset.accept 0x11))) = true := by decide +kernel
/-- The row's instruction is what the host's word decodes to, and the next step runs it. -/
theorem test_fetchWord : decodeTableWord 32 0x00004113 = some (.freqRd 65) ∧
    nextWith (fun t => t.done && !t.busy && t.res0 == 0) (step (State.reset.withFetchWord 32 0x00004113)) = true := by
  decide +kernel

/-! ### Witnesses: for every statement with hypotheses, states and operands that meet them all -/

theorem aab_holds : Holds aab.node aabTree aab.root := by
  simp [Holds, aabTree, aab, getElem?_tabulate, aabNode]

theorem aab_inAlphabet : aabTree.inAlphabet := by unfold Shape.inAlphabet; decide

theorem aab_distinct : aabTree.distinct := by unfold Shape.distinct; decide

theorem aab_treeOk : TreeOk aab := by
  refine ⟨aabTree, aab_holds, aab_inAlphabet, ?_⟩
  have : aabTree.entries aab.node aab.root = [4, 0, 3, 1, 2] := by
    simp [Shape.entries, aabTree, aab, aabNode]
  rw [this]
  decide

theorem aab_codeTable : aab.code = aabTree.codeTable := by decide +kernel

/-- A chain of n internal nodes. -/
def chain : Nat → Shape
  | 0 => .leaf 256
  | n + 1 => .node (.leaf 0) (chain n)

theorem chain_size (n : Nat) : (chain n).size = 2 * n + 1 := by
  induction n with
  | zero => rfl
  | succ n ih => simp [chain, Shape.size, ih]; omega

theorem chain_inAlphabet (n : Nat) : (chain n).inAlphabet := by
  induction n with
  | zero => simp [chain, Shape.inAlphabet, Shape.leaves]
  | succ n ih =>
    simp only [Shape.inAlphabet, chain, Shape.leaves, List.mem_append, List.mem_map] at *
    rintro e (⟨a, ha, rfl⟩ | ⟨a, ha, rfl⟩)
    · simp at ha; simp [ha]
    · exact ih a ha

/-- A tree whose header begins with n structural bits 0. -/
def deep : Nat → Shape
  | 0 => .leaf 256
  | n + 1 => .node (deep n) (.leaf 0)

theorem deep_fields (n : Nat) : ∃ post, (deep n).fields = List.replicate n [false] ++ [true] :: post := by
  induction n with
  | zero => exact ⟨[bitsOf 9 256], rfl⟩
  | succ n ih =>
    obtain ⟨post, h⟩ := ih
    exact ⟨post ++ (Shape.leaf 0).fields, by simp [deep, Shape.fields, h, List.replicate_succ]⟩

theorem nodesBegun_zeros (n : Nat) : nodesBegun (List.replicate n [false]) = n := by
  simp [nodesBegun]

/-- A source of n zero bits. -/
def zeros (n : Nat) : State := { State.reset with inBits := List.replicate n false }

theorem zeros_bytesAhead (m : Nat) : ∀ k, k ≤ m → (zeros (8 * m)).bytesAhead k = List.replicate k 0 := by
  intro k hk
  simp only [State.bytesAhead, List.eq_replicate_iff, List.length_map, List.length_range, List.mem_map, List.mem_range,
    true_and]
  rintro b ⟨j, hj, rfl⟩
  have h8 : min 8 (8 * m - 8 * j) = 8 := by omega
  simp only [State.byteAt, zeros, State.reset, Nat.zero_add, List.drop_replicate, List.take_replicate, h8]
  decide

theorem faulted_statusOk (i : List Input) : StatusOk { faulted with inputs := i } where
  noRecord := by simp [faulted]
  record := by simp [faulted]
  busyNotDone := by simp [faulted, State.reset]
  gate := by simp [faulted, State.reset]
  codesNeedTree := by simp [faulted, State.reset]
  posInside := by simp [faulted, State.reset]
  codesFormed := by
    intro v
    have : ({ faulted with inputs := i } : State).codeAt v = CodeEntry.absent := by
      simp only [State.codeAt, faulted, State.reset]
      by_cases h : v < 257
      · simp [h]
      · rw [Vector.getElem?_eq_none (by omega)]; rfl
    rw [this]
    simp [CodeEntry.formed, CodeEntry.absent]

theorem witness_DecodeUndoesEncode :
    (Instr.codeRd 511 7).wellFormed = true ∧ (Instr.nodeRd 1023).wellFormed = true := by decide

theorem witness_EncodeUndoesDecode : decode 0x000FFF31#32 = .ok (.codeRd 511 7) := by decide

theorem witness_IllegalWordIsRecordedOrDiscarded :
    ∃ (c : Word) (s u : State), (∃ e, decode c = .error e) ∧ s.busy = false ∧ u.busy = false ∧
      s.inputs = [.write 32 0 c, .engine] ∧ u.inputs = [.write 32 0 c, .engine] ∧ s.fault = false ∧ u.fault = true :=
  ⟨0xFF, { State.reset with inputs := [.write 32 0 0xFF, .engine] },
    { faulted with inputs := [.write 32 0 0xFF, .engine] }, ⟨.unassignedOpcode, by decide⟩, rfl, rfl, rfl, rfl, rfl, rfl⟩

theorem witness_StepRunsTheDecodedCommand :
    ∃ s u v : State, (s.busy = true ∧ decode s.cur = .ok .build ∧ s.inputs = []) ∧
      (u.busy = true ∧ decode u.cur = .ok .build ∧ u.inputs = [.engine]) ∧
      (v.busy = true ∧ decode v.cur = .ok .build ∧ v.inputs = [.wait true]) :=
  ⟨aab.accept 0x20, running .build aab, doing (.wait true) (aab.accept 0x20), ⟨rfl, by decide, rfl⟩,
    ⟨rfl, by decide, rfl⟩, ⟨rfl, by decide, rfl⟩⟩

theorem witness_CommandWrite :
    ∃ s u v w : State, (s.inputs = [.write 32 0 0x20] ∧ s.busy = true) ∧
      (u.inputs = [.write 32 0 0x20] ∧ u.busy = false ∧ u.fault = true ∧
        (0x20 : Word) ∉ [0x00000000#32, 0x00000001#32, 0x00000002#32, 0x00000073#32]) ∧
      (v.inputs = [.write 32 0 0x73] ∧ v.busy = false ∧ v.fault = true ∧
        (0x73 : Word) ∈ [0x00000000#32, 0x00000001#32, 0x00000002#32, 0x00000073#32]) ∧
      (w.inputs = [.write 32 0 0x20] ∧ w.busy = false ∧ ∃ t, step w = .next t ∧ t.busy = true) :=
  ⟨doing (.write 32 0 0x20) (aab.accept 0x11), doing (.write 32 0 0x20) faulted, doing (.write 32 0 0x73) faulted,
    doing (.write 32 0 0x20) aab, ⟨rfl, rfl⟩, ⟨rfl, rfl, rfl, by decide⟩, ⟨rfl, rfl, rfl, by decide⟩,
    ⟨rfl, rfl, exists_next (p := State.busy) (by decide +kernel)⟩⟩

theorem witness_RegisterWindow :
    (∀ off ∈ [0x00, 0x04, 0x20, 0x24, 0xFC], off % 4 = 0 ∧ off < 256) ∧
      (∀ off, (doing (.read 32 off) aab).inputs = [.read 32 off] ∧ (doing (.read 32 off) aab).busy = false) ∧
      ∀ off, (doing (.write 32 off 5) aab).inputs = [.write 32 off 5] :=
  ⟨by decide, fun _ => ⟨rfl, rfl⟩, fun _ => rfl⟩

theorem witness_ReadsWhileBusy :
    (∀ off ∈ [0x00, 0x04, 0x08, 0x0C, 0x20, 0x24, 0xFC], off % 4 = 0 ∧ off < 256) ∧
      ∀ off, (doing (.read 32 off) (aab.accept 0x11)).busy = true ∧
        (doing (.read 32 off) (aab.accept 0x11)).inputs = [.read 32 off] :=
  ⟨by decide, fun _ => ⟨rfl, rfl⟩⟩

theorem witness_OtherAccessesAreRefused :
    ((16 ≠ 32 ∨ 4 % 4 ≠ 0 ∨ 256 ≤ 4) ∧ (doing (.read 16 4) aab).inputs = [.read 16 4]) ∧
      ((32 ≠ 32 ∨ 253 % 4 ≠ 0 ∨ 256 ≤ 253) ∧ (doing (.read 32 253) aab).inputs = [.read 32 253]) ∧
      ((32 ≠ 32 ∨ 256 % 4 ≠ 0 ∨ 256 ≤ 256) ∧ (doing (.write 32 256 0) aab).inputs = [.write 32 256 0]) := by
  refine ⟨⟨by decide, rfl⟩, ⟨by decide, rfl⟩, ⟨by decide, rfl⟩⟩

theorem witness_PortsAttachOnlyWhileIdle :
    ((doing (.attachSource [true]) aab).inputs = [.attachSource [true]] ∧ aab.busy = false) ∧
      ((doing .attachSink aab).inputs = [.attachSink] ∧ (aab.accept 0x11).busy = true) := ⟨⟨rfl, rfl⟩, ⟨rfl, rfl⟩⟩

theorem witness_Reset : (doing .reset aab).inputs = [.reset] ∧ (doing .reset aab).busy = false ∧
    (doing .reset (aab.accept 0x50)).inputs = [.reset] ∧ (doing .reset (aab.accept 0x50)).busy = true :=
  ⟨rfl, rfl, rfl, rfl⟩

theorem witness_PseudoCommandsExpand :
    ∃ s u : State, (s.inputs = [.wait true] ∧ s.busy = false ∧ s.done = true ∧ s.fault = false) ∧
      (u.inputs = [.wait true] ∧ u.busy = false ∧ u.done = true ∧ u.fault = true) :=
  ⟨doing (.wait true) { aab with done := true }, doing (.wait true) faulted, ⟨rfl, rfl, rfl, rfl⟩, ⟨rfl, rfl, rfl, rfl⟩⟩

theorem witness_ControlCommandsComplete :
    (opcodeOf 0x80000002#32 ≤ 2 ∧ 0x80000002#32 >>> 8 ≠ 0) ∧
      (0x02#32 ∈ [0x00000000#32, 0x00000001#32, 0x00000002#32] ∧ (doing (.write 32 0 2) faulted).busy = false ∧
        (doing (.write 32 0 2) faulted).inputs = [.write 32 0 2] ∧ faulted.fault = true) := by
  refine ⟨by decide, by decide, rfl, rfl, rfl⟩

/-- The ranges of FREQ_WR, FREQ_RD, ENC_SYM and CODE_RD at their ends, with the flags and table entries each clause asks
for. -/
theorem witness_SymbolOperands :
    (255 < 256 ∧ 256 ≤ 256 ∧ 256 < 257 ∧ 257 ≤ 257 ∧ 511 < 512) ∧
      (aab.codesValid = true ∧ State.reset.codesValid = false ∧ aab.outClosed = false ∧
        ({ aab with outClosed := true } : State).outClosed = true) ∧
      aab.code[256].valid = true ∧ aab.code[67].valid = false := by
  refine ⟨by decide, ⟨rfl, rfl, rfl, rfl⟩, by decide +kernel, by decide +kernel⟩

theorem witness_FreqCountCountsTheBytes :
    (∀ v, v < 256 → (aabSource.bytesAhead ((aabSource.inBits.length - aabSource.inPos) / 8)).count v ≤ 2 ^ 32 - 1) ∧
      aabSource.fault = false ∧ ∃ t, exec .freqCount aabSource = .next t ∧ t.fault = false := by
  refine ⟨?_, rfl, ?_⟩
  · intro v _
    refine le_trans List.count_le_length ?_
    simp [State.bytesAhead, aabSource, State.reset, bitsOfBytes, aabBytes]
  · obtain ⟨t, h, hp⟩ := exists_next (p := fun t => !t.fault) (r := exec .freqCount aabSource) (by decide +kernel)
    exact ⟨t, h, by simpa using hp⟩

theorem zeros_overflow (m : Nat) (hm : 0 < m) :
    ∃ (s : State) (k : Nat), k < (s.inBits.length - s.inPos) / 8 ∧
      (∀ v, v < 256 → (s.bytesAhead k).count v ≤ m - 1) ∧ (s.bytesAhead k).count (s.byteAt k) = m - 1 := by
  refine ⟨zeros (8 * m), m - 1, ?_, ?_, ?_⟩
  · simp only [zeros, State.reset, List.length_replicate]
    omega
  · intro v _
    rw [zeros_bytesAhead _ _ (by omega)]
    exact le_trans List.count_le_length (by simp)
  · have h := zeros_bytesAhead m m le_rfl
    rw [List.eq_replicate_iff] at h
    have h0 : (zeros (8 * m)).byteAt (m - 1) = 0 :=
      h.2 _ (List.mem_map.mpr ⟨m - 1, List.mem_range.mpr (by omega), rfl⟩)
    rw [h0, zeros_bytesAhead _ _ (by omega), List.count_replicate_self]

theorem witness_FreqCountOverflowFaults :
    ∃ (s : State) (k : Nat), k < (s.inBits.length - s.inPos) / 8 ∧
      (∀ v, v < 256 → (s.bytesAhead k).count v ≤ 2 ^ 32 - 1) ∧ (s.bytesAhead k).count (s.byteAt k) = 2 ^ 32 - 1 :=
  zeros_overflow (2 ^ 32) (by norm_num)

theorem witness_EofCountIsAlwaysOne : aab.freqAt 256 = 1 ∧ ∃ t, step (running .freqCount aab) = .next t := by
  refine ⟨by decide +kernel, ?_⟩
  obtain ⟨t, h, _⟩ := exists_next (p := fun _ => true) (r := step (running .freqCount aab)) (by decide +kernel)
  exact ⟨t, h⟩

theorem aab_builds : aab.freqAt 256 = 1 ∧ ∃ t, exec .build aab = .next t ∧ t.ncount = 5 := by
  refine ⟨by decide +kernel, ?_⟩
  obtain ⟨t, h, hp⟩ := exists_next test_build_aab
  simp only [Bool.and_eq_true, beq_iff_eq] at hp
  exact ⟨t, h, hp.1.2⟩

/-- The symbols of V-S1 are leaves 0 to 2, so entries 3 and 4 are the internal ones. -/
theorem aab_counted : aab.countedSymbols = [65, 66, 256] := by decide +kernel

theorem witness_BuildMakesLeavesAndRoot : aab.freqAt 256 = 1 ∧ aab.countedSymbols[0]? = some 65 ∧
    aab.countedSymbols[2]? = some 256 := by
  rw [aab_counted]; exact ⟨aab_builds.1, rfl, rfl⟩

theorem witness_BuiltInternalNodesAddUp : aab.freqAt 256 = 1 ∧ (∃ t, exec .build aab = .next t) ∧
    aab.countedSymbols.length ≤ 3 ∧ 4 < 2 * aab.countedSymbols.length - 1 := by
  rw [aab_counted]
  exact ⟨aab_builds.1, aab_builds.2.imp fun _ h => h.1, by decide, by decide⟩

theorem witness_BuildMergesTheTwoLeast : ∃ t : State, aab.freqAt 256 = 1 ∧ exec .build aab = .next t ∧
    aab.countedSymbols.length ≤ 4 ∧ 4 < t.ncount.toNat ∧ (∃ n, t.node[4]? = some n) ∧
    ∃ s' t' : State, s'.freq = aab.freq ∧ exec .build s' = .next t' := by
  obtain ⟨h1, t, h2, h3⟩ := aab_builds
  refine ⟨t, h1, h2, by rw [aab_counted]; decide, by rw [h3]; decide, ⟨t.node[4], by simp⟩, aab, t, rfl, h2⟩

theorem witness_EmptyCountsBuildOneLeaf :
    (∀ v, v < 256 → State.reset.freqAt v = 0) ∧ State.reset.freqAt 256 = 1 ∧
      State.reset.fault = false ∧ ∃ t, exec .freqCount State.reset = .next t ∧ t.fault = false := by
  refine ⟨by decide +kernel, by decide +kernel, rfl, ?_⟩
  obtain ⟨t, h, hp⟩ := exists_next (p := fun t => !t.fault) (r := exec .freqCount State.reset) (by decide +kernel)
  exact ⟨t, h, by simpa using hp⟩

theorem witness_NodeRdReadsTheEntry :
    State.reset.treeValid = false ∧ (aab.treeValid = true ∧ aab.ncount.toNat ≤ 5 ∧ 4 < aab.ncount.toNat) ∧
      aab.node[4]? = some ⟨false, 0, 4, 0, 3⟩ ∧ 1023 < 1024 := by
  refine ⟨rfl, ⟨rfl, by decide, by decide⟩, by decide +kernel, by decide⟩

theorem witness_GenCodes : State.reset.treeValid = false ∧ aab.treeValid = true ∧ Holds aab.node aabTree aab.root ∧
    aabTree.inAlphabet ∧ aabTree.depth ≤ 256 ∧ aabTree.distinct ∧ ∃ t, exec .genCodes aab = .next t := by
  refine ⟨rfl, rfl, aab_holds, aab_inAlphabet, by decide, aab_distinct, ?_⟩
  obtain ⟨t, h, _⟩ := exists_next (p := fun _ => true) (r := exec .genCodes aab) (by decide +kernel)
  exact ⟨t, h⟩

theorem witness_GeneratedCodes_lastLeaf :
    aabTree.leaves = [(65, [false])] ++ (66, [true, false]) :: [(256, [true, true])] ∧
      (∀ e ∈ [((256 : Nat), [true, true])], e.1 ≠ 66) ∧ aab.freqAt 256 = 1 ∧ ∃ b, exec .build aab = .next b :=
  ⟨rfl, by decide, aab_builds.1, aab_builds.2.imp fun _ h => h.1⟩

theorem witness_GeneratedCodes_table : ∃ t : State, exec .genCodes aab = .next t ∧ (t.codeAt 65).valid = true ∧
    (t.codeAt 66).valid = true := by
  obtain ⟨t, h, hp⟩ := exists_next (p := fun t => (t.codeAt 65).valid && (t.codeAt 66).valid) (r := exec .genCodes aab)
    (by decide +kernel)
  exact ⟨t, h, by simpa using hp⟩

theorem witness_GeneratedCodes_leafRoot : ∃ s : State, s.treeValid = true ∧ Holds s.node (.leaf 256) s.root ∧
    ∃ t, exec .genCodes s = .next t ∧ (t.codeAt 256).valid = true ∧ (t.codeAt 256).str = [] := by
  refine ⟨{ aab with root := 2 }, rfl, by simp [Holds, aab, aabNode], ?_⟩
  obtain ⟨t, h, hp⟩ := exists_next (p := fun t => (t.codeAt 256).valid && (t.codeAt 256).str == [])
    (r := exec .genCodes { aab with root := 2 }) (by decide +kernel)
  exact ⟨t, h, by simpa using hp⟩

theorem witness_TreeOk : TreeOk aab ∧ Holds aab.node aabTree aab.root ∧ aab.treeValid = true ∧ aab.outClosed = false :=
  ⟨aab_treeOk, aab_holds, rfl, rfl⟩

theorem witness_WellFormedTreeClauses : TreeOk aab ∧ 4 < aab.ncount.toNat ∧
    aab.node[4]? = some ⟨false, 0, 4, 0, 3⟩ ∧ aab.node[2]? = some ⟨true, 256, 1, 0, 0⟩ := by
  refine ⟨aab_treeOk, by decide, by decide +kernel, by decide +kernel⟩

theorem witness_WrHdr : State.reset.treeValid = false ∧
    (aab.treeValid = true ∧ ({ aab with outClosed := true } : State).outClosed = true) ∧
    aab.outClosed = false ∧ TreeOk aab ∧ aabTree.depth ≤ 256 ∧ ∃ t, exec .wrHdr aab = .next t := by
  refine ⟨rfl, ⟨rfl, rfl⟩, rfl, aab_treeOk, by decide, ?_⟩
  obtain ⟨t, h, _⟩ := exists_next (p := fun _ => true) (r := exec .wrHdr aab) (by decide +kernel)
  exact ⟨t, h⟩

theorem witness_RdHdrReadsTheTree : aabTree.inAlphabet ∧ aabTree.size ≤ 513 ∧
    (aabReading (aabTree.header ++ [true])).bitsAhead = aabTree.header ++ [true] ∧
    (chain 256).inAlphabet ∧ (chain 256).size = 513 :=
  ⟨aab_inAlphabet, by decide, rfl, chain_inAlphabet 256, chain_size 256⟩

theorem witness_RdHdrInvertsWrHdr : ∃ t u : State, aab.treeValid = true ∧ aab.outClosed = false ∧ TreeOk aab ∧
    exec .wrHdr aab = .next t ∧ t.outBits = aab.outBits ++ bitsOf 32 0x48290B00 ∧
    u.bitsAhead = bitsOf 32 0x48290B00 ++ [] := by
  obtain ⟨t, h, hp⟩ := exists_next (p := fun t => t.outBits == bitsOf 32 0x48290B00) (r := exec .wrHdr aab)
    (by decide +kernel)
  exact ⟨t, aabReading (bitsOf 32 0x48290B00), rfl, rfl, aab_treeOk, h, by simpa [aab, aabSource, State.reset] using hp, rfl⟩

/-- Source ends: before the first field; inside a leaf's symbol, one bit short; before the structural bit of a 514th
node. -/
theorem witness_RdHdr_truncated :
    (aabTree.fields = [] ++ [false] :: [[true], bitsOf 9 65, [false], [true], bitsOf 9 66, [true], bitsOf 9 256] ∧
      [] <+: [false] ∧ (aabReading []).bitsAhead = [].flatten ++ []) ∧
    ((Shape.leaf 65).fields = [[true]] ++ bitsOf 9 65 :: [] ∧ symbolsLegal [[true]] ∧ nodesBegun [[true]] ≤ 513 ∧
      bitsOf 8 32 <+: bitsOf 9 65 ∧ bitsOf 8 32 ≠ bitsOf 9 65 ∧
      (aabReading (true :: bitsOf 8 32)).bitsAhead = [[true]].flatten ++ bitsOf 8 32) ∧
    ((∃ post, (deep 513).fields = List.replicate 513 [false] ++ [true] :: post) ∧
      symbolsLegal (List.replicate 513 [false]) ∧ nodesBegun (List.replicate 513 [false]) = 513 ∧
      (aabReading ((List.replicate 513 [false]).flatten ++ [])).bitsAhead =
        (List.replicate 513 [false]).flatten ++ []) := by
  refine ⟨⟨rfl, by decide, rfl⟩, ⟨rfl, ?_, by decide, by decide, by decide, rfl⟩, ⟨deep_fields 513, ?_, ?_, rfl⟩⟩
  · unfold symbolsLegal; decide
  · intro f hf h9
    rw [(List.mem_replicate.mp hf).2] at h9
    cases h9
  · exact nodesBegun_zeros 513

/-- A 514th node, and leaves whose symbols are the least and the greatest outside the alphabet. -/
theorem witness_RdHdrRejectsBadHeaders :
    ((∃ post, (deep 513).fields = List.replicate 513 [false] ++ [true] :: post) ∧ [true].length = 1 ∧
      (aabReading ((List.replicate 513 [false]).flatten ++ [true] ++ [])).bitsAhead =
        (List.replicate 513 [false]).flatten ++ [true] ++ []) ∧
    ∀ y ∈ [257, 511], (Shape.leaf y).fields = [[true]] ++ bitsOf 9 y :: [] ∧ nodesBegun [[true]] ≤ 513 ∧
      (bitsOf 9 y).length = 9 ∧ 256 < numeral (bitsOf 9 y) ∧
      (aabReading ([[true]].flatten ++ bitsOf 9 y ++ [])).bitsAhead = [[true]].flatten ++ bitsOf 9 y ++ [] := by
  refine ⟨⟨deep_fields 513, rfl, rfl⟩, fun y hy => ⟨rfl, by decide, by simp, ?_, rfl⟩⟩
  rw [numeral_bitsOf]
  simp only [List.mem_cons, List.not_mem_nil, or_false] at hy
  omega

theorem witness_EncodeWritesThePayload : aab.codesValid = true ∧ aab.outClosed = false ∧
    (∀ b ∈ aab.bytesAhead ((aab.inBits.length - aab.inPos) / 8), (aab.codeAt b).valid = true) ∧
    (aab.codeAt 256).valid = true := by
  refine ⟨rfl, rfl, by decide +kernel, by decide +kernel⟩

theorem witness_EncodeFaults : State.reset.codesValid = false ∧
    (aab.codesValid = true ∧ ({ aab with outClosed := true } : State).outClosed = true) ∧
    (∃ s : State, s.codesValid = true ∧ s.outClosed = false ∧ 1 < (s.inBits.length - s.inPos) / 8 ∧
      (∀ b ∈ s.bytesAhead 1, (s.codeAt b).valid = true) ∧ (s.codeAt (s.byteAt 1)).valid = false) ∧
    (∃ s : State, s.codesValid = true ∧ s.outClosed = false ∧
      (∀ b ∈ s.bytesAhead ((s.inBits.length - s.inPos) / 8), (s.codeAt b).valid = true) ∧
      (s.codeAt 256).valid = false) := by
  refine ⟨rfl, ⟨rfl, rfl⟩, ⟨aabReading (bitsOfBytes [0x41, 0x43]), rfl, rfl, ?_⟩,
    ⟨aab.setCode 256 CodeEntry.absent, rfl, rfl, ?_⟩⟩ <;> decide +kernel

theorem witness_NoMissingCodeAfterCounting : ∃ counted built coded u : State,
    aabSource.fault = false ∧ exec .freqCount aabSource = .next counted ∧ counted.fault = false ∧
      exec .build counted = .next built ∧ exec .genCodes built = .next coded ∧
      u.fault = false ∧ u.codesValid = true ∧ u.outClosed = false ∧ u.code = coded.code ∧
      u.inBits = aabSource.inBits ∧ u.inPos = aabSource.inPos := by
  obtain ⟨c, hc, h⟩ := exists_next (r := exec .freqCount aabSource)
    (p := fun c => !c.fault && nextWith (fun b => nextWith (fun g => !g.fault && g.codesValid && !g.outClosed)
      (exec .genCodes b)) (exec .build c)) (by decide +kernel)
  rw [Bool.and_eq_true] at h
  obtain ⟨b, hb, h'⟩ := exists_next h.2
  obtain ⟨g, hg, h''⟩ := exists_next h'
  simp only [Bool.and_eq_true, Bool.not_eq_true'] at h''
  exact ⟨c, b, g, { g with inBits := aabSource.inBits, inPos := aabSource.inPos }, rfl, hc, by simpa using h.1, hb, hg,
    h''.1.1, h''.1.2, h''.2, rfl, rfl, rfl⟩

theorem witness_DecodeWritesTheMessage : aab.treeValid = true ∧ aab.outClosed = false ∧
    Holds aab.node aabTree aab.root ∧ Holds aab.node (.leaf 256) 2 ∧
    (∀ e ∈ [((65 : Nat), [false]), (66, [true, false])], e ∈ aabTree.leaves ∧ e.1 < 256) ∧
    (256, [true, true]) ∈ aabTree.leaves ∧
    (aabReading [false, true, false, true, true, false]).bitsAhead =
      [((65 : Nat), [false]), (66, [true, false])].flatMap Prod.snd ++ [true, true] ++ [false] := by
  refine ⟨rfl, rfl, aab_holds, by simp [Holds, aab, aabNode], by decide, by decide, rfl⟩

theorem witness_DecodeFaults : State.reset.treeValid = false ∧ ({ aab with outClosed := true } : State).outClosed = true ∧
    (Holds aab.node (.leaf 65) 0 ∧ 65 ≠ 256) ∧
    ((∀ e ∈ [((65 : Nat), [false])], e ∈ aabTree.leaves ∧ e.1 < 256) ∧ (66, [true, false]) ∈ aabTree.leaves ∧
      [true] <+: [true, false] ∧ [true] ≠ [true, false] ∧
      (aabReading [false, true]).bitsAhead = [((65 : Nat), [false])].flatMap Prod.snd ++ [true]) := by
  refine ⟨rfl, rfl, ⟨by simp [Holds, aab, aabNode], by decide⟩, by decide, by decide, by decide,
    by decide, rfl⟩

theorem witness_DecSymReadsOneSymbol : State.reset.treeValid = false ∧ aab.treeValid = true ∧
    Holds aab.node aabTree aab.root ∧ (66, [true, false]) ∈ aabTree.leaves ∧
    (aabReading [true, false, true]).bitsAhead = [true, false] ++ [true] ∧
    ([] <+: [true, false] ∧ [] ≠ [true, false] ∧ (aabReading []).bitsAhead = []) := by
  refine ⟨rfl, rfl, aab_holds, by decide, rfl, by decide, by decide, rfl⟩

theorem witness_DecodeIsRepeatedDecSym :
    (aab.treeValid = true ∧ aab.outClosed = false ∧ aab.fault = false ∧ Holds aab.node aabTree aab.root ∧
      aabTree.inAlphabet) ∧
    (∃ t, exec .decSym (aabReading []) = .next t ∧ t.fault = true) ∧
    (∃ t, exec .decSym (aabReading [true, true]) = .next t ∧ t.fault = false ∧ t.res0 = 256) ∧
    ∃ t, exec .decSym (aabReading [false]) = .next t ∧ t.fault = false ∧ t.res0 ≠ 256 := by
  refine ⟨⟨rfl, rfl, rfl, aab_holds, aab_inAlphabet⟩, ?_, ?_, ?_⟩
  · exact exists_next (p := State.fault) (by decide +kernel)
  · obtain ⟨t, h, hp⟩ := exists_next (p := fun t => !t.fault && t.res0 == 256) (r := exec .decSym (aabReading [true, true]))
      (by decide +kernel)
    exact ⟨t, h, by simpa using hp⟩
  · obtain ⟨t, h, hp⟩ := exists_next (p := fun t => !t.fault && t.res0 != 256) (r := exec .decSym (aabReading [false]))
      (by decide +kernel)
    exact ⟨t, h, by simpa using hp⟩

theorem witness_DecodeInvertsEncode : ∃ t u : State, aabTree.inAlphabet ∧ aabTree.distinct ∧ aabTree.depth ≤ 256 ∧
    aab.codesValid = true ∧ aab.outClosed = false ∧ aab.fault = false ∧ aab.code = aabTree.codeTable ∧
    exec .encode aab = .next t ∧ t.fault = false ∧ t.outBits = aab.outBits ++ [false, false, true, false, true, true] ∧
    u.treeValid = true ∧ u.outClosed = false ∧ Holds u.node aabTree u.root ∧
    u.bitsAhead = [false, false, true, false, true, true] ++ [false, false] := by
  obtain ⟨t, h, hp⟩ := exists_next (p := fun t => !t.fault && t.outBits == [false, false, true, false, true, true])
    (r := exec .encode aab) (by decide +kernel)
  simp only [Bool.and_eq_true, Bool.not_eq_true', beq_iff_eq] at hp
  exact ⟨t, aabReading [false, false, true, false, true, true, false, false], aab_inAlphabet, aab_distinct, by decide, rfl,
    rfl, rfl, aab_codeTable, h, hp.1, hp.2, rfl, rfl, aab_holds, rfl⟩

theorem witness_Tag : ({ aab with outClosed := true } : State).outClosed = true ∧ aab.outClosed = false ∧
    (aabReading (bitsOf 31 0)).bitsAhead.length < 32 ∧ 32 ≤ (aabReading (bitsOf 32 0)).bitsAhead.length ∧
    numeral ((aabReading (bitsOf 32 Config.MAGIC.toNat)).bitsAhead.take 32) = Config.MAGIC.toNat ∧
    numeral ((aabReading (bitsOf 32 (Config.MAGIC.toNat + 1))).bitsAhead.take 32) ≠ Config.MAGIC.toNat := by
  have e : ∀ v, (aabReading (bitsOf 32 v)).bitsAhead.take 32 = bitsOf 32 v := by
    intro v
    exact List.take_of_length_le (length_bitsOf 32 v).le
  have hm := Config.MAGIC.isLt
  refine ⟨rfl, rfl, by decide, by decide, ?_, ?_⟩
  · rw [e, numeral_bitsOf]; omega
  · rw [e, numeral_bitsOf]; omega

theorem witness_StepKeepsStatusOk : StatusOk (doing (.write 32 0 0x73) faulted) ∧
    ∃ t, step (doing (.write 32 0 0x73) faulted) = .next t :=
  ⟨faulted_statusOk _, (exists_next (p := fun _ => true) (by decide +kernel)).imp fun _ h => h.1⟩

theorem aab_running_treeOk (i : Instr) : TreeOk (running i aab) := aab_treeOk

theorem witness_StepKeepsTreeValidOk : TreeValidOk (running .genCodes aab) ∧ (running .genCodes aab).treeValid = true ∧
    ∃ t, step (running .genCodes aab) = .next t :=
  ⟨fun _ => aab_running_treeOk _, rfl, (exists_next (p := fun _ => true) (by decide +kernel)).imp fun _ h => h.1⟩

theorem witness_StepKeepsCodesValidOk : CodesValidOk (running .encode aab) ∧ (running .encode aab).codesValid = true ∧
    ∃ t, step (running .encode aab) = .next t :=
  ⟨fun _ => ⟨aabTree, aab_holds, aab_codeTable⟩, rfl,
    (exists_next (p := fun _ => true) (by decide +kernel)).imp fun _ h => h.1⟩

theorem witness_EveryAcceptedCommandCompletes : (running .wrHdr aab).freqAt 256 = 1 ∧ TreeValidOk (running .wrHdr aab) ∧
    EngineRuns (running .wrHdr aab) { running .wrHdr aab with inputs := [] } :=
  ⟨aab_builds.1, fun _ => aab_running_treeOk _, rfl, rfl⟩

/-- The record stays when SNK_CLOSE runs, and is cleared when CLRF runs. -/
theorem witness_FaultRecordIsNeverOverwritten : StatusOk (doing (.write 32 0 0x20) faulted) ∧
    (∃ t, step (doing (.write 32 0 0x20) faulted) = .next t) ∧ (doing (.write 32 0 0x20) faulted).fault = true ∧
    StatusOk (doing .reset faulted) ∧ (∃ t, step (doing .reset faulted) = .next t) :=
  ⟨faulted_statusOk _, (exists_next (p := fun _ => true) (by decide +kernel)).imp fun _ h => h.1, rfl, faulted_statusOk _,
    (exists_next (p := fun _ => true) (by decide +kernel)).imp fun _ h => h.1⟩

theorem witness_LostIsSticky :
    (∃ s t : State, step s = .next t ∧ s.lost = true ∧ t.lost = false) ∧
    (∃ s t : State, step s = .next t ∧ s.lost = false ∧ t.lost = true) ∧
    EngineRuns (running .clrf faulted) { running .clrf faulted with inputs := [] } ∧
    decode ({ running .clrf faulted with inputs := [] } : State).cur = .ok .clrf := by
  refine ⟨?_, ?_, ⟨rfl, rfl⟩, by decide⟩
  · obtain ⟨t, h, hp⟩ := exists_next (p := fun t => !t.lost) (r := step (running .clrf { faulted with lost := true }))
      (by decide +kernel)
    exact ⟨_, t, h, rfl, by simpa using hp⟩
  · obtain ⟨t, h, hp⟩ := exists_next (p := State.lost) (r := step (doing (.write 32 0 0x20) faulted)) (by decide +kernel)
    exact ⟨_, t, h, rfl, hp⟩

theorem witness_StateChangesOnlyByItsCommands : Instr.build ≠ .sreset ∧
    (∃ t, exec .build aab = .next t) ∧ (∃ t, exec (.freqRd 257) aab = .next t ∧ t.fault = true ∧ aab.fault = false) ∧
    (Instr.build ≠ .freqClr ∧ Instr.build ≠ .freqCount ∧ ∀ v, Instr.build ≠ .freqWr v) := by
  refine ⟨by decide, aab_builds.2.imp fun _ h => h.1, ?_, by decide, by decide, fun _ h => by cases h⟩
  obtain ⟨t, h, hp⟩ := exists_next (p := State.fault) (r := exec (.freqRd 257) aab) (by decide +kernel)
  exact ⟨t, h, hp, rfl⟩

theorem witness_PortsChangeOnlyAsTheSpecSays : ∃ s t : State, step s = .next t ∧ s.outClosed = true := by
  obtain ⟨t, h, _⟩ := exists_next (p := fun _ => true) (r := step (running .wrTag { aab with outClosed := true }))
    (by decide +kernel)
  exact ⟨_, t, h, rfl⟩

theorem witness_CompressThenDecompressRoundTrips : (∀ b, aabBytes.count b ≤ 2 ^ 32 - 1) ∧
    (∃ s : State, Idle s ∧ FreshPorts s (bitsOfBytes aabBytes) ∧ s.inputs = compressInputs) ∧
    ∀ stream : List Bool, ∃ u : State, Idle u ∧ FreshPorts u stream ∧ u.inputs = decompressInputs :=
  ⟨fun _ => le_trans List.count_le_length (by decide),
    ⟨{ aabSource with inputs := compressInputs }, ⟨rfl, rfl⟩, ⟨rfl, rfl, rfl, rfl⟩, rfl⟩,
    fun stream => ⟨{ State.reset with inBits := stream, inputs := decompressInputs }, ⟨rfl, rfl⟩, ⟨rfl, rfl, rfl, rfl⟩, rfl⟩⟩

end Sys2Proof.Tests
end

section
/-! Reads of the register window, the layout of STATUS and TREEINFO, and FREQ[256] = 1 as an invariant of every step
(10_state.md R23, R28, R30). -/

namespace Sys2Proof.Machine

/-! ### STATUS and TREEINFO, bit by bit (10_state.md R23, R28) -/

@[simp] theorem getElem_flagAt (b : Bool) (p i : Nat) (hi : i < 32) : (flagAt b p)[i] = (decide (i = p) && b) := by
  rcases Nat.lt_trichotomy i p with h | rfl | h
  · simp [flagAt, h, h.ne]
  · simp [flagAt]
  · simp [flagAt, h.ne', show i - p ≠ 0 by omega]

theorem statusWord_flags (s : State) :
    s.statusWord.getLsbD 0 = s.busy ∧ s.statusWord.getLsbD 1 = s.done ∧ s.statusWord.getLsbD 2 = s.fault ∧
    s.statusWord.getLsbD 3 = s.lost ∧ s.statusWord.getLsbD 4 = s.treeValid ∧ s.statusWord.getLsbD 5 = s.codesValid ∧
    s.statusWord.getLsbD 6 = s.outClosed ∧ s.statusWord.getLsbD 7 = false := by
  simp [State.statusWord]

/-- From bit 8 up STATUS is FCODE, which no flag reaches (10_state.md R23). -/
theorem getLsbD_statusWord_of_ge (s : State) {i : Nat} (h8 : 8 ≤ i) (hi : i < 32) :
    s.statusWord.getLsbD i = s.fcode.getLsbD (i - 8) := by
  have hflag : ∀ k, k < 7 → i ≠ k := by omega
  simp [State.statusWord, hi, hflag, h8]

theorem statusWord_fcode (s : State) : s.statusWord.extractLsb' 8 8 = s.fcode := by
  ext i hi
  rw [BitVec.getElem_extractLsb', getLsbD_statusWord_of_ge s (by omega) (by omega)]
  simp [hi]

theorem statusWord_high (s : State) : s.statusWord.extractLsb' 16 16 = 0 := by
  ext i hi
  rw [BitVec.getElem_extractLsb', getLsbD_statusWord_of_ge s (by omega) (by omega), BitVec.getLsbD_of_ge _ _ (by omega)]
  simp

/-- Every bit of TREEINFO: bits 0 to 9 are NCOUNT, bits 16 to 25 are ROOT, no other bit is ever 1 (10_state.md R28). -/
theorem getLsbD_treeInfo (s : State) {i : Nat} (hi : i < 32) : s.treeInfo.getLsbD i =
    if i < 16 then s.ncount.getLsbD i else s.root.getLsbD (i - 16) := by
  by_cases h : i < 16
  · simp [State.treeInfo, hi, h]
  · simp [State.treeInfo, hi, h, BitVec.getLsbD_of_ge s.ncount i (by omega)]

theorem treeInfo_ncount (s : State) : s.treeInfo.extractLsb' 0 10 = s.ncount := by
  ext i hi
  rw [BitVec.getElem_extractLsb', getLsbD_treeInfo s (by omega), if_pos (by omega)]
  simp [hi]

theorem treeInfo_root (s : State) : s.treeInfo.extractLsb' 16 10 = s.root := by
  ext i hi
  rw [BitVec.getElem_extractLsb', getLsbD_treeInfo s (by omega), if_neg (by omega)]
  simp [hi]

theorem treeInfo_middle (s : State) : s.treeInfo.extractLsb' 10 6 = 0 := by
  ext i hi
  rw [BitVec.getElem_extractLsb', getLsbD_treeInfo s (by omega), if_pos (by omega), BitVec.getLsbD_of_ge _ _ (by omega)]
  simp

theorem treeInfo_high (s : State) : s.treeInfo.extractLsb' 26 6 = 0 := by
  ext i hi
  rw [BitVec.getElem_extractLsb', getLsbD_treeInfo s (by omega), if_neg (by omega), BitVec.getLsbD_of_ge _ _ (by omega)]
  simp

/-! ### A read of the register window (20_memory.md R71, R72) -/

theorem accessRefusal_none {off : Nat} (ha : off % 4 = 0) (hw : off < 256) : accessRefusal 32 off = none := by
  simp [accessRefusal, ha, hw]

@[simp] theorem State.readIdle_withInputs (s : State) (l : List Input) (off : Nat) :
    State.readIdle { s with inputs := l } off = s.readIdle off := by
  unfold State.readIdle
  split <;> rfl

theorem State.hostRead_idle {s : State} (hb : s.busy = false) (off : Nat) :
    s.hostRead off = { s with rdata := s.readIdle off } := by
  rw [State.hostRead, if_neg (by simp [hb])]

/-- A read at an aligned offset of the window is taken off the host's list and carried out. -/
theorem step_read {s : State} {off : Nat} {rest : List Input} (hin : s.inputs = .read 32 off :: rest)
    (ha : off % 4 = 0) (hw : off < 256) : step s = .next (State.hostRead { s with inputs := rest } off) := by
  have hturn : nextTurn s = .host (.read 32 off) { s with inputs := rest } := by unfold nextTurn; rw [hin]
  simp only [step, hturn, hostTurn, accessRefusal_none ha hw]

/-- While BUSY = 0 such a read returns the register's value and changes nothing else. -/
theorem step_read_idle {s : State} {off : Nat} {rest : List Input} (hin : s.inputs = .read 32 off :: rest)
    (ha : off % 4 = 0) (hw : off < 256) (hb : s.busy = false) :
    step s = .next { s with inputs := rest, rdata := s.readIdle off } := by
  rw [step_read hin ha hw, State.hostRead_idle (s := { s with inputs := rest }) hb, State.readIdle_withInputs]

/-- Settles O9: the read is `step_read_idle` at offset 0x20, and the lemmas above place each field in its register. -/
theorem statusAndTreeInfoLayout : Obligations.StatusAndTreeInfoLayout := by
  intro s
  obtain ⟨b0, b1, b2, b3, b4, b5, b6, b7⟩ := statusWord_flags s
  exact ⟨fun rest hin hb => step_read_idle hin rfl (by decide) hb,
    ⟨treeInfo_ncount s, treeInfo_middle s, treeInfo_root s, treeInfo_high s⟩,
    b0, b1, b2, b3, b4, b5, b6, b7, statusWord_fcode s, statusWord_high s⟩

/-! ### What every next state of a command has

`Post p r` is a command's postcondition: it says nothing of the two stops that leave no next state. The rules follow the
ways a command can end (`finish`, `raise`, a stop) and the shapes a command's text has. -/

/-- Whatever next state the outcome leads to has the property `p`. -/
def Post (p : State → Prop) (r : Res) : Prop := ∀ t, r = .next t → p t

section
variable {p : State → Prop}

theorem Post.finish {u : State} (h : p u.complete) : Post p (finish u) := by
  rintro _ ⟨⟩
  exact h

theorem Post.raise {c : FaultCode} {d : Word} {u : State} (h : p (u.recordFault c d).complete) :
    Post p (raise c d u) := by
  rintro _ ⟨⟩
  exact h

theorem Post.stop {f : Fault} : Post p (.fault f) := by
  rintro _ ⟨⟩

theorem Post.ite {b : Prop} [Decidable b] {r r' : Res} (h : Post p r) (h' : Post p r') :
    Post p (if b then r else r') := by
  split
  exacts [h, h']

end

/-! ### The walks and reads keep FREQ -/

theorem walk_freq {d : Nat} {i : BitVec 10} {path : List Bool} {s u : State} (h : walk d i path s = some u) :
    u.freq = s.freq := by
  obtain ⟨tree, -, -, -, rfl⟩ := walk_some h
  rw [setCodes_frame]

theorem put_freq {d : Nat} {i : BitVec 10} {s u : State} (h : put d i s = some u) : u.freq = s.freq := by
  obtain ⟨_, -, -, rfl⟩ := put_some h
  rfl

theorem srcRead_freq {s u : State} {w v : Nat} (h : s.srcRead w = some (v, u)) : u.freq = s.freq := by
  obtain ⟨-, -, rfl⟩ := srcRead_some h
  rfl

theorem ReadFrame.freq {s u : State} (h : ReadFrame s u) : u.freq = s.freq := by
  rw [h.1]

/-! ### Which commands write FREQ -/

/-- Only SRESET, FREQ_CLR, FREQ_COUNT and FREQ_WR write the frequency table (10_state.md R29). -/
theorem exec_freq {i : Instr} (hsreset : i ≠ .sreset) (hclr : i ≠ .freqClr) (hcount : i ≠ .freqCount)
    (hwr : ∀ sym, i ≠ .freqWr sym) (s : State) : Post (fun t => t.freq = s.freq) (exec i s) := by
  cases i with
  | sreset => exact absurd rfl hsreset
  | freqClr => exact absurd rfl hclr
  | freqCount => exact absurd rfl hcount
  | freqWr sym => exact absurd rfl (hwr sym)
  | nop | clrf | srcRewind => exact .finish rfl
  | snkClose => exact .finish (State.snkClose_freq s)
  | freqRd | wrTag => exact .ite (.raise rfl) (.finish rfl)
  | codeRd => exact .ite (.raise rfl) (.ite (.raise rfl) (.finish rfl))
  | encSym => exact .ite (.raise rfl) (.ite (.raise rfl) (.ite (.raise rfl) (.ite (.raise rfl) (.finish rfl))))
  | build =>
    simp only [exec, execBuild]
    split
    exacts [.stop, .finish rfl]
  | nodeRd idx =>
    refine .ite (.raise rfl) (.ite (.raise rfl) ?_)
    split
    exacts [.stop, .finish rfl]
  | genCodes =>
    refine .ite (.raise rfl) ?_
    split
    · exact .stop
    · rename_i u h
      have hu : u.freq = s.freq := (walk_freq h).trans s.clearCodes_freq
      exact .finish hu
  | wrHdr =>
    refine .ite (.raise rfl) (.ite (.raise rfl) ?_)
    split
    · exact .stop
    · rename_i u h
      have hu : u.freq = s.freq := put_freq h
      exact .finish hu
  | rdHdr =>
    have hend := getHeader_ends (Config.NODE_CAP + 1) 0 s.dropTree (Nat.zero_le _)
    simp only [exec, execRdHdr]
    split <;> rename_i h <;> rw [h] at hend
    · obtain ⟨hread, -⟩ := hend
      exact .raise hread.freq
    · obtain ⟨-, -, -, hread⟩ := hend
      exact .finish hread.freq
  | encode =>
    refine .ite (.raise rfl) (.ite (.raise rfl) ?_)
    obtain ⟨u, hframe, -, hend⟩ := encodeLoop_ends s.bytesLeft s
    have hu : u.freq = s.freq := by rw [hframe]
    obtain h | ⟨v, -, h⟩ := hend <;> rw [h]
    exacts [.finish hu, .raise hu]
  | decode =>
    refine .ite (.raise rfl) (.ite (.raise rfl) ?_)
    split
    · exact .stop
    · refine .ite (.ite (.finish rfl) (.raise rfl)) ?_
      obtain ⟨u, hframe, -, hend⟩ := decodeLoop_ends s.bitsLeft _ s
      have hu : u.freq = s.freq := by rw [hframe]
      obtain h | h | h := hend <;> rw [h]
      exacts [.finish hu, .raise hu, .stop]
  | decSym =>
    refine .ite (.raise rfl) ?_
    split
    · exact .stop
    · obtain ⟨u, hframe, hend⟩ := decSymLoop_ends s.bitsLeft _ 0 s
      have hu : u.freq = s.freq := by rw [hframe]
      obtain ⟨sym, bits, h⟩ | h | h := hend <;> rw [h]
      exacts [.finish hu, .raise hu, .stop]
  | chkTag =>
    simp only [exec, execChkTag]
    split
    · exact .raise rfl
    · rename_i u h
      have hu : u.freq = s.freq := srcRead_freq h
      exact .ite (.finish hu) (.raise hu)

theorem execIllegal_freq (s : State) : Post (fun t => t.freq = s.freq) (execIllegal s) := .raise rfl

/-! ### FREQ[256] (10_state.md R30) -/

theorem freqAt_congr {s t : State} (h : t.freq = s.freq) (v : Nat) : t.freqAt v = s.freqAt v := by
  rw [State.freqAt, State.freqAt, h]

theorem freqAt_complete (s : State) (v : Nat) : s.complete.freqAt v = s.freqAt v := freqAt_congr rfl v

theorem freqAt_reset_eof : State.reset.freqAt 256 = 1 := by
  simp [State.freqAt, State.reset]

/-- FREQ_COUNT's loop writes FREQ[256] only when it finishes: its bytes count entries below 256 (41_frequency.md R141). -/
theorem countLoop_eofCount (k : Nat) (s : State) : ∃ u : State, u.freqAt 256 = s.freqAt 256 ∧
    (countLoop k s = finish (u.setFreq Config.PSEUDO_EOF 1) ∨ ∃ d, countLoop k s = raise .countOverflow d u) := by
  induction k generalizing s with
  | zero => exact ⟨s, rfl, .inl rfl⟩
  | succ k ih =>
    simp only [countLoop]
    split
    · exact ⟨s, rfl, .inl rfl⟩
    · rename_i v s1 h
      have hv : v < 256 := srcRead_lt h
      have h1 : s1.freqAt 256 = s.freqAt 256 := freqAt_congr (srcRead_freq h) 256
      split
      · exact ⟨s1, h1, .inr ⟨_, rfl⟩⟩
      · obtain ⟨u, hu, hend⟩ := ih (s1.setFreq v (s1.freqAt v + 1))
        refine ⟨u, ?_, hend⟩
        rw [hu, freqAt_setFreq _ _ _ _ hv.le, if_neg hv.ne', h1]

theorem freqAt_setFreq_eof (s : State) : (s.setFreq Config.PSEUDO_EOF 1).freqAt 256 = 1 := by
  rw [freqAt_setFreq s _ _ _ le_rfl, if_pos rfl]

/-- Every command keeps FREQ[256] = 1: FREQ_CLR and FREQ_COUNT write 1 to it, FREQ_WR cannot name it, SRESET resets it. -/
theorem exec_eofCount (i : Instr) {s : State} (hs : s.freqAt 256 = 1) : Post (fun t => t.freqAt 256 = 1) (exec i s) := by
  cases i with
  | sreset => exact .finish freqAt_reset_eof
  | freqClr => exact .finish (freqAt_setFreq_eof s.clearCounts)
  | freqCount =>
    change Post _ (countLoop s.bytesLeft s.clearCounts)
    obtain ⟨u, hu, h | ⟨d, h⟩⟩ := countLoop_eofCount s.bytesLeft s.clearCounts <;> rw [h]
    · exact .finish (freqAt_setFreq_eof u)
    · rw [freqAt_clearCounts, if_neg (by decide), hs] at hu
      exact .raise hu
  | freqWr sym =>
    simp only [exec, execFreqWr]
    split
    · exact .raise hs
    · rename_i hsym
      have hlt : sym ≤ 255 := by simpa [symIsByte] using hsym
      refine .finish ?_
      rw [freqAt_complete, freqAt_setFreq _ _ _ _ (by omega), if_neg (by omega), hs]
  | _ =>
    intro t ht
    rw [freqAt_congr (exec_freq (by simp) (by simp) (by simp) (by simp) s t ht), hs]

/-! ### The host's actions -/

theorem State.hostRead_freq (s : State) (off : Nat) : (s.hostRead off).freq = s.freq := by
  unfold State.hostRead
  split <;> rfl

theorem State.offer_freq (s : State) (c : Word) : (s.offer c).freq = s.freq := by
  unfold State.offer
  split
  · rfl
  · split <;> rfl

theorem State.hostWrite_freq (s : State) (off : Nat) (v : Word) : (s.hostWrite off v).freq = s.freq := by
  unfold State.hostWrite
  split
  exacts [s.offer_freq v, rfl, rfl]

theorem State.waitDone_freq (s : State) (closeSink : Bool) : (s.waitDone closeSink).freq = s.freq := by
  unfold State.waitDone
  dsimp only
  split <;> rfl

theorem State.resetInput_freq (s : State) : s.resetInput.freq = State.reset.freq := by
  unfold State.resetInput
  split <;> rfl

theorem step_eofCount {s t : State} (hs : s.freqAt 256 = 1) (h : step s = .next t) : t.freqAt 256 = 1 := by
  have keeps : ∀ {u : State}, u.freq = s.freq → u.freqAt 256 = 1 := fun e => (freqAt_congr e 256).trans hs
  have turn : ∀ {u : State}, nextTurn s = .engine u → u.freqAt 256 = 1 := fun hu => keeps (by rw [nextTurn_engine hu])
  rcases step_cases h with ⟨u, i, hu, -, -, h⟩ | ⟨u, e, hu, -, -, h⟩ | ⟨hu, -⟩ | ⟨rest, off, v, -, -, -, rfl⟩ |
    ⟨rest, off, -, -, -, rfl⟩ | ⟨rest, bits, -, -, rfl⟩ | ⟨rest, -, -, rfl⟩ | ⟨rest, -, rfl⟩ | ⟨rest, b, -, -, -, rfl⟩
  · exact exec_eofCount i (turn hu) t h
  · exact (freqAt_congr (execIllegal_freq u t h) 256).trans (turn hu)
  · exact turn hu
  · exact keeps (State.hostWrite_freq ..)
  · exact keeps (State.hostRead_freq ..)
  · exact keeps rfl
  · exact keeps rfl
  · exact (freqAt_congr (State.resetInput_freq _) 256).trans freqAt_reset_eof
  · exact keeps (State.waitDone_freq ..)

/-- Settles O22: it holds of the reset state, and every step keeps it, by the cases a step can be. -/
theorem eofCountIsAlwaysOne : Obligations.EofCountIsAlwaysOne :=
  ⟨freqAt_reset_eof, fun _ _ => step_eofCount⟩

end Sys2Proof.Machine
end

section
/-! Register accesses inside and outside the window, and the two port commands SRC_REWIND and SNK_CLOSE
(20_memory.md R61, R63, R70 to R72; 47_framing_ports.md R262, R263). -/

namespace Sys2Proof.Machine

/-! ### A host step -/

/-- Any input but the two that let the engine move is taken off the host's list and carried out. -/
theorem step_host {s : State} {a : Input} {rest : List Input} (hin : s.inputs = a :: rest) (hengine : a ≠ .engine)
    (hwait : ∀ b, a ≠ .wait b) : step s = hostTurn a { s with inputs := rest } := by
  have hturn : nextTurn s = .host a { s with inputs := rest } := by
    cases a with
    | engine => exact absurd rfl hengine
    | wait b => exact absurd rfl (hwait b)
    | _ => simp only [nextTurn, hin]
  simp only [step, hturn]

/-- A write at an aligned offset of the window is taken off the host's list and carried out. -/
theorem step_write {s : State} {off : Nat} {v : Word} {rest : List Input} (hin : s.inputs = .write 32 off v :: rest)
    (ha : off % 4 = 0) (hw : off < 256) : step s = .next (State.hostWrite { s with inputs := rest } off v) := by
  rw [step_host hin (by simp) (by simp)]
  simp only [hostTurn, accessRefusal_none ha hw]

/-! ### CMD, the reserved offsets and the ignored writes (20_memory.md R71, R72) -/

theorem State.readIdle_eq_zero (s : State) {off : Nat} (h : off = 0x00 ∨ 0x24 ≤ off) : s.readIdle off = 0 := by
  unfold State.readIdle
  split
  case h_9 => rfl
  all_goals omega

theorem State.readBusy_eq_zero (s : State) (w : Word) {off : Nat} (h : off = 0x00 ∨ 0x24 ≤ off) :
    s.readBusy w off = 0 := by
  unfold State.readBusy
  split
  case h_9 => rfl
  all_goals omega

theorem State.hostRead_rdata_eq_zero (s : State) {off : Nat} (h : off = 0x00 ∨ 0x24 ≤ off) :
    (s.hostRead off).rdata = 0 := by
  unfold State.hostRead
  split
  · exact s.readBusy_eq_zero _ h
  · exact s.readIdle_eq_zero h

/-- Only CMD and ARG can be written. -/
theorem State.hostWrite_ignored (s : State) {off : Nat} (v : Word) (hcmd : off ≠ 0x00) (harg : off ≠ 0x08) :
    s.hostWrite off v = s := by
  unfold State.hostWrite
  split
  · exact absurd rfl hcmd
  · exact absurd rfl harg
  · rfl

/-- Settles O8: the reads are `step_read_idle` and `step_read`, the writes `step_write`, with the value or the effect at
each offset. -/
theorem registerWindow : Obligations.RegisterWindow := by
  intro s off rest ha hw
  refine ⟨fun hin hb => ⟨s.readIdle off, step_read_idle hin ha hw hb, ?_⟩, fun hin hoff => ?_, fun v hin => ⟨?_, ?_⟩⟩
  · refine ⟨?_, ?_, ?_, ?_, ?_, ?_, ?_, ?_, ?_, fun h => s.readIdle_eq_zero (.inr h)⟩ <;> (rintro rfl; rfl)
  · exact ⟨_, step_read hin ha hw, State.hostRead_rdata_eq_zero _ hoff⟩
  · rintro rfl
    exact step_write hin ha hw
  · intro hcmd harg
    rw [step_write hin ha hw, State.hostWrite_ignored _ v hcmd harg]

/-! ### The accesses that have no meaning (20_memory.md R70) -/

theorem accessRefusal_some {width off : Nat} (h : width ≠ 32 ∨ off % 4 ≠ 0 ∨ 256 ≤ off) :
    ∃ r, accessRefusal width off = some r := by
  unfold accessRefusal
  split
  · exact ⟨_, rfl⟩
  · split
    · exact ⟨_, rfl⟩
    · exact ⟨_, if_pos (by omega)⟩

/-- Settles O11: the access is a host step, and `accessRefusal` names why it is refused. -/
theorem otherAccessesAreRefused : Obligations.OtherAccessesAreRefused := by
  intro s width off v rest hbad hin
  obtain ⟨r, hr⟩ := accessRefusal_some hbad
  refine ⟨r, ?_⟩
  rcases hin with hin | hin <;> simp only [step_host hin (by simp) (by simp), hostTurn, hr]

/-! ### SRC_REWIND and SNK_CLOSE (47_framing_ports.md R262, R263) -/

theorem exec_srcRewind (s : State) : exec .srcRewind s = finish s.srcRewind := rfl

theorem exec_snkClose (s : State) : exec .snkClose s = finish s.snkClose := rfl

theorem padding_lt (n : Nat) : padding n < 8 := Nat.mod_lt _ (by decide)

theorem dvd_add_padding (n : Nat) : 8 ∣ n + padding n := by
  unfold padding
  omega

theorem State.snkClose_of_closed {s : State} (h : s.outClosed = true) : s.snkClose = s := if_pos h

theorem State.snkClose_of_open {s : State} (h : s.outClosed = false) : s.snkClose =
    { s with outBits := s.outBits ++ List.replicate (padding s.outBits.length) false, outClosed := true } :=
  if_neg (by simp [h])

/-- Settles O49: both commands finish in what the port operation makes, and the padding is the k asked for. -/
theorem rewindAndCloseThePorts : Obligations.RewindAndCloseThePorts := by
  refine ⟨by decide, by decide, fun s => ⟨completes_of_finish (exec_srcRewind s), fun hclosed => ?_, fun hopen => ?_⟩⟩
  · exact completes_of_finish (by rw [exec_snkClose, State.snkClose_of_closed hclosed])
  · refine ⟨padding s.outBits.length, padding_lt _, dvd_add_padding _, completes_of_finish ?_⟩
    rw [exec_snkClose, State.snkClose_of_open hopen]

end Sys2Proof.Machine
end

section
/-! The opcode map as the decoder reads it, an illegal word offered to the engine, and the expansion of the
pseudo-commands (30_encoding.md R96 to R101; 40_control.md R120 to R123). -/

namespace Sys2Proof

/-! ### Words and rows (30_encoding.md R90 to R96) -/

theorem opcodeOf_eq_toNat_and (c : Word) : opcodeOf c = (c &&& 0xFF#32).toNat := by
  simp only [opcodeOf, BitVec.extractLsb'_toNat, BitVec.toNat_and, Nat.shiftRight_zero]
  exact (Nat.and_two_pow_sub_one_eq_mod c.toNat 8).symm

theorem opcodeOf_lt (c : Word) : opcodeOf c < 256 := (c.extractLsb' 0 8).isLt

/-- Every row fixes the whole opcode byte, and its pattern has no bit outside it. -/
theorem opcodeMap_opcode_byte : ∀ r ∈ opcodeMap, r.mask &&& 0xFF#32 = 0xFF#32 ∧ r.pattern &&& 0xFF#32 = r.pattern := by
  decide

/-- No opcode has two rows. -/
theorem opcodeMap_patterns_nodup : (opcodeMap.map OpcodeRow.pattern).Nodup := by decide

/-- A word belongs to a row when it has the row's opcode and none of the row's reserved bits. -/
theorem matchesWord_iff {r : OpcodeRow} (hr : r ∈ opcodeMap) (c : Word) :
    r.matchesWord c = true ↔ r.pattern.toNat = opcodeOf c ∧ c &&& (r.mask ^^^ 0xFF#32) = 0 := by
  obtain ⟨hmask, hpattern⟩ := opcodeMap_opcode_byte r hr
  have hlow : c &&& r.mask &&& 0xFF#32 = c &&& 0xFF#32 := by rw [BitVec.and_assoc, hmask]
  have hreserved : c &&& (r.mask ^^^ 0xFF#32) = (c &&& r.mask) ^^^ (c &&& 0xFF#32) := by
    ext i hi
    simp [Bool.and_xor_distrib_left]
  rw [OpcodeRow.matchesWord, beq_iff_eq, opcodeOf_eq_toNat_and, BitVec.toNat_inj, hreserved]
  constructor
  · intro h
    rw [← hlow, h, hpattern]
    exact ⟨rfl, BitVec.xor_self⟩
  · rintro ⟨hop, h⟩
    rw [← hop] at h
    exact BitVec.xor_eq_zero_iff.mp h

/-- A word belongs to one row at most: every row it belongs to has its opcode for pattern. -/
theorem length_matching_rows_le_one (c : Word) : (opcodeMap.filter (·.matchesWord c)).length ≤ 1 := by
  have hnodup : ((opcodeMap.filter (·.matchesWord c)).map OpcodeRow.pattern).Nodup :=
    opcodeMap_patterns_nodup.sublist (List.filter_sublist.map _)
  have hsame : ∀ p ∈ (opcodeMap.filter (·.matchesWord c)).map OpcodeRow.pattern, p = c &&& 0xFF#32 := by
    intro p hp
    obtain ⟨r, hr, rfl⟩ := List.mem_map.mp hp
    obtain ⟨hr, hmatch⟩ := List.mem_filter.mp hr
    rw [← BitVec.toNat_inj, ← opcodeOf_eq_toNat_and]
    exact ((matchesWord_iff hr c).mp hmatch).1
  rw [List.eq_replicate_length.mpr hsame, List.nodup_replicate, List.length_map] at hnodup
  exact hnodup

/-! ### The decoder (30_encoding.md R96, R97) -/

/-- The bits of a word from bit `lo` up are all 0 when the word has none in common with the mask of those bits. -/
theorem shiftRight_eq_zero_iff (c : Word) (lo : Nat) : c >>> lo = 0 ↔ c &&& BitVec.allOnes 32 <<< lo = 0 := by
  rw [← BitVec.shiftLeft_ushiftRight]
  refine ⟨fun h => by simp [h], fun h => BitVec.eq_of_toNat_eq ?_⟩
  have hle : c.toNat / 2 ^ lo * 2 ^ lo ≤ c.toNat := Nat.div_mul_le_self _ _
  have hnat : c.toNat / 2 ^ lo * 2 ^ lo % 2 ^ 32 = 0 := by
    simpa [Nat.shiftLeft_eq, Nat.shiftRight_eq_div_pow] using congrArg BitVec.toNat h
  rw [Nat.mod_eq_of_lt (hle.trans_lt c.isLt)] at hnat
  simpa [Nat.shiftRight_eq_div_pow] using hnat

theorem exists_reservedFrom_ok_iff (lo : Nat) (c : Word) (i : Instr) :
    (∃ j, reservedFrom lo c i = .ok j) ↔ c >>> lo = 0 := by
  unfold reservedFrom
  split
  · exact iff_of_true ⟨i, rfl⟩ ‹_›
  · exact iff_of_false (by simp) ‹_›

/-- On a word with a row's opcode the decoder only asks whether a reserved bit of that row is set. -/
theorem decode_eq_reservedFrom {r : OpcodeRow} (hr : r ∈ opcodeMap) {c : Word} (hop : r.pattern.toNat = opcodeOf c) :
    ∃ lo i, r.mask ^^^ 0xFF#32 = BitVec.allOnes 32 <<< lo ∧ decode c = reservedFrom lo c i := by
  simp only [opcodeMap, List.mem_cons, List.not_mem_nil, or_false] at hr
  unfold decode
  rw [← hop]
  rcases hr with rfl | rfl | rfl | rfl | rfl | rfl | rfl | rfl | rfl | rfl | rfl | rfl | rfl | rfl | rfl | rfl | rfl |
    rfl | rfl | rfl | rfl
  all_goals exact ⟨_, _, by decide, rfl⟩

/-- A word with a row's opcode decodes when no reserved bit of that row is set. -/
theorem decode_ok_iff_of_row {r : OpcodeRow} (hr : r ∈ opcodeMap) {c : Word} (hop : r.pattern.toNat = opcodeOf c) :
    (∃ i, decode c = .ok i) ↔ c &&& (r.mask ^^^ 0xFF#32) = 0 := by
  obtain ⟨lo, i, hmask, hdecode⟩ := decode_eq_reservedFrom hr hop
  rw [hdecode, hmask, exists_reservedFrom_ok_iff, shiftRight_eq_zero_iff]

/-- A word whose opcode is in no row does not decode. -/
theorem exists_row_of_decode_ok {c : Word} {i : Instr} (h : decode c = .ok i) :
    ∃ r ∈ opcodeMap, r.pattern.toNat = opcodeOf c := by
  unfold decode at h
  split at h
  case h_22 => cases h
  all_goals
    rename_i hop
    rw [hop]
    decide

/-- A word decodes when it belongs to a row of the opcode map. -/
theorem decode_ok_iff (c : Word) : (∃ i, decode c = .ok i) ↔ ∃ r ∈ opcodeMap, r.matchesWord c = true := by
  constructor
  · rintro ⟨i, h⟩
    obtain ⟨r, hr, hop⟩ := exists_row_of_decode_ok h
    exact ⟨r, hr, (matchesWord_iff hr c).mpr ⟨hop, (decode_ok_iff_of_row hr hop).mp ⟨i, h⟩⟩⟩
  · rintro ⟨r, hr, h⟩
    obtain ⟨hop, hreserved⟩ := (matchesWord_iff hr c).mp h
    exact (decode_ok_iff_of_row hr hop).mpr hreserved

theorem decode_error_iff (c : Word) : (∃ e, decode c = .error e) ↔ ¬ ∃ i, decode c = .ok i := by
  cases decode c <;> simp

/-- Settles O3: a word decodes when some row matches it, and no word matches two. -/
theorem everyWordIsOneRowOrIllegal : Obligations.EveryWordIsOneRowOrIllegal := by
  intro c
  by_cases h : ∃ i, decode c = .ok i
  · obtain ⟨r, hr, hmatch⟩ := (decode_ok_iff c).mp h
    have hpos : 0 < (opcodeMap.filter (·.matchesWord c)).length :=
      List.length_pos_of_mem (List.mem_filter.mpr ⟨hr, hmatch⟩)
    exact .inl ⟨h, Nat.le_antisymm (length_matching_rows_le_one c) hpos⟩
  · have hnone : opcodeMap.filter (·.matchesWord c) = [] :=
      List.filter_eq_nil_iff.mpr fun r hr hmatch => h ((decode_ok_iff c).mpr ⟨r, hr, hmatch⟩)
    exact .inr ⟨(decode_error_iff c).mpr h, congrArg List.length hnone⟩

/-- The opcodes of no row, as the ranges 30_encoding.md R97 lists. -/
theorem not_exists_row_iff {op : Nat} (hop : op < 256) : (¬ ∃ r ∈ opcodeMap, r.pattern.toNat = op) ↔
    (0x03 ≤ op ∧ op ≤ 0x0F) ∨ (0x14 ≤ op ∧ op ≤ 0x1F) ∨ (0x22 ≤ op ∧ op ≤ 0x2F) ∨ (0x32 ≤ op ∧ op ≤ 0x3F) ∨
      (0x42 ≤ op ∧ op ≤ 0x4F) ∨ (0x52 ≤ op ∧ op ≤ 0x5F) ∨ (0x62 ≤ op ∧ op ≤ 0x6F) ∨ 0x74 ≤ op := by
  simp only [opcodeMap, List.mem_cons, List.not_mem_nil, or_false, exists_eq_or_imp, exists_eq_left,
    BitVec.reduceToNat]
  omega

/-- Which words are illegal. -/
theorem decode_error_iff_unassigned_or_reserved (c : Word) : (∃ e, decode c = .error e) ↔
    (¬ ∃ r ∈ opcodeMap, r.pattern.toNat = opcodeOf c) ∨
      ∃ r ∈ opcodeMap, r.pattern.toNat = opcodeOf c ∧ c &&& (r.mask ^^^ 0xFF#32) ≠ 0 := by
  rw [decode_error_iff]
  constructor
  · intro h
    by_cases hrow : ∃ r ∈ opcodeMap, r.pattern.toNat = opcodeOf c
    · obtain ⟨r, hr, hop⟩ := hrow
      exact .inr ⟨r, hr, hop, mt (decode_ok_iff_of_row hr hop).mpr h⟩
    · exact .inl hrow
  · rintro (hrow | ⟨r, hr, hop, hreserved⟩)
    · rintro ⟨i, h⟩
      exact hrow (exists_row_of_decode_ok h)
    · exact mt (decode_ok_iff_of_row hr hop).mp hreserved

end Sys2Proof

namespace Sys2Proof.Machine

/-! ### A word offered to an idle engine, and the engine's turn (40_control.md R120 to R123) -/

theorem State.offer_accepted {s : State} {c : Word} (hb : s.busy = false)
    (hgate : s.fault = true → passesFaultGate c = true) : s.offer c = s.accept c := by
  have hpass : ¬ (s.fault && !passesFaultGate c) = true := by simpa using hgate
  rw [State.offer, if_neg (by simp [hb]), if_neg hpass]

theorem State.offer_discarded {s : State} {c : Word} (hb : s.busy = false) (hf : s.fault = true)
    (hgate : passesFaultGate c = false) : s.offer c = s.discard := by
  simp [State.offer, hb, hf, hgate]

section
variable {s : State} {c : Word} {rest : List Input}

/-- A write to CMD offers its word to the engine. -/
theorem step_writeCmd (hin : s.inputs = .write 32 0 c :: rest) :
    step s = .next (State.offer { s with inputs := rest } c) :=
  step_write hin rfl (by decide)

theorem step_writeCmd_accepted (hin : s.inputs = .write 32 0 c :: rest) (hb : s.busy = false)
    (hgate : s.fault = true → passesFaultGate c = true) :
    step s = .next (State.accept { s with inputs := rest } c) :=
  (step_writeCmd hin).trans (congrArg Host.Outcome.next (State.offer_accepted hb hgate))

theorem step_writeCmd_discarded (hin : s.inputs = .write 32 0 c :: rest) (hb : s.busy = false)
    (hf : s.fault = true) (hgate : passesFaultGate c = false) :
    step s = .next (State.discard { s with inputs := rest }) :=
  (step_writeCmd hin).trans (congrArg Host.Outcome.next (State.offer_discarded hb hf hgate))

end

theorem step_engine {s : State} {rest : List Input} (hin : s.inputs = .engine :: rest) :
    step s = engineTurn { s with inputs := rest } := by
  simp only [step, nextTurn, hin]

/-- The engine's turn with an illegal word accepted. -/
theorem step_illegal {s : State} {e : DecodeError} {rest : List Input} (hin : s.inputs = .engine :: rest)
    (hb : s.busy = true) (h : decode s.cur = .error e) : step s = execIllegal { s with inputs := rest } := by
  rw [step_engine hin]
  simp only [engineTurn, hb, if_true, fetch, h]

/-- The four words that pass the fault gate are legal. -/
theorem not_passesFaultGate_of_decode_error {c : Word} {e : DecodeError} (h : decode c = .error e) :
    passesFaultGate c = false := by
  by_contra hpass
  simp only [passesFaultGate, Bool.not_eq_false, Bool.or_eq_true, beq_iff_eq] at hpass
  rcases hpass with ((rfl | rfl) | rfl) | rfl <;> cases h

/-- An illegal word, once accepted, has no effect but the fault record (30_encoding.md R97). -/
theorem known_execIllegal_accept {s u : State} {c : Word} (hb : s.busy = false)
    (h : execIllegal (s.accept c) = .next u) :
    u.known = State.known { s with fault := true, fcode := 0x01, fcmd := c, fdetail := c, done := true } := by
  cases h
  rw [known_complete]
  exact State.known_congr hb.symm (by simp) rfl (fun _ _ => rfl) rfl

/-- Settles O4: the illegal words are those no row takes, and such a word is no gate word, so an idle engine accepts
and faults it, or discards it. -/
theorem illegalWordIsRecordedOrDiscarded : Obligations.IllegalWordIsRecordedOrDiscarded := by
  intro c
  refine ⟨?_, fun s rest ⟨e, he⟩ hb hin => ⟨fun hf => ?_, fun hf => ?_⟩⟩
  · rw [decode_error_iff_unassigned_or_reserved, not_exists_row_iff (opcodeOf_lt c)]
    simp only [or_assoc]
  · have haccept := step_writeCmd_accepted hin hb (by simp [hf])
    exact ⟨_, _, haccept, step_illegal rfl rfl he, known_execIllegal_accept (s := { s with inputs := rest }) hb rfl⟩
  · exact step_writeCmd_discarded hin hb hf (not_passesFaultGate_of_decode_error he)

/-! ### WAIT and the pseudo-commands (30_encoding.md R99 to R101) -/

/-- WAIT's end with no fault recorded: STATUS has been read, and the host goes on. -/
theorem State.waitDone_of_ok {s : State} {closeSink : Bool} (hf : s.fault = false) :
    s.waitDone closeSink = { s with rdata := s.statusWord } :=
  if_neg (by simp [hf])

/-- WAIT's fault exit: the rest of the host's list gives way to SNK_CLOSE; WAIT, or to nothing. -/
theorem State.waitDone_of_fault {s : State} {closeSink : Bool} (hf : s.fault = true) :
    s.waitDone closeSink = { s with
      inputs := if closeSink then [.write 32 0 (encode .snkClose), .wait false] else [], rdata := s.statusWord } :=
  if_pos hf

/-- A WAIT that finds the command complete is taken off the host's list. -/
theorem step_wait {s : State} {closeSink : Bool} {rest : List Input} (hin : s.inputs = .wait closeSink :: rest)
    (hb : s.busy = false) (hd : s.done = true) :
    step s = .next (State.waitDone { s with inputs := rest } closeSink) := by
  simp only [step, nextTurn, hin, hb, hd, Bool.not_false, Bool.and_self, if_true, hostTurn]

/-- Settles O15: the expansions are the lists themselves, and a WAIT goes on or takes its fault exit. -/
theorem pseudoCommandsExpand : Obligations.PseudoCommandsExpand := by
  refine ⟨rfl, rfl, fun s b rest hin hb hd => ⟨fun hf => ?_, fun hf => ?_⟩⟩
  · exact (step_wait hin hb hd).trans (congrArg Host.Outcome.next (State.waitDone_of_ok hf))
  · exact (step_wait hin hb hd).trans (congrArg Host.Outcome.next (State.waitDone_of_fault hf))

end Sys2Proof.Machine
end

section
/-! A write to CMD in every state of the engine, the host's actions that leave BUSY alone, and the control commands NOP,
CLRF and SRESET (40_control.md R120, R122, R126 to R128). -/

namespace Sys2Proof.Machine

/-! ### A write to CMD (40_control.md R120, R122) -/

/-- The words that pass the fault gate, as the list 60_exceptions.md R286 gives. -/
theorem passesFaultGate_iff (c : Word) : passesFaultGate c = true ↔
    c ∈ [0x00000000#32, 0x00000001#32, 0x00000002#32, 0x00000073#32] := by
  simp [passesFaultGate, or_assoc]

theorem State.offer_dropped {s : State} (c : Word) (hb : s.busy = true) : s.offer c = { s with lost := true } :=
  if_pos hb

/-! ### Who sets BUSY (40_control.md R120) -/

theorem State.hostWrite_busy (s : State) {off : Nat} (v : Word) (hcmd : off ≠ 0x00) :
    (s.hostWrite off v).busy = s.busy := by
  unfold State.hostWrite
  split
  · exact absurd rfl hcmd
  · rfl
  · rfl

theorem State.hostRead_busy (s : State) (off : Nat) : (s.hostRead off).busy = s.busy := by
  unfold State.hostRead
  split <;> rfl

theorem State.waitDone_busy (s : State) (closeSink : Bool) : (s.waitDone closeSink).busy = s.busy := by
  unfold State.waitDone
  dsimp only
  split <;> rfl

theorem State.resetInput_busy (s : State) : s.resetInput.busy = false := by
  unfold State.resetInput
  split <;> rfl

/-- Only a write to CMD makes BUSY 1. -/
theorem step_busy_of_idle {s t : State} (hb : s.busy = false) (h : step s = .next t) (ht : t.busy = true) :
    ∃ c rest, s.inputs = .write 32 0 c :: rest := by
  have idle : ∀ {p : Prop}, t.busy = false → p := fun hf => absurd (hf.symm.trans ht) Bool.false_ne_true
  rcases step_cases h with ⟨u, i, -, -, -, hexec⟩ | ⟨u, e, -, -, -, hexec⟩ | ⟨-, hidle⟩ | ⟨rest, off, v, hin, -, -, rfl⟩ |
    ⟨rest, off, -, -, -, rfl⟩ | ⟨rest, bits, -, -, rfl⟩ | ⟨rest, -, -, rfl⟩ | ⟨rest, -, rfl⟩ | ⟨rest, b, -, -, -, rfl⟩
  · exact idle (exec_status hexec).1
  · exact idle (raise_status hexec).1
  · exact idle hidle
  · by_cases hcmd : off = 0x00
    · subst hcmd
      exact ⟨v, rest, hin⟩
    · exact idle ((State.hostWrite_busy _ v hcmd).trans hb)
  · exact idle ((State.hostRead_busy ..).trans hb)
  · exact idle hb
  · exact idle hb
  · exact idle (State.resetInput_busy _)
  · exact idle ((State.waitDone_busy ..).trans hb)

/-- Settles O7: the three ways the engine answers an offered word, and `step_busy_of_idle` for what starts a command. -/
theorem commandWriteIsAcceptedDroppedOrDiscarded : Obligations.CommandWriteIsAcceptedDroppedOrDiscarded := by
  intro s rest
  refine ⟨fun c hin => ⟨fun hb => ?_, fun hb hf hgate => ?_, fun hb hgate => ?_⟩, fun a t hin hb h ht => ?_⟩
  · exact (step_writeCmd hin).trans (congrArg Host.Outcome.next (State.offer_dropped c hb))
  · exact step_writeCmd_discarded hin hb hf (Bool.eq_false_iff.mpr (mt (passesFaultGate_iff c).mp hgate))
  · exact step_writeCmd_accepted hin hb fun hf => (passesFaultGate_iff c).mpr (hgate hf)
  · obtain ⟨c, rest', hwrite⟩ := step_busy_of_idle hb h ht
    exact ⟨c, (List.cons.inj (hin.symm.trans hwrite)).1⟩

/-! ### NOP, CLRF and SRESET (40_control.md R126 to R128) -/

theorem exec_nop (s : State) : exec .nop s = finish s := rfl

theorem exec_clrf (s : State) : exec .clrf s = finish s.clearFault := rfl

theorem exec_sreset (s : State) : exec .sreset s = finish s.resetEngine := rfl

/-- A word with the opcode of NOP, CLRF or SRESET has every bit above the opcode reserved. -/
theorem decode_controlOpcode {c : Word} (hop : opcodeOf c ≤ 2) : ∃ i, decode c = reservedFrom 8 c i := by
  unfold decode
  generalize opcodeOf c = op at hop
  match op, hop with
  | 0, _ => exact ⟨.nop, rfl⟩
  | 1, _ => exact ⟨.clrf, rfl⟩
  | 2, _ => exact ⟨.sreset, rfl⟩

theorem reservedFrom_error {lo : Nat} {c : Word} (i : Instr) (h : c >>> lo ≠ 0) :
    reservedFrom lo c i = .error .reservedBitSet :=
  if_neg h

/-- The control commands' words pass the fault gate. -/
theorem passesFaultGate_control {c : Word} (h : c ∈ [0x00000000#32, 0x00000001#32, 0x00000002#32]) :
    passesFaultGate c = true :=
  (passesFaultGate_iff c).mpr (List.mem_append_left [0x00000073#32] h)

/-- SRESET leaves NODE, CUR and CUR_ARG free, which `known` blanks in an idle engine that has no nodes. -/
theorem completes_sreset (s : State) : Completes .sreset s s.engineReset :=
  (completes_of_finish (exec_sreset s)).congr (State.known_congr rfl (by simp) rfl (by simp) rfl)

/-- Settles O16: each command finishes in the state its rule gives, and its word passes the fault gate. -/
theorem controlCommandsComplete : Obligations.ControlCommandsComplete := by
  refine ⟨by decide, by decide, by decide, fun c hop hreserved => ?_, fun s c rest hc hb hin => ?_, fun s => ⟨?_, ?_, ?_⟩⟩
  · obtain ⟨i, hdecode⟩ := decode_controlOpcode hop
    exact hdecode.trans (reservedFrom_error i hreserved)
  · exact step_writeCmd_accepted hin hb fun _ => passesFaultGate_control hc
  · exact completes_of_finish (exec_nop s)
  · exact completes_of_finish (exec_clrf s)
  · exact completes_sreset s

end Sys2Proof.Machine
end

section
/-! The words of FREQ_WR and FREQ_RD for every symbol (30_encoding.md R92, R95, R96). -/

namespace Sys2Proof

/-! ### A word with a symbol above its opcode (30_encoding.md R92) -/

section
variable {sym op : Nat}

theorem toNat_symbolWord (hsym : sym < 512) (hop : op < 256) :
    (BitVec.ofNat 32 (sym * 256 + op)).toNat = sym * 256 + op := by
  rw [BitVec.toNat_ofNat]
  omega

theorem opcodeOf_symbolWord (hsym : sym < 512) (hop : op < 256) :
    opcodeOf (BitVec.ofNat 32 (sym * 256 + op)) = op := by
  rw [opcodeOf, BitVec.extractLsb'_toNat, toNat_symbolWord hsym hop, Nat.shiftRight_zero]
  omega

theorem symOf_symbolWord (hsym : sym < 512) (hop : op < 256) :
    symOf (BitVec.ofNat 32 (sym * 256 + op)) = sym := by
  rw [symOf, BitVec.extractLsb'_toNat, toNat_symbolWord hsym hop, Nat.shiftRight_eq_div_pow]
  omega

theorem symbolWord_reserved (hsym : sym < 512) (hop : op < 256) :
    BitVec.ofNat 32 (sym * 256 + op) >>> 17 = 0 := by
  apply BitVec.eq_of_toNat_eq
  rw [BitVec.toNat_ushiftRight, toNat_symbolWord hsym hop, Nat.shiftRight_eq_div_pow]
  exact Nat.div_eq_of_lt (by omega)

end

theorem reservedFrom_ok {lo : Nat} {c : Word} (i : Instr) (h : c >>> lo = 0) : reservedFrom lo c i = .ok i :=
  if_pos h

theorem decode_freqWr {sym : Nat} (hsym : sym < 512) :
    decode (BitVec.ofNat 32 (sym * 256 + 0x12)) = .ok (.freqWr sym) := by
  have hop : 0x12 < 256 := by decide
  rw [decode, opcodeOf_symbolWord hsym hop, symOf_symbolWord hsym hop]
  exact reservedFrom_ok _ (symbolWord_reserved hsym hop)

theorem decode_freqRd {sym : Nat} (hsym : sym < 512) :
    decode (BitVec.ofNat 32 (sym * 256 + 0x13)) = .ok (.freqRd sym) := by
  have hop : 0x13 < 256 := by decide
  rw [decode, opcodeOf_symbolWord hsym hop, symOf_symbolWord hsym hop]
  exact reservedFrom_ok _ (symbolWord_reserved hsym hop)

end Sys2Proof
end

section
/-! The frequency table commands FREQ_COUNT, FREQ_WR, FREQ_RD and FREQ_CLR, and the one-leaf tree of a BUILD with no byte
counted (41_frequency.md R140 to R145; 42_tree_builder.md R163). -/

namespace Sys2Proof.Machine

/-! ### FREQ_COUNT (41_frequency.md R141, R142) -/

theorem byteAt_lt (s : State) (k : Nat) : s.byteAt k < 256 :=
  (numeral_lt _).trans_le (Nat.pow_le_pow_right (by decide) (List.length_take_le 8 _))

theorem bytesAhead_succ (s : State) (k : Nat) : s.bytesAhead (k + 1) = s.bytesAhead k ++ [s.byteAt k] := by
  simp only [State.bytesAhead, List.range_succ, List.map_append, List.map_cons, List.map_nil]

theorem bytesAhead_sublist (s : State) {j k : Nat} (h : j ≤ k) : (s.bytesAhead j).Sublist (s.bytesAhead k) :=
  (List.range_sublist.mpr h).map s.byteAt

/-- FREQ_COUNT, started in `s`, stands at `u` when it has counted `k` bytes: it has moved past them, FREQ[0..255] are
their counts, and nothing else has changed. -/
structure Counted (s : State) (k : Nat) (u : State) : Prop where
  frame : u = { s with freq := u.freq, inPos := s.inPos + 8 * k }
  counts : ∀ v, v < 256 → (u.freqAt v).toNat = (s.bytesAhead k).count v
  eofCount : u.freqAt 256 = s.freqAt 256

theorem counted_zero (s : State) : Counted s 0 s.clearCounts where
  frame := rfl
  counts v hv := by rw [freqAt_clearCounts, if_pos hv]; rfl
  eofCount := freqAt_clearCounts s 256

section
variable {s u : State} {k : Nat}

theorem Counted.srcRead (h : Counted s k u) (hk : k < s.bytesLeft) :
    u.srcRead 8 = some (s.byteAt k, { u with inPos := u.inPos + 8 }) := by
  have hleft : ¬ u.bitsLeft < 8 := by
    rw [h.frame]
    simp only [State.bytesLeft, State.bitsLeft] at hk ⊢
    omega
  rw [srcRead_eq, if_neg hleft, h.frame]
  rfl

/-- Counting one more byte, whose entry has not reached 2^32 - 1. -/
theorem Counted.succ (h : Counted s k u) (hroom : u.freqAt (s.byteAt k) ≠ 0xFFFFFFFF#32) :
    Counted s (k + 1)
      (State.setFreq { u with inPos := u.inPos + 8 } (s.byteAt k) (u.freqAt (s.byteAt k) + 1)) where
  frame := by rw [h.frame]; rfl
  counts v hv := by
    rw [freqAt_setFreq _ _ _ _ (byteAt_lt s k).le, bytesAhead_succ, List.count_append, List.count_singleton,
      ← h.counts v hv]
    by_cases hvk : v = s.byteAt k
    · subst hvk
      have hmax : (u.freqAt (s.byteAt k)).toNat ≠ 0xFFFFFFFF := fun e => hroom (BitVec.eq_of_toNat_eq e)
      simp only [if_true, beq_self_eq_true]
      bv_omega
    · rw [if_neg hvk, if_neg (by simpa using Ne.symm hvk)]
      rfl
  eofCount := by rw [freqAt_setFreq _ _ _ _ (byteAt_lt s k).le, if_neg (byteAt_lt s k).ne']; exact h.eofCount

end

/-- Everything FREQ_COUNT's loop can do after `k` bytes with `n` bytes to go: it counts them all, or it stops at a byte
whose entry is 2^32 - 1. -/
theorem countLoop_of_counted {s : State} : ∀ {n k : Nat} {u : State}, Counted s k u → k + n = s.bytesLeft →
    (∃ w, Counted s s.bytesLeft w ∧ countLoop n u = countEnd w) ∨
    ∃ j w, j < s.bytesLeft ∧ Counted s j w ∧ w.freqAt (s.byteAt j) = 0xFFFFFFFF#32 ∧
      countLoop n u = raise .countOverflow (fieldDetail (s.byteAt j)) { w with inPos := w.inPos + 8 } := by
  intro n
  induction n with
  | zero =>
    intro k u h hk
    exact .inl ⟨u, hk ▸ h, rfl⟩
  | succ n ih =>
    intro k u h hk
    simp only [countLoop, h.srcRead (by omega)]
    split
    · exact .inr ⟨k, u, by omega, h, ‹_›, rfl⟩
    · exact ih (h.succ ‹_›) (by omega)

theorem exec_freqCount (s : State) :
    (∃ w, Counted s s.bytesLeft w ∧ exec .freqCount s = finish (w.setFreq 256 1)) ∨
    ∃ j w, j < s.bytesLeft ∧ Counted s j w ∧ w.freqAt (s.byteAt j) = 0xFFFFFFFF#32 ∧
      exec .freqCount s = raise .countOverflow (fieldDetail (s.byteAt j)) { w with inPos := w.inPos + 8 } :=
  countLoop_of_counted (counted_zero s) (Nat.zero_add _)

/-- A byte that finds its entry at 2^32 - 1 occurs 2^32 times among the bytes left. -/
theorem Counted.count_of_full {s w : State} {j : Nat} (h : Counted s j w) (hj : j < s.bytesLeft)
    (hfull : w.freqAt (s.byteAt j) = 0xFFFFFFFF#32) : 2 ^ 32 ≤ (s.bytesAhead s.bytesLeft).count (s.byteAt j) := by
  have hcount : (s.bytesAhead j).count (s.byteAt j) = 0xFFFFFFFF := by
    rw [← h.counts _ (byteAt_lt s j), hfull]
    rfl
  calc 2 ^ 32 = (s.bytesAhead (j + 1)).count (s.byteAt j) := by
        rw [bytesAhead_succ, List.count_append, hcount, List.count_singleton_self]
        rfl
    _ ≤ _ := (bytesAhead_sublist s hj).count_le _

theorem freqAt_setFreq_eof_of_lt (w : State) {v : Nat} (hv : v < 256) : (w.setFreq 256 1).freqAt v = w.freqAt v := by
  rw [freqAt_setFreq _ _ _ _ le_rfl, if_neg hv.ne]

theorem Counted.counts_setFreq_eof {s w : State} {k v : Nat} (h : Counted s k w) (hv : v < 256) :
    ((w.setFreq 256 1).freqAt v).toNat = (s.bytesAhead k).count v := by
  rw [freqAt_setFreq_eof_of_lt w hv, h.counts v hv]

/-- Settles O20: the loop counts every byte (`exec_freqCount`), since its other end records a fault and needs 2^32 equal
bytes. -/
theorem freqCountCountsTheBytes : Obligations.FreqCountCountsTheBytes := by
  refine ⟨fun s t _ hexec hfault => ?_, fun s hcount => ?_⟩
  · obtain ⟨w, hw, h⟩ | ⟨j, w, -, -, -, h⟩ := exec_freqCount s <;> rw [h] at hexec <;> cases hexec
    · refine ⟨?_, freqAt_setFreq_eof w, fun v hv => ?_⟩
      · exact congrArg State.inPos hw.frame
      · exact hw.counts_setFreq_eof hv
    · cases hfault
  · obtain ⟨w, hw, h⟩ | ⟨j, w, hj, hw, hfull, -⟩ := exec_freqCount s
    · refine ⟨_, h, ?_, fun v hv => ?_, freqAt_setFreq_eof w⟩
      · rw [known_complete, hw.frame]
        rfl
      · exact hw.counts_setFreq_eof hv
    · have hle : (s.bytesAhead s.bytesLeft).count (s.byteAt j) ≤ 2 ^ 32 - 1 := hcount _ (byteAt_lt s j)
      have hge := hw.count_of_full hj hfull
      omega

/-! ### FREQ_WR and FREQ_RD (41_frequency.md R144, R145) -/

theorem freqAt_eq_getElem (s : State) {v : Nat} (h : v < 257) : s.freqAt v = s.freq[v] := by
  rw [State.freqAt, Vector.getElem?_eq_getElem h, Option.getD_some]

theorem setFreq_eq_set (s : State) {v : Nat} (x : Word) (h : v < 257) :
    s.setFreq v x = { s with freq := s.freq.set v x } := by
  rw [State.setFreq]
  congr 1
  ext1 i hi
  rw [Vector.getElem_setIfInBounds, Vector.getElem_set]

theorem exec_freqWr {sym : Nat} (h : sym < 256) (s : State) :
    exec (.freqWr sym) s = finish (s.setFreq sym s.curArg) :=
  if_neg (by simpa [symIsByte] using Nat.le_of_lt_succ h)

theorem exec_freqWr_badOperand {sym : Nat} (h : 256 ≤ sym) (s : State) :
    exec (.freqWr sym) s = raise .badOperand (fieldDetail sym) s :=
  if_pos (by simpa [symIsByte] using Nat.lt_of_succ_le h)

theorem exec_freqRd {sym : Nat} (h : sym < 257) (s : State) :
    exec (.freqRd sym) s = finish (s.setResults (s.freqAt sym) 0 0) :=
  if_neg (by simpa [symInAlphabet] using Nat.le_of_lt_succ h)

theorem exec_freqRd_badOperand {sym : Nat} (h : 257 ≤ sym) (s : State) :
    exec (.freqRd sym) s = raise .badOperand (fieldDetail sym) s :=
  if_pos (by simpa [symInAlphabet] using Nat.lt_of_succ_le h)

/-- Settles O18: `decode_freqWr` for the word, and the command's two ends. -/
theorem freqWrStoresTheArgument : Obligations.FreqWrStoresTheArgument := by
  refine ⟨fun _ => decode_freqWr, fun s sym => ⟨fun h => completes_of_finish ?_, fun h => ?_⟩⟩
  · rw [exec_freqWr h, setFreq_eq_set]
  · exact takesFault_of_raise (exec_freqWr_badOperand h s) rfl

/-- Settles O19: `decode_freqRd` for the word, and the command's two ends. -/
theorem freqRdReadsTheEntry : Obligations.FreqRdReadsTheEntry := by
  refine ⟨fun _ => decode_freqRd, fun s sym => ⟨fun h => completes_of_finish ?_, fun h => ?_⟩⟩
  · rw [exec_freqRd h, freqAt_eq_getElem s h]
    rfl
  · exact takesFault_of_raise (exec_freqRd_badOperand h s) rfl

/-! ### FREQ_CLR, and the one-leaf tree of BUILD (41_frequency.md R140; 42_tree_builder.md R160, R163) -/

theorem exec_freqClr (s : State) : exec .freqClr s = finish (s.clearCounts.setFreq 256 1) := rfl

theorem freqAt_freqClr (s : State) {v : Nat} (hv : v < 256) : (s.clearCounts.setFreq 256 1).freqAt v = 0 := by
  rw [freqAt_setFreq_eof_of_lt _ hv, freqAt_clearCounts, if_pos hv]

theorem clearCounts_setFreq_eof (s : State) :
    s.clearCounts.setFreq 256 1 = { s with freq := (Vector.replicate 257 0#32).set 256 1#32 } := by
  rw [setFreq_eq_set _ _ (by decide), State.clearCounts]
  congr 1
  ext1 v hv
  rw [Vector.getElem_set, Vector.getElem_set, getElem_tabulate, Vector.getElem_replicate]
  split
  · rfl
  · exact if_pos (by omega)

/-- A symbol of frequency 0 gets no leaf. -/
theorem addLeaves_append_of_zero {s : State} {syms : List Nat} (h : ∀ v ∈ syms, s.freqAt v = 0) (rest : List Nat)
    (f : Forest) : addLeaves s (syms ++ rest) f = addLeaves s rest f := by
  induction syms with
  | nil => rfl
  | cons v syms ih =>
    obtain ⟨hv, hsyms⟩ := List.forall_mem_cons.mp h
    rw [List.cons_append, addLeaves, if_pos hv, ih hsyms]

/-- The store and the flags BUILD leaves when PSEUDO_EOF is its only symbol (42_tree_builder.md R163). -/
def State.withEofLeaf (s : State) : State := { s with
  codesValid := false, node := s.node.setIfInBounds 0 (leafNode 256 1), root := 0, ncount := 1, treeValid := true }

theorem State.withEofLeaf_treeInfo (s : State) : s.withEofLeaf.treeInfo = 1#32 := by
  simp [State.treeInfo, State.withEofLeaf]

theorem State.withEofLeaf_node_zero (s : State) : s.withEofLeaf.node[0]? = some ⟨true, 256, 1, 0, 0⟩ := by
  rw [State.withEofLeaf, Vector.getElem?_setIfInBounds_self_of_lt (by decide)]
  rfl

theorem getElem?_undefineNodes {s : State} {i : Nat} (hi : i < s.ncount.toNat) (hcap : i < 513) :
    s.undefineNodes.node[i]? = s.node[i]? := by
  rw [State.undefineNodes_node, getElem?_tabulate, if_pos hcap, if_pos hi, Vector.getElem?_eq_getElem hcap,
    Option.getD_some]

section
variable {s : State} (hzero : ∀ v, v < 256 → s.freqAt v = 0) (heof : s.freqAt 256 = 1)
include hzero heof

theorem buildLeaves_of_no_counts : buildLeaves s = ⟨s.node.setIfInBounds 0 (leafNode 256 1), 1, [0]⟩ := by
  rw [buildLeaves, List.range_succ, addLeaves_append_of_zero (fun v hv => hzero v (List.mem_range.mp hv)), addLeaves,
    if_neg (by simp [heof]), heof]
  rfl

/-- With no byte counted BUILD has one leaf, and nothing to merge. -/
theorem exec_build_of_no_counts : exec .build s = finish s.withEofLeaf.undefineNodes := by
  simp only [exec, execBuild, buildLeaves_of_no_counts hzero heof]
  rfl

theorem build_one_leaf_of_no_counts : ∃ t, exec .build s = .next t ∧ t.treeValid = true ∧
    t.treeInfo = 0x00000001#32 ∧ t.node[0]? = some (⟨true, 256, 1, 0, 0⟩ : Node) :=
  ⟨_, exec_build_of_no_counts hzero heof, rfl, s.withEofLeaf_treeInfo,
    (getElem?_undefineNodes Nat.one_pos (by decide)).trans s.withEofLeaf_node_zero⟩

end

/-- A command after one that finishes runs on what that one left. -/
theorem execAll_pair {i j : Instr} {s u : State} (h : exec i s = finish u) :
    execAll [i, j] s = exec j u.complete := by
  simp only [execAll, h, finish]
  cases exec j u.complete <;> rfl

/-- Settles O17: FREQ_CLR leaves no byte counted, so BUILD makes the one leaf. -/
theorem freqClrClearsTheCounts : Obligations.FreqClrClearsTheCounts := by
  refine ⟨by decide, fun s => ⟨completes_of_finish ?_, ?_⟩⟩
  · rw [exec_freqClr, clearCounts_setFreq_eof]
  · obtain ⟨t, hbuild, htree⟩ := build_one_leaf_of_no_counts (s := (s.clearCounts.setFreq 256 1).complete)
      (fun _ => freqAt_freqClr s) (freqAt_setFreq_eof s.clearCounts)
    exact ⟨t, (execAll_pair (exec_freqClr s)).trans hbuild, htree⟩

end Sys2Proof.Machine
end

section
/-! NODE_RD, its word and the node it packs into RES0 to RES2, and BUILD with no byte counted (30_encoding.md R94 to R96;
42_tree_builder.md R163, R165). -/

namespace Sys2Proof

/-! ### A word with an operand above its opcode (30_encoding.md R90) -/

section
variable {v op : Nat}

theorem toNat_operandWord (hv : v < 2 ^ 24) (hop : op < 256) :
    (BitVec.ofNat 32 (v * 256 + op)).toNat = v * 256 + op := by
  rw [BitVec.toNat_ofNat]
  omega

theorem opcodeOf_operandWord (hv : v < 2 ^ 24) (hop : op < 256) :
    opcodeOf (BitVec.ofNat 32 (v * 256 + op)) = op := by
  rw [opcodeOf, BitVec.extractLsb'_toNat, toNat_operandWord hv hop, Nat.shiftRight_zero]
  omega

/-- Such a word has no bit set above an operand of `w` bits. -/
theorem operandWord_reserved {w : Nat} (hw : w ≤ 24) (hv : v < 2 ^ w) (hop : op < 256) :
    BitVec.ofNat 32 (v * 256 + op) >>> (8 + w) = 0 := by
  have hv24 : v < 2 ^ 24 := hv.trans_le (Nat.pow_le_pow_right (by decide) hw)
  apply BitVec.eq_of_toNat_eq
  rw [BitVec.toNat_ushiftRight, toNat_operandWord hv24 hop, Nat.shiftRight_eq_div_pow, pow_add]
  exact Nat.div_eq_of_lt (by omega)

end

/-! ### NODE_RD's word (30_encoding.md R94, R95) -/

theorem idxOf_operandWord {idx op : Nat} (hidx : idx < 1024) (hop : op < 256) :
    idxOf (BitVec.ofNat 32 (idx * 256 + op)) = idx := by
  rw [idxOf, BitVec.extractLsb'_toNat, toNat_operandWord (by omega) hop, Nat.shiftRight_eq_div_pow]
  omega

theorem decode_nodeRd {idx : Nat} (hidx : idx < 1024) :
    decode (BitVec.ofNat 32 (idx * 256 + 0x21)) = .ok (.nodeRd idx) := by
  have hop : 0x21 < 256 := by decide
  rw [decode, opcodeOf_operandWord (by omega) hop, idxOf_operandWord hidx hop]
  exact reservedFrom_ok _ (operandWord_reserved (w := 10) (by decide) hidx hop)

end Sys2Proof

namespace Sys2Proof.Machine

/-! ### The packed fields as numbers (42_tree_builder.md R165) -/

theorem nodeWeightLow_eq_ofNat (n : Node) : nodeWeightLow n = BitVec.ofNat 32 (n.wgt.toNat % 2 ^ 32) := by
  apply BitVec.eq_of_toNat_eq
  rw [nodeWeightLow, BitVec.extractLsb'_toNat, Nat.shiftRight_zero, BitVec.toNat_ofNat, Nat.mod_mod]

theorem nodeWeightHigh_eq_ofNat (n : Node) : nodeWeightHigh n = BitVec.ofNat 32 (n.wgt.toNat / 2 ^ 32) := by
  apply BitVec.eq_of_toNat_eq
  rw [nodeWeightHigh, BitVec.toNat_setWidth, BitVec.extractLsb'_toNat, Nat.shiftRight_eq_div_pow, BitVec.toNat_ofNat]
  omega

/-- Words that share no bit are put together by adding them. -/
theorem toNat_or_of_dvd {hi lo : Word} (k : Nat) (hhi : 2 ^ k ∣ hi.toNat) (hlo : lo.toNat < 2 ^ k) :
    (hi ||| lo).toNat = hi.toNat + lo.toNat := by
  obtain ⟨a, ha⟩ := hhi
  rw [BitVec.toNat_or, ha, Nat.two_pow_add_eq_or_of_lt hlo]

theorem toNat_setWidth_shiftLeft {w k : Nat} (x : BitVec w) (h : w + k ≤ 32) :
    (x.setWidth 32 <<< k).toNat = x.toNat * 2 ^ k := by
  have hlt : x.toNat * 2 ^ k < 2 ^ 32 := calc
    x.toNat * 2 ^ k < 2 ^ w * 2 ^ k := Nat.mul_lt_mul_of_pos_right x.isLt (Nat.two_pow_pos k)
    _ = 2 ^ (w + k) := (pow_add 2 w k).symm
    _ ≤ 2 ^ 32 := Nat.pow_le_pow_right (by decide) h
  rw [BitVec.toNat_shiftLeft, BitVec.toNat_setWidth_of_le (by omega), Nat.shiftLeft_eq, Nat.mod_eq_of_lt hlt]

theorem nodeLinks_eq_ofNat (n : Node) : nodeLinks n = BitVec.ofNat 32
    (n.leaf.toNat * 2 ^ 31 + n.sym.toNat * 2 ^ 20 + n.left.toNat * 2 ^ 10 + n.right.toNat) := by
  have hleaf : (flagAt n.leaf 31).toNat = n.leaf.toNat * 2 ^ 31 := by
    rw [flagAt, toNat_setWidth_shiftLeft _ (by decide), BitVec.toNat_ofBool]
  have hsym := toNat_setWidth_shiftLeft (k := 20) n.sym (by decide)
  have hleft := toNat_setWidth_shiftLeft (k := 10) n.left (by decide)
  have hright : (n.right.setWidth 32).toNat = n.right.toNat := BitVec.toNat_setWidth_of_le (by decide)
  have hleafBit := n.leaf.toNat_lt
  have hsymBits := n.sym.isLt
  have hleftBits := n.left.isLt
  have hrightBits := n.right.isLt
  have hleafSym := toNat_or_of_dvd (hi := flagAt n.leaf 31) (lo := n.sym.setWidth 32 <<< 20) 31 (by omega) (by omega)
  have hleafSymLeft := toNat_or_of_dvd (lo := n.left.setWidth 32 <<< 10) 20 (by rw [hleafSym]; omega) (by omega)
  apply BitVec.eq_of_toNat_eq
  rw [nodeLinks, toNat_or_of_dvd 10 (by omega) (by omega), BitVec.toNat_ofNat]
  omega

/-! ### NODE_RD (42_tree_builder.md R165) -/

theorem exec_nodeRd_noTree {s : State} (idx : Nat) (h : s.treeValid = false) :
    exec (.nodeRd idx) s = raise .noTree 0 s :=
  if_pos (by rw [h]; rfl)

section
variable {s : State} {idx : Nat} (htree : s.treeValid = true)
include htree

theorem exec_nodeRd_badOperand (h : s.ncount.toNat ≤ idx) :
    exec (.nodeRd idx) s = raise .badOperand (fieldDetail idx) s := by
  rw [exec, execNodeRd, htree, if_neg (by decide), if_pos h]

theorem exec_nodeRd {n : Node} (h : idx < s.ncount.toNat) (hn : s.node[idx]? = some n) :
    exec (.nodeRd idx) s = finish (s.setResults (nodeWeightLow n) (nodeWeightHigh n) (nodeLinks n)) := by
  have hidx : idx % 2 ^ 10 = idx := Nat.mod_eq_of_lt (h.trans s.ncount.isLt)
  rw [exec, execNodeRd, htree, if_neg (by decide), if_neg (by omega), State.nodeAt, BitVec.toNat_ofNat, hidx, hn]

end

/-- Settles O27: `decode_nodeRd` for the word, and the command's three ends. -/
theorem nodeRdReadsTheEntry : Obligations.NodeRdReadsTheEntry := by
  refine ⟨fun _ => decode_nodeRd, fun s idx => ⟨fun htree => ?_, fun htree h => ?_,
    fun htree h n hn => completes_of_finish ?_⟩⟩
  · exact takesFault_of_raise (exec_nodeRd_noTree idx htree) rfl
  · exact takesFault_of_raise (exec_nodeRd_badOperand htree h) rfl
  · rw [exec_nodeRd htree h hn, nodeWeightLow_eq_ofNat, nodeWeightHigh_eq_ofNat, nodeLinks_eq_ofNat]
    rfl

/-! ### A BUILD with no byte counted (42_tree_builder.md R163) -/

/-- No byte is counted exactly when there is none. -/
theorem count_bytesAhead_eq_zero_iff (s : State) (n : Nat) :
    (∀ v, v < 256 → (s.bytesAhead n).count v = 0) ↔ n = 0 := by
  constructor
  · intro h
    by_contra hn
    have hmem : s.byteAt 0 ∈ s.bytesAhead n := List.mem_map_of_mem (List.mem_range.mpr (Nat.pos_of_ne_zero hn))
    exact List.count_eq_zero.mp (h _ (byteAt_lt s 0)) hmem
  · rintro rfl v _
    rfl

/-- Settles O26: `exec_build_of_no_counts` for BUILD; FREQ_COUNT's counts are those of the bytes left (O20). -/
theorem emptyCountsBuildOneLeaf : Obligations.EmptyCountsBuildOneLeaf := by
  refine ⟨fun s hzero heof => ⟨_, exec_build_of_no_counts hzero heof, ?_, ?_⟩, fun s t hs hexec ht => ?_⟩
  · exact (getElem?_undefineNodes Nat.one_pos (by decide)).trans s.withEofLeaf_node_zero
  · rw [known_complete]
    rfl
  · obtain ⟨hcount, -⟩ := freqCountCountsTheBytes
    obtain ⟨-, -, hcounts⟩ := hcount s t hs hexec ht
    rw [← count_bytesAhead_eq_zero_iff s]
    refine forall₂_congr fun v hv => ?_
    rw [← hcounts v hv]
    exact BitVec.toNat_inj.symm

end Sys2Proof.Machine
end

section
/-! BUILD: its leaves, its merges, and that it reads FREQ alone (42_tree_builder.md R160, R161). -/

namespace Sys2Proof.Machine

/-! ### Adding an entry (42_tree_builder.md R160) -/

@[simp] theorem Forest.add_count (f : Forest) (n : Node) : (f.add n).count = f.count + 1 := rfl

@[simp] theorem Forest.add_queue (f : Forest) (n : Node) : (f.add n).queue = f.queue ++ [f.count] := rfl

theorem Forest.add_node_of_lt (f : Forest) (n : Node) {i : Nat} (hi : i < f.count) :
    (f.add n).node[i]? = f.node[i]? :=
  Vector.getElem?_setIfInBounds_ne hi.ne'

theorem Forest.add_node_count {f : Forest} (n : Node) (hcap : f.count < 513) :
    (f.add n).node[f.count]? = some n :=
  Vector.getElem?_setIfInBounds_self_of_lt hcap

/-- The forest after a merge of `l` and `r` that leaves the queue `q`. -/
def Forest.merge (f : Forest) (l r : Nat) (q : List Nat) : Forest :=
  Forest.add { f with queue := q } (mergeNode f.node l r)

section
variable {f : Forest} (l r : Nat) (q : List Nat)

@[simp] theorem Forest.merge_count : (f.merge l r q).count = f.count + 1 := rfl

@[simp] theorem Forest.merge_queue : (f.merge l r q).queue = q ++ [f.count] := rfl

theorem Forest.merge_node_of_lt {i : Nat} (hi : i < f.count) : (f.merge l r q).node[i]? = f.node[i]? :=
  Forest.add_node_of_lt { f with queue := q } _ hi

theorem Forest.merge_node_count (hcap : f.count < 513) :
    (f.merge l r q).node[f.count]? = some (mergeNode f.node l r) :=
  Forest.add_node_count (f := { f with queue := q }) _ hcap

end

theorem leafNode_sym {v : Nat} (count : Word) (hv : v ≤ 256) : (leafNode v count).sym.toNat = v := by
  rw [leafNode, BitVec.toNat_ofNat, Nat.mod_eq_of_lt (by omega)]

theorem leafNode_wgt (v : Nat) (count : Word) : (leafNode v count).wgt.toNat = count.toNat :=
  BitVec.toNat_setWidth_of_le (by decide)

/-! ### The leaves (42_tree_builder.md R160, R161) -/

/-- The forest that holds the leaves of the symbols `syms` of `s`, one after the other, and nothing else. -/
structure LeavesOf (s : State) (syms : List Nat) (f : Forest) : Prop where
  count : f.count = syms.length
  queue : f.queue = List.range syms.length
  leaf : ∀ j v : Nat, syms[j]? = some v → f.node[j]? = some (leafNode v (s.freqAt v))

theorem LeavesOf.add {s : State} {syms : List Nat} {f : Forest} (h : LeavesOf s syms f) (hcap : syms.length < 513)
    (v : Nat) : LeavesOf s (syms ++ [v]) (f.add (leafNode v (s.freqAt v))) where
  count := by rw [Forest.add_count, h.count, List.length_append, List.length_singleton]
  queue := by
    rw [Forest.add_queue, h.queue, h.count, List.length_append, List.length_singleton, List.range_succ]
  leaf j w hw := by
    obtain hj | rfl | hj := Nat.lt_trichotomy j syms.length
    · rw [Forest.add_node_of_lt f _ (h.count ▸ hj)]
      exact h.leaf j w (by rwa [List.getElem?_append_left hj] at hw)
    · rw [List.getElem?_concat_length, Option.some_inj] at hw
      rw [← h.count, Forest.add_node_count _ (h.count ▸ hcap), hw]
    · rw [List.getElem?_eq_none (by rw [List.length_append, List.length_singleton]; omega)] at hw
      cases hw

theorem addLeaves_leavesOf {s : State} : ∀ {rest syms : List Nat} {f : Forest}, LeavesOf s syms f →
    syms.length + rest.length ≤ 513 →
    LeavesOf s (syms ++ rest.filter fun v => s.freqAt v ≠ 0) (addLeaves s rest f)
  | [], syms, f, h, _ => by rwa [List.filter_nil, List.append_nil]
  | v :: rest, syms, f, h, hcap => by
    rw [List.length_cons] at hcap
    rw [addLeaves]
    split
    next hzero =>
      rw [List.filter_cons_of_neg (by simpa using hzero)]
      exact addLeaves_leavesOf h (by omega)
    next hpos =>
      rw [List.filter_cons_of_pos (by simpa using hpos), List.append_cons]
      exact addLeaves_leavesOf (h.add (by omega) v) (by rw [List.length_append, List.length_singleton]; omega)

theorem buildLeaves_leavesOf (s : State) : LeavesOf s s.countedSymbols (buildLeaves s) :=
  addLeaves_leavesOf (rest := List.range 257) (syms := []) ⟨rfl, rfl, fun _ _ h => by cases h⟩ (by simp)

theorem length_countedSymbols_le (s : State) : s.countedSymbols.length ≤ 257 :=
  (List.length_filter_le _ _).trans_eq List.length_range

theorem countedSymbols_le {s : State} {v : Nat} (h : v ∈ s.countedSymbols) : v ≤ 256 :=
  Nat.le_of_lt_succ (List.mem_range.mp (List.mem_of_mem_filter h))

/-! ### The merge loop (42_tree_builder.md R160) -/

/-- Everything the merge loop can do: it takes the only entry of the queue as the root, or it merges two and goes on. -/
theorem mergeLoop_some {k : Nat} {f g : Forest} {root : Nat} (h : mergeLoop k f = some (g, root)) :
    ∃ m l q, k = m + 1 ∧ removeMin f.node f.queue = some (l, q) ∧
      ((removeMin f.node q = none ∧ g = f ∧ root = l) ∨
        ∃ r q', removeMin f.node q = some (r, q') ∧ mergeLoop m (f.merge l r q') = some (g, root)) := by
  cases k with
  | zero => cases h
  | succ m =>
    rw [mergeLoop] at h
    split at h
    · cases h
    next l q hl =>
      refine ⟨m, l, q, rfl, hl, ?_⟩
      split at h
      next hr =>
        cases h
        exact .inl ⟨hr, rfl, rfl⟩
      next r q' hr => exact .inr ⟨r, q', hr, h⟩

/-- What holds of the leaves and is kept by each merge holds of the finished forest, whose queue is the root alone. -/
theorem mergeLoop_keeps {P : Forest → Prop}
    (hmerge : ∀ f l r q q', P f → removeMin f.node f.queue = some (l, q) → removeMin f.node q = some (r, q') →
      P (f.merge l r q'))
    {k : Nat} {f g : Forest} {root : Nat} (hf : P f) (h : mergeLoop k f = some (g, root)) : P g ∧ g.queue = [root] := by
  induction k generalizing f with
  | zero => cases h
  | succ k ih =>
    obtain ⟨m, l, q, hk, hl, ⟨hr, rfl, rfl⟩ | ⟨r, q', hr, hrest⟩⟩ := mergeLoop_some h
    · refine ⟨hf, ?_⟩
      obtain ⟨hmem, hq, -⟩ := removeMin_some hl
      have hperm := List.perm_cons_erase hmem
      rw [← hq, removeMin_none.mp hr] at hperm
      exact List.perm_singleton.mp hperm
    · obtain rfl : k = m := Nat.succ.inj hk
      exact ih (hmerge f l r q q' hf hl hr) hrest

/-! ### The two least of the queue (42_tree_builder.md R161) -/

theorem entryWeight_eq_weightOf (node : Vector Node 513) (i : Nat) : entryWeight node i = (weightOf node i).toNat := by
  rw [entryWeight, weightOf]
  cases node[i]? <;> rfl

theorem keyLess_iff_entryBefore (node : Vector Node 513) (i j : Nat) :
    keyLess node i j = true ↔ entryBefore node i j := by
  rw [keyLess_iff, entryBefore, entryWeight_eq_weightOf, entryWeight_eq_weightOf]

/-- The children of the node `n`, made as entry `i` above `k` leaves, were the two entries of least key in the queue, the
lesser on the left. -/
structure MergesTwoLeast (node : Vector Node 513) (k i : Nat) (n : Node) : Prop where
  left : InQueueAt node k i n.left.toNat
  right : InQueueAt node k i n.right.toNat
  ordered : entryBefore node n.left.toNat n.right.toNat
  least : ∀ j, InQueueAt node k i j → j ≠ n.left.toNat → j ≠ n.right.toNat →
    entryBefore node n.left.toNat j ∧ entryBefore node n.right.toNat j

section
variable {node node' : Vector Node 513} {k i j : Nat}

theorem InQueueAt.lt (h : InQueueAt node k i j) : j < i := h.1

theorem InQueueAt.congr (h : ∀ m, m < i → node'[m]? = node[m]?) :
    InQueueAt node' k i j ↔ InQueueAt node k i j :=
  and_congr_right fun _ => forall₄_congr fun m _ _ hm => by rw [h m hm]

theorem entryBefore_congr (hi : node'[i]? = node[i]?) (hj : node'[j]? = node[j]?) :
    entryBefore node' i j ↔ entryBefore node i j := by
  simp only [entryBefore, entryWeight, hi, hj]

/-- Only the entries made before it say how a node was merged. -/
theorem MergesTwoLeast.congr {n : Node} (h : MergesTwoLeast node k i n) (hnode : ∀ m, m < i → node'[m]? = node[m]?) :
    MergesTwoLeast node' k i n where
  left := (InQueueAt.congr hnode).mpr h.left
  right := (InQueueAt.congr hnode).mpr h.right
  ordered := (entryBefore_congr (hnode _ h.left.lt) (hnode _ h.right.lt)).mpr h.ordered
  least j hj hl hr := by
    obtain ⟨hleft, hright⟩ := h.least j ((InQueueAt.congr hnode).mp hj) hl hr
    exact ⟨(entryBefore_congr (hnode _ h.left.lt) (hnode _ hj.lt)).mpr hleft,
      (entryBefore_congr (hnode _ h.right.lt) (hnode _ hj.lt)).mpr hright⟩

/-- The queue after entry `i` is made: that entry, and all that were in it but the two children. -/
theorem inQueueAt_succ {n : Node} (hk : k ≤ i) (hn : node[i]? = some n)
    (hmerged : ∀ m p, k ≤ m → m ≤ i → node[m]? = some p → p.left.toNat < m ∧ p.right.toNat < m) :
    InQueueAt node k (i + 1) j ↔ j = i ∨ InQueueAt node k i j ∧ j ≠ n.left.toNat ∧ j ≠ n.right.toNat := by
  constructor
  · rintro ⟨hj, hfree⟩
    obtain hlt | rfl := Nat.lt_succ_iff_lt_or_eq.mp hj
    · obtain ⟨hl, hr⟩ := hfree i n hk (Nat.lt_succ_self i) hn
      exact .inr ⟨⟨hlt, fun m p hkm hm => hfree m p hkm (hm.trans (Nat.lt_succ_self i))⟩, hl.symm, hr.symm⟩
    · exact .inl rfl
  · rintro (rfl | ⟨⟨hj, hfree⟩, hl, hr⟩)
    · refine ⟨Nat.lt_succ_self j, fun m p hkm hm hp => ?_⟩
      obtain ⟨hpl, hpr⟩ := hmerged m p hkm (Nat.le_of_lt_succ hm) hp
      omega
    · refine ⟨hj.trans (Nat.lt_succ_self i), fun m p hkm hm hp => ?_⟩
      obtain hlt | rfl := Nat.lt_succ_iff_lt_or_eq.mp hm
      · exact hfree m p hkm hlt hp
      · rw [hn, Option.some_inj] at hp
        subst hp
        exact ⟨hl.symm, hr.symm⟩

end

/-! ### What BUILD's merges keep (42_tree_builder.md R160, R161) -/

/-- BUILD, run in `s`, stands at the forest `f`: the leaves stand first, every other entry merged the two least of its
queue, and the queue is the entries that are no child yet, one fewer after each merge. -/
structure Merging (s : State) (f : Forest) : Prop where
  size : f.count + f.queue.length = 2 * s.countedSymbols.length
  leafCount : s.countedSymbols.length ≤ f.count
  leaf : ∀ j v : Nat, s.countedSymbols[j]? = some v → f.node[j]? = some (leafNode v (s.freqAt v))
  nodup : f.queue.Nodup
  queue : ∀ j, j ∈ f.queue ↔ InQueueAt f.node s.countedSymbols.length f.count j
  merged : ∀ (i : Nat) (n : Node), s.countedSymbols.length ≤ i → i < f.count → f.node[i]? = some n →
    MergesTwoLeast f.node s.countedSymbols.length i n

theorem Merging.lt_of_mem_queue {s : State} {f : Forest} {j : Nat} (h : Merging s f) (hj : j ∈ f.queue) :
    j < f.count :=
  ((h.queue j).mp hj).lt

theorem buildLeaves_merging (s : State) : Merging s (buildLeaves s) := by
  obtain ⟨hcount, hqueue, hleaf⟩ := buildLeaves_leavesOf s
  refine ⟨?_, hcount.ge, hleaf, ?_, fun j => ?_, fun i n hk hi => ?_⟩
  · rw [hqueue, List.length_range, hcount, Nat.two_mul]
  · rw [hqueue]
    exact List.nodup_range
  · rw [hqueue, List.mem_range, hcount]
    exact ⟨fun hj => ⟨hj, fun m _ hkm hm => absurd hkm hm.not_ge⟩, InQueueAt.lt⟩
  · exact absurd (hcount ▸ hi) hk.not_gt

section
variable {s : State} {f : Forest} {l r : Nat} {q q' : List Nat} (h : Merging s f)
  (hl : removeMin f.node f.queue = some (l, q)) (hr : removeMin f.node q = some (r, q'))
include h hl hr

theorem Merging.mem_rest (j : Nat) : j ∈ q' ↔ j ∈ f.queue ∧ j ≠ l ∧ j ≠ r := by
  obtain ⟨-, rfl, -⟩ := removeMin_some hl
  obtain ⟨-, rfl, -⟩ := removeMin_some hr
  rw [(h.nodup.erase l).mem_erase_iff, h.nodup.mem_erase_iff]
  tauto

/-- A merge takes two entries off the queue, so there is room for the one it makes. -/
theorem Merging.room : f.queue.length = q'.length + 2 ∧ f.count < 513 := by
  obtain ⟨hmemL, rfl, -⟩ := removeMin_some hl
  obtain ⟨hmemR, rfl, -⟩ := removeMin_some hr
  have hlenL := List.length_erase_add_one hmemL
  have hlenR := List.length_erase_add_one hmemR
  have hsize := h.size
  have hcap := length_countedSymbols_le s
  omega

theorem Merging.taken_lt : l < f.count ∧ r < f.count := by
  obtain ⟨hmemL, rfl, -⟩ := removeMin_some hl
  obtain ⟨hmemR, -, -⟩ := removeMin_some hr
  exact ⟨h.lt_of_mem_queue hmemL, h.lt_of_mem_queue (List.mem_of_mem_erase hmemR)⟩

/-- Indices of the store fit the links of a node. -/
theorem Merging.mergeNode_links :
    (mergeNode f.node l r).left.toNat = l ∧ (mergeNode f.node l r).right.toNat = r := by
  obtain ⟨-, hcap⟩ := h.room hl hr
  obtain ⟨hlt, hrt⟩ := h.taken_lt hl hr
  simp only [mergeNode, BitVec.toNat_ofNat]
  omega

/-- RemoveMin, twice, takes the two least. -/
theorem Merging.mergeNode_mergesTwoLeast :
    MergesTwoLeast f.node s.countedSymbols.length f.count (mergeNode f.node l r) := by
  obtain ⟨hleft, hright⟩ := h.mergeNode_links hl hr
  obtain ⟨hmemL, hq, hleastL⟩ := removeMin_some hl
  obtain ⟨hmemR, -, hleastR⟩ := removeMin_some hr
  have hrest (j : Nat) : j ∈ q ↔ j ≠ l ∧ j ∈ f.queue := by rw [hq, h.nodup.mem_erase_iff]
  obtain ⟨hne, hmemR⟩ := (hrest r).mp hmemR
  refine ⟨by rw [hleft, ← h.queue]; exact hmemL, by rw [hright, ← h.queue]; exact hmemR, ?_, fun j hj hjl hjr => ?_⟩
  · rw [hleft, hright, ← keyLess_iff_entryBefore]
    exact hleastL r hmemR hne
  · rw [hleft] at hjl ⊢
    rw [hright] at hjr ⊢
    have hjq := (h.queue j).mpr hj
    rw [← keyLess_iff_entryBefore, ← keyLess_iff_entryBefore]
    exact ⟨hleastL j hjq hjl, hleastR j ((hrest j).mpr ⟨hjl, hjq⟩) hjr⟩

/-- The children of every entry so far, the merged one among them, stand before it. -/
theorem Merging.children_lt (m : Nat) (p : Node) (hk : s.countedSymbols.length ≤ m) (hm : m ≤ f.count)
    (hp : (f.merge l r q').node[m]? = some p) : p.left.toNat < m ∧ p.right.toNat < m := by
  obtain ⟨-, hcap⟩ := h.room hl hr
  obtain hlt | rfl := hm.lt_or_eq
  · rw [Forest.merge_node_of_lt l r q' hlt] at hp
    have hmerged := h.merged m p hk hlt hp
    exact ⟨hmerged.left.lt, hmerged.right.lt⟩
  · rw [Forest.merge_node_count l r q' hcap, Option.some_inj] at hp
    subst hp
    have hnew := h.mergeNode_mergesTwoLeast hl hr
    exact ⟨hnew.left.lt, hnew.right.lt⟩

theorem Merging.merge : Merging s (f.merge l r q') := by
  obtain ⟨hlen, hcap⟩ := h.room hl hr
  obtain ⟨hleft, hright⟩ := h.mergeNode_links hl hr
  have hold (i : Nat) (hi : i < f.count) := Forest.merge_node_of_lt l r q' hi
  have hat := Forest.merge_node_count l r q' hcap
  refine ⟨?_, ?_, fun j v hv => ?_, ?_, fun j => ?_, fun i n hk hi hn => ?_⟩
  · have := h.size
    rw [Forest.merge_count, Forest.merge_queue, List.length_append, List.length_singleton]
    omega
  · exact h.leafCount.trans (Nat.le_succ f.count)
  · obtain ⟨hj, -⟩ := List.getElem?_eq_some_iff.mp hv
    rw [hold j (hj.trans_le h.leafCount), h.leaf j v hv]
  · obtain ⟨-, hq, -⟩ := removeMin_some hl
    obtain ⟨-, hq', -⟩ := removeMin_some hr
    have hnodup : q'.Nodup := hq' ▸ hq ▸ (h.nodup.erase l).erase r
    have hnew : f.count ∉ q' := fun hmem => by
      obtain ⟨hq, -⟩ := (h.mem_rest hl hr _).mp hmem
      exact (h.lt_of_mem_queue hq).false
    exact hnodup.append (List.nodup_singleton _) (List.disjoint_singleton.mpr hnew)
  · rw [Forest.merge_count, inQueueAt_succ h.leafCount hat (h.children_lt hl hr), InQueueAt.congr hold, ← h.queue,
      Forest.merge_queue, List.mem_append, List.mem_singleton, h.mem_rest hl hr,
      hleft, hright, or_comm]
  · obtain hlt | rfl := Nat.lt_succ_iff_lt_or_eq.mp hi
    · exact (h.merged i n hk hlt (hold i hlt ▸ hn)).congr fun m hm => hold m (hm.trans hlt)
    · rw [hat, Option.some_inj] at hn
      subst hn
      exact (h.mergeNode_mergesTwoLeast hl hr).congr hold

end

/-! ### BUILD reads FREQ alone (42_tree_builder.md R161) -/

/-- Two forests agree when they have the same entries in use and the same queue of such entries; what a store holds past
them does not matter. -/
structure Forest.Agrees (f g : Forest) : Prop where
  count : g.count = f.count
  queue : g.queue = f.queue
  inUse : ∀ i ∈ f.queue, i < f.count
  node : ∀ i : Nat, i < f.count → g.node[i]? = f.node[i]?

theorem leastKey_congr {node node' : Vector Node 513} : ∀ {rest : List Nat} {i : Nat},
    (∀ j ∈ i :: rest, weightOf node' j = weightOf node j) → leastKey node' i rest = leastKey node i rest
  | [], _, _ => rfl
  | k :: rest, i, h => by
    have hkey : keyLess node' k i = keyLess node k i := by
      rw [keyLess, keyLess, h k (by simp), h i (by simp)]
    have hstep (node : Vector Node 513) :
        leastKey node i (k :: rest) = leastKey node (if keyLess node k i then k else i) rest := rfl
    rw [hstep, hstep, hkey]
    refine leastKey_congr fun j hj => h j ?_
    split at hj <;> simp only [List.mem_cons] at hj ⊢ <;> tauto

theorem removeMin_congr {node node' : Vector Node 513} {q : List Nat}
    (h : ∀ j ∈ q, weightOf node' j = weightOf node j) : removeMin node' q = removeMin node q := by
  cases q with
  | nil => rfl
  | cons i rest => rw [removeMin, removeMin, leastKey_congr h]

section
variable {f g : Forest} (h : f.Agrees g)
include h

theorem Forest.Agrees.weightOf {i : Nat} (hi : i < f.count) : weightOf g.node i = weightOf f.node i := by
  rw [Machine.weightOf, Machine.weightOf, h.node i hi]

theorem Forest.Agrees.removeMin {q : List Nat} (hq : ∀ i ∈ q, i < f.count) :
    removeMin g.node q = removeMin f.node q :=
  removeMin_congr fun i hi => h.weightOf (hq i hi)

theorem Forest.Agrees.add (n : Node) : (f.add n).Agrees (g.add n) where
  count := congrArg (· + 1) h.count
  queue := by rw [Forest.add_queue, Forest.add_queue, h.queue, h.count]
  inUse i hi := by
    rw [Forest.add_queue, List.mem_append, List.mem_singleton] at hi
    rw [Forest.add_count]
    obtain hi | rfl := hi
    · exact (h.inUse i hi).trans (Nat.lt_succ_self _)
    · exact Nat.lt_succ_self _
  node i hi := by
    simp only [Forest.add, Vector.getElem?_setIfInBounds, h.count]
    split
    · rfl
    · exact h.node i (by rw [Forest.add_count] at hi; omega)

theorem Forest.Agrees.merge {l r : Nat} {q : List Nat} (hl : l < f.count) (hr : r < f.count)
    (hq : ∀ i ∈ q, i < f.count) : (f.merge l r q).Agrees (g.merge l r q) := by
  have hnode : mergeNode g.node l r = mergeNode f.node l r := by
    rw [mergeNode, mergeNode, h.weightOf hl, h.weightOf hr]
  rw [Forest.merge, Forest.merge, hnode]
  exact Forest.Agrees.add (f := { f with queue := q }) (g := { g with queue := q }) ⟨h.count, rfl, hq, h.node⟩ _

end

theorem addLeaves_agrees {s s' : State} (hfreq : s'.freq = s.freq) : ∀ {syms : List Nat} {f g : Forest},
    f.Agrees g → (addLeaves s syms f).Agrees (addLeaves s' syms g)
  | [], _, _, h => h
  | v :: syms, f, g, h => by
    rw [addLeaves, addLeaves, freqAt_congr hfreq]
    split
    · exact addLeaves_agrees hfreq h
    · exact addLeaves_agrees hfreq (h.add _)

theorem buildLeaves_agrees {s s' : State} (hfreq : s'.freq = s.freq) : (buildLeaves s).Agrees (buildLeaves s') :=
  addLeaves_agrees hfreq ⟨rfl, rfl, by simp, by simp⟩

theorem mergeLoop_agrees {k : Nat} {f g f' : Forest} {root : Nat} (h : f.Agrees g)
    (hf : mergeLoop k f = some (f', root)) : ∃ g', mergeLoop k g = some (g', root) ∧ f'.Agrees g' := by
  induction k generalizing f g with
  | zero => cases hf
  | succ k ih =>
    obtain ⟨m, l, q, hk, hl, hrest⟩ := mergeLoop_some hf
    obtain rfl : k = m := Nat.succ.inj hk
    obtain ⟨hmemL, hq, -⟩ := removeMin_some hl
    have hqUse : ∀ i ∈ q, i < f.count := fun i hi => h.inUse i (List.mem_of_mem_erase (hq ▸ hi))
    have hl' : removeMin g.node g.queue = some (l, q) := by rw [h.queue, h.removeMin h.inUse, hl]
    rw [mergeLoop, hl']
    simp only [h.removeMin hqUse]
    obtain ⟨hr, rfl, rfl⟩ | ⟨r, q', hr, hloop⟩ := hrest
    · exact ⟨g, by rw [hr], h⟩
    · obtain ⟨hmemR, hq', -⟩ := removeMin_some hr
      rw [hr]
      exact ih (h.merge (h.inUse l hmemL) (hqUse r hmemR) fun i hi => hqUse i (List.mem_of_mem_erase (hq' ▸ hi))) hloop

/-! ### BUILD (42_tree_builder.md R160, R161) -/

/-- The state with the tree of the forest `f`, rooted at `root`, and no codes. -/
def State.withForest (s : State) (f : Forest) (root : Nat) : State := { s with
  codesValid := false, node := f.node, root := BitVec.ofNat 10 root, ncount := BitVec.ofNat 10 f.count, treeValid := true }

/-- Everything BUILD can do when it ends: it merges the leaves, and puts the finished forest in the store. -/
theorem exec_build_next {s t : State} (h : exec .build s = .next t) : ∃ f root,
    mergeLoop (buildLeaves s).queue.length (buildLeaves s) = some (f, root) ∧
      t = (s.withForest f root).undefineNodes.complete := by
  rw [exec, execBuild] at h
  split at h
  · cases h
  next f root hloop =>
    cases h
    exact ⟨f, root, hloop, rfl⟩

section
variable {s : State} {f : Forest} {root : Nat}
  (hloop : mergeLoop (buildLeaves s).queue.length (buildLeaves s) = some (f, root))
include hloop

theorem mergeLoop_merging : Merging s f ∧ f.queue = [root] :=
  mergeLoop_keeps (fun _ _ _ _ _ h hl hr => h.merge hl hr) (buildLeaves_merging s) hloop

theorem count_of_mergeLoop : f.count + 1 = 2 * s.countedSymbols.length := by
  obtain ⟨hm, hq⟩ := mergeLoop_merging hloop
  rw [← hm.size, hq, List.length_singleton]

theorem withForest_ncount : (s.withForest f root).ncount.toNat = f.count := by
  have hcount := count_of_mergeLoop hloop
  have hcap := length_countedSymbols_le s
  exact (BitVec.toNat_ofNat ..).trans (Nat.mod_eq_of_lt (by omega))

/-- The entries in use are those of the finished forest. -/
theorem withForest_node {i : Nat} (hi : i < f.count) :
    (s.withForest f root).undefineNodes.complete.node[i]? = f.node[i]? := by
  have hcount := count_of_mergeLoop hloop
  have hcap := length_countedSymbols_le s
  exact getElem?_undefineNodes (s := s.withForest f root) (by rwa [withForest_ncount hloop]) (by omega)

end

/-- Settles O25: the leaves and the merges by the invariant `Merging`, and FREQ alone by `mergeLoop_agrees`. -/
theorem buildMergesTheTwoLeast : Obligations.BuildMergesTheTwoLeast := by
  intro s t _ hexec
  obtain ⟨f, root, hloop, rfl⟩ := exec_build_next hexec
  obtain ⟨hm, -⟩ := mergeLoop_merging hloop
  have hncount : (s.withForest f root).undefineNodes.complete.ncount.toNat = f.count := withForest_ncount hloop
  have hnode (i : Nat) (hi : i < f.count) := withForest_node hloop hi
  refine ⟨fun j v hv => ?_, fun i n hk hi hn => ?_, fun s' t' hfreq hexec' => ?_⟩
  · obtain ⟨hj, -⟩ := List.getElem?_eq_some_iff.mp hv
    refine ⟨leafNode v (s.freqAt v), ?_, rfl, ?_, ?_⟩
    · rw [hnode j (hj.trans_le hm.leafCount), hm.leaf j v hv]
    · exact leafNode_sym _ (countedSymbols_le (List.mem_of_getElem? hv))
    · exact leafNode_wgt v _
  · rw [hncount] at hi
    obtain ⟨hleft, hright, hordered, hleast⟩ := (hm.merged i n hk hi (hnode i hi ▸ hn)).congr
      fun m hmi => hnode m (hmi.trans hi)
    exact ⟨hleft, hright, hordered, hleast⟩
  · obtain ⟨f', root', hloop', rfl⟩ := exec_build_next hexec'
    have hleaves := buildLeaves_agrees hfreq
    obtain ⟨g, hg, hagrees⟩ := mergeLoop_agrees hleaves hloop
    rw [← hleaves.queue, hloop'] at hg
    cases hg
    refine ⟨congrArg (BitVec.ofNat 10) hagrees.count, rfl, fun i hi => ?_⟩
    rw [hncount] at hi
    rw [withForest_node hloop' (hagrees.count ▸ hi), hnode i hi, hagrees.node i hi]

end Sys2Proof.Machine
end

section
/-! CODE_RD, its word and the entry it packs into RES0 and RES1 (30_encoding.md R93 to R96; 43_code_table.md R183). -/

namespace Sys2Proof

/-! ### CODE_RD's word (30_encoding.md R93, R95) -/

section
variable {sym wsel op : Nat}

theorem symOf_symbolWselWord (hsym : sym < 512) (hwsel : wsel < 8) (hop : op < 256) :
    symOf (BitVec.ofNat 32 ((wsel * 512 + sym) * 256 + op)) = sym := by
  rw [symOf, BitVec.extractLsb'_toNat, toNat_operandWord (by omega) hop, Nat.shiftRight_eq_div_pow]
  omega

theorem wselOf_symbolWselWord (hsym : sym < 512) (hwsel : wsel < 8) (hop : op < 256) :
    wselOf (BitVec.ofNat 32 ((wsel * 512 + sym) * 256 + op)) = wsel := by
  rw [wselOf, BitVec.extractLsb'_toNat, toNat_operandWord (by omega) hop, Nat.shiftRight_eq_div_pow]
  omega

theorem decode_codeRd (hsym : sym < 512) (hwsel : wsel < 8) :
    decode (BitVec.ofNat 32 (wsel * 2 ^ 17 + sym * 256 + 0x31)) = .ok (.codeRd sym wsel) := by
  have hop : 0x31 < 256 := by decide
  have hoperand : wsel * 512 + sym < 2 ^ 12 := by omega
  rw [show wsel * 2 ^ 17 + sym * 256 + 0x31 = (wsel * 512 + sym) * 256 + 0x31 by ring, decode,
    opcodeOf_operandWord (by omega) hop, symOf_symbolWselWord hsym hwsel hop, wselOf_symbolWselWord hsym hwsel hop]
  exact reservedFrom_ok _ (operandWord_reserved (w := 12) (by decide) hoperand hop)

end

end Sys2Proof

namespace Sys2Proof.Machine

/-! ### A code as numbers (43_code_table.md R183) -/

theorem codeHead_eq_ofNat (e : CodeEntry) :
    codeHead e = BitVec.ofNat 32 (e.valid.toNat * 2 ^ 31 + e.len.toNat) := by
  have hvalid : (flagAt e.valid 31).toNat = e.valid.toNat * 2 ^ 31 := by
    rw [flagAt, toNat_setWidth_shiftLeft _ (by decide), BitVec.toNat_ofBool]
  have hlen : (e.len.setWidth 32).toNat = e.len.toNat := BitVec.toNat_setWidth_of_le (by decide)
  have hvalidBit := e.valid.toNat_lt
  have hlenBits := e.len.isLt
  apply BitVec.eq_of_toNat_eq
  rw [codeHead, toNat_or_of_dvd 31 (by omega) (by omega), BitVec.toNat_ofNat]
  omega

theorem codeWord_eq_ofNat (e : CodeEntry) (wsel : Nat) :
    codeWord e wsel = BitVec.ofNat 32 (e.bits.toNat / 2 ^ (32 * wsel) % 2 ^ 32) := by
  apply BitVec.eq_of_toNat_eq
  rw [codeWord, BitVec.extractLsb'_toNat, Nat.shiftRight_eq_div_pow, BitVec.toNat_ofNat, Nat.mod_mod]

theorem codeAt_eq_getElem (s : State) {v : Nat} (h : v < 257) : s.codeAt v = s.code[v] := by
  rw [State.codeAt, Vector.getElem?_eq_getElem h, Option.getD_some]

/-! ### CODE_RD (43_code_table.md R183) -/

section
variable {sym : Nat} (wsel : Nat) {s : State}

theorem exec_codeRd_badOperand (h : 257 ≤ sym) :
    exec (.codeRd sym wsel) s = raise .badOperand (fieldDetail sym) s :=
  if_pos (by simpa [symInAlphabet] using Nat.lt_of_succ_le h)

theorem exec_codeRd_noCodes (h : sym < 257) (hcodes : s.codesValid = false) :
    exec (.codeRd sym wsel) s = raise .noCodes 0 s := by
  have hsym : symInAlphabet sym = true := decide_eq_true (Nat.le_of_lt_succ h)
  rw [exec, execCodeRd, hsym, hcodes, if_neg (by decide), if_pos (by decide)]

theorem exec_codeRd (h : sym < 257) (hcodes : s.codesValid = true) :
    exec (.codeRd sym wsel) s = finish (s.setResults (codeHead s.code[sym]) (codeWord s.code[sym] wsel) 0) := by
  have hsym : symInAlphabet sym = true := decide_eq_true (Nat.le_of_lt_succ h)
  rw [exec, execCodeRd, hsym, hcodes, if_neg (by decide), if_neg (by decide), codeAt_eq_getElem s h]

end

/-- Settles O31: `decode_codeRd` for the word, and the command's three ends. -/
theorem codeRdReadsTheEntry : Obligations.CodeRdReadsTheEntry := by
  refine ⟨fun _ _ => decode_codeRd, fun s sym wsel => ⟨fun h => ?_, fun h hcodes => ?_,
    fun h hcodes => completes_of_finish ?_⟩⟩
  · exact takesFault_of_raise (exec_codeRd_badOperand wsel h) rfl
  · exact takesFault_of_raise (exec_codeRd_noCodes wsel h hcodes) rfl
  · rw [exec_codeRd wsel h hcodes, codeHead_eq_ofNat, codeWord_eq_ofNat]
    rfl

end Sys2Proof.Machine
end

section
/-! GENCODES: the table it makes of the tree the store holds, and the codes in it (43_code_table.md R180, R181). -/

namespace Sys2Proof.Machine

/-! ### The leaves of a tree (43_code_table.md R181) -/

theorem Shape.mem_leaves_node {l r : Shape} {e : Nat × List Bool} : e ∈ (Shape.node l r).leaves ↔
    (∃ a ∈ l.leaves, (a.1, false :: a.2) = e) ∨ ∃ a ∈ r.leaves, (a.1, true :: a.2) = e := by
  rw [Shape.leaves, List.mem_append, List.mem_map, List.mem_map]

theorem Shape.length_le_depth : ∀ {t : Shape} {e : Nat × List Bool}, e ∈ t.leaves → e.2.length ≤ t.depth
  | .leaf y, e, he => by
    obtain rfl := List.mem_singleton.mp he
    exact le_rfl
  | .node l r, e, he => by
    rw [Shape.depth, Nat.add_comm]
    obtain ⟨a, ha, rfl⟩ | ⟨a, ha, rfl⟩ := Shape.mem_leaves_node.mp he
    · exact Nat.succ_le_succ ((Shape.length_le_depth ha).trans (le_max_left ..))
    · exact Nat.succ_le_succ ((Shape.length_le_depth ha).trans (le_max_right ..))

/-- Two leaves of which one's path begins the other's are the same leaf. -/
theorem Shape.leaf_eq_of_prefix : ∀ {t : Shape} {e e' : Nat × List Bool}, e ∈ t.leaves → e' ∈ t.leaves →
    e.2 <+: e'.2 → e = e'
  | .leaf y, e, e', he, he', _ => (List.mem_singleton.mp he).trans (List.mem_singleton.mp he').symm
  | .node l r, e, e', he, he', hp => by
    obtain ⟨a, ha, rfl⟩ | ⟨a, ha, rfl⟩ := Shape.mem_leaves_node.mp he <;>
      obtain ⟨b, hb, rfl⟩ | ⟨b, hb, rfl⟩ := Shape.mem_leaves_node.mp he' <;>
      obtain ⟨hbit, hrest⟩ := List.cons_prefix_cons.mp hp
    · rw [Shape.leaf_eq_of_prefix ha hb hrest]
    · cases hbit
    · cases hbit
    · rw [Shape.leaf_eq_of_prefix ha hb hrest]

/-- Only a tree that is one leaf has a leaf with the empty path. -/
theorem Shape.eq_leaf_of_nil_path {t : Shape} {y : Nat} (h : (y, []) ∈ t.leaves) : ∃ sym, t = .leaf sym := by
  cases t with
  | leaf sym => exact ⟨sym, rfl⟩
  | node l r => obtain ⟨a, -, ha⟩ | ⟨a, -, ha⟩ := Shape.mem_leaves_node.mp h <;> cases ha

/-- The Kraft sum of the paths of a tree: each half of a node's leaves sums to half as much as its own tree. -/
theorem Shape.kraft_leaves (t : Shape) : (t.leaves.map fun e => (1 : ℚ) / 2 ^ e.2.length).sum = 1 := by
  have hhalf (b : Bool) (l : List (Nat × List Bool)) :
      ((l.map fun e => (e.1, b :: e.2)).map fun e => (1 : ℚ) / 2 ^ e.2.length).sum =
        (l.map fun e => (1 : ℚ) / 2 ^ e.2.length).sum * (1 / 2) := by
    rw [← List.sum_map_mul_right, List.map_map]
    congr 2
    funext e
    simp only [Function.comp_apply, List.length_cons, pow_succ]
    ring
  induction t with
  | leaf y => simp [Shape.leaves]
  | node l r ihl ihr =>
    rw [Shape.leaves, List.map_append, List.sum_append, hhalf, hhalf, ihl, ihr]
    norm_num

/-! ### The table GENCODES makes (43_code_table.md R180) -/

theorem Shape.codeEntry_eq_elim (t : Shape) (y : Nat) : t.codeEntry y =
    (t.leaves.filter fun e => e.1 == y).getLast?.elim CodeEntry.absent fun e => codeOfPath e.2 := by
  rw [Shape.codeEntry]
  cases (t.leaves.filter fun e => e.1 == y).getLast? <;> rfl

/-- Of the codes written for a symbol the last stays. -/
theorem codeAt_setCodes (p : List Bool) (y : Nat) {leaves : List (Nat × List Bool)} (h : ∀ e ∈ leaves, e.1 ≤ 256)
    (s : State) : (s.setCodes p leaves).codeAt y =
      (leaves.filter fun e => e.1 == y).getLast?.elim (s.codeAt y) fun e => codeOfPath (p ++ e.2) := by
  induction leaves generalizing s with
  | nil => rfl
  | cons e leaves ih =>
    obtain ⟨he, hleaves⟩ := List.forall_mem_cons.mp h
    have hset := codeAt_setCode s e.1 y (codeOfPath (p ++ e.2)) he
    refine (ih hleaves (s.setCode e.1 (codeOfPath (p ++ e.2)))).trans ?_
    by_cases hy : e.1 = y
    · rw [List.filter_cons_of_pos (by simpa using hy), List.getLast?_cons, hset, if_pos hy.symm]
      cases (leaves.filter fun e => e.1 == y).getLast? <;> rfl
    · rw [List.filter_cons_of_neg (by simpa using hy), hset, if_neg (Ne.symm hy)]

theorem setCodes_code_eq_codeTable (s : State) {t : Shape} (ha : t.inAlphabet) :
    (s.clearCodes.setCodes [] t.leaves).code = t.codeTable := by
  ext1 y hy
  rw [← codeAt_eq_getElem _ hy, codeAt_setCodes [] y ha, codeAt_clearCodes, Shape.codeTable, getElem_tabulate,
    Shape.codeEntry_eq_elim]
  rfl

theorem exec_genCodes_noTree {s : State} (h : s.treeValid = false) : exec .genCodes s = raise .noTree 0 s :=
  if_pos (by rw [h]; rfl)

theorem exec_genCodes {s : State} {t : Shape} (htree : s.treeValid = true) (hholds : Holds s.node t s.root)
    (ha : t.inAlphabet) (hd : t.depth ≤ 256) :
    exec .genCodes s = finish { s with code := t.codeTable, codesValid := true } := by
  have hwalk : walk walkDepth s.root [] s.clearCodes = some (s.clearCodes.setCodes [] t.leaves) :=
    walk_of_holds hholds ha (Nat.lt_succ_of_le hd)
  rw [exec, execGenCodes, if_neg (by rw [htree]; decide), hwalk, setCodes_frame, setCodes_code_eq_codeTable s ha]
  rfl

/-- Settles O28: the walk writes the codes of the leaves in turn, and of one symbol's codes the last stays. -/
theorem genCodesMakesTheTable : Obligations.GenCodesMakesTheTable :=
  ⟨by decide, fun _ => ⟨fun h => takesFault_of_raise (exec_genCodes_noTree h) rfl,
    fun _ htree hholds ha hd => completes_of_finish (exec_genCodes htree hholds ha hd)⟩⟩

/-! ### The codes of a tree (43_code_table.md R181) -/

theorem Shape.codeEntry_of_last {t : Shape} {pre post : List (Nat × List Bool)} {y : Nat} {p : List Bool}
    (h : t.leaves = pre ++ (y, p) :: post) (hlast : ∀ e ∈ post, e.1 ≠ y) : t.codeEntry y = codeOfPath p := by
  have hpost : post.filter (fun e => e.1 == y) = [] := List.filter_eq_nil_iff.mpr (by simpa using hlast)
  rw [Shape.codeEntry_eq_elim, h, List.filter_append, List.filter_cons_of_pos (by simp), hpost, List.getLast?_concat]
  rfl

/-- A valid code is the path of a leaf of its symbol. -/
theorem Shape.exists_leaf_of_valid {t : Shape} {y : Nat} (h : (t.codeEntry y).valid = true) :
    ∃ p, (y, p) ∈ t.leaves ∧ t.codeEntry y = codeOfPath p := by
  rw [Shape.codeEntry_eq_elim] at h ⊢
  rcases hlast : (t.leaves.filter fun e => e.1 == y).getLast? with _ | ⟨z, p⟩
  · rw [hlast] at h
    cases h
  · obtain ⟨hmem, hz⟩ := List.mem_filter.mp (List.mem_of_getLast? hlast)
    obtain rfl : z = y := by simpa using hz
    exact ⟨p, hmem, by rw [hlast]; rfl⟩

theorem Shape.codeEntry_absent_of_notMem {t : Shape} {y : Nat} (h : y ∉ t.leaves.map Prod.fst) :
    t.codeEntry y = CodeEntry.absent := by
  have hnone : t.leaves.filter (fun e => e.1 == y) = [] := List.filter_eq_nil_iff.mpr fun e he hy =>
    h (List.mem_map.mpr ⟨e, he, by simpa using hy⟩)
  rw [Shape.codeEntry_eq_elim, hnone]
  rfl

/-- With no symbol twice each leaf is the last of its symbol. -/
theorem Shape.codeEntry_of_distinct {t : Shape} (hdistinct : t.distinct) {e : Nat × List Bool} (he : e ∈ t.leaves) :
    t.codeEntry e.1 = codeOfPath e.2 := by
  obtain ⟨pre, post, hleaves⟩ := List.append_of_mem he
  refine Shape.codeEntry_of_last hleaves fun e' he' heq => ?_
  rw [Shape.distinct, hleaves, List.map_append, List.map_cons, List.nodup_append] at hdistinct
  obtain ⟨-, hrest, -⟩ := hdistinct
  exact (List.nodup_cons.mp hrest).1 (heq ▸ List.mem_map_of_mem he')

theorem codeOfPath_len {p : List Bool} (h : p.length ≤ 256) : (codeOfPath p).len.toNat = p.length :=
  (BitVec.toNat_ofNat ..).trans (Nat.mod_eq_of_lt (by omega))

/-- With no symbol twice the symbols of valid codes are those of the leaves, each once. -/
theorem Shape.valid_symbols_perm {t : Shape} (ha : t.inAlphabet) (hdistinct : t.distinct) :
    ((List.range 257).filter fun y => (t.codeEntry y).valid).Perm (t.leaves.map Prod.fst) := by
  refine (List.perm_ext_iff_of_nodup (List.nodup_range.filter _) hdistinct).mpr fun y => ?_
  rw [List.mem_filter, List.mem_range, List.mem_map]
  constructor
  · rintro ⟨-, hvalid⟩
    obtain ⟨p, hp, -⟩ := Shape.exists_leaf_of_valid hvalid
    exact ⟨(y, p), hp, rfl⟩
  · rintro ⟨e, he, rfl⟩
    exact ⟨Nat.lt_succ_of_le (ha e he), by rw [Shape.codeEntry_of_distinct hdistinct he]; rfl⟩

theorem Shape.kraft_codes {t : Shape} (ha : t.inAlphabet) (hd : t.depth ≤ 256) (hdistinct : t.distinct) :
    (((List.range 257).filter fun y => (t.codeEntry y).valid).map fun y =>
      (1 : ℚ) / 2 ^ (t.codeEntry y).len.toNat).sum = 1 := by
  rw [((Shape.valid_symbols_perm ha hdistinct).map _).sum_eq, List.map_map]
  refine (congrArg List.sum (List.map_congr_left fun e he => ?_)).trans t.kraft_leaves
  rw [Function.comp_apply, Shape.codeEntry_of_distinct hdistinct he,
    codeOfPath_len ((Shape.length_le_depth he).trans hd)]

theorem codeAt_codeTable {s : State} {t : Shape} (ha : t.inAlphabet) (hcode : s.code = t.codeTable) (y : Nat) :
    s.codeAt y = t.codeEntry y := by
  rw [State.codeAt, hcode, Shape.codeTable, getElem?_tabulate]
  split
  · rfl
  next hy =>
    refine (Shape.codeEntry_absent_of_notMem fun hmem => ?_).symm
    obtain ⟨e, he, rfl⟩ := List.mem_map.mp hmem
    exact hy (Nat.lt_succ_of_le (ha e he))

/-- GENCODES leaves each symbol the entry the tree gives it. -/
theorem codeAt_exec_genCodes {s u : State} {t : Shape} (htree : s.treeValid = true) (hholds : Holds s.node t s.root)
    (ha : t.inAlphabet) (hd : t.depth ≤ 256) (hexec : exec .genCodes s = .next u) (y : Nat) :
    u.codeAt y = t.codeEntry y := by
  rw [exec_genCodes htree hholds ha hd] at hexec
  cases hexec
  exact codeAt_codeTable ha rfl y

end Sys2Proof.Machine
end

section
/-! The trees of a store, the tree BUILD makes, and the codes GENCODES makes of it (10_state.md R33; 42_tree_builder.md
R160; 43_code_table.md R181). -/

namespace Sys2Proof.Machine

/-! ### The entries of a tree (10_state.md R33) -/

section
variable {node : Vector Node 513}

theorem Shape.entries_node {l r : Shape} {i : BitVec 10} {n : Node} (hn : node[i.toNat]? = some n) :
    (Shape.node l r).entries node i = i.toNat :: (l.entries node n.left ++ r.entries node n.right) := by
  rw [Shape.entries, hn]

/-- A store that has the entries of a tree as they were still holds the tree, at the same entries. -/
theorem Holds.congr {node' : Vector Node 513} : ∀ {t : Shape} {i : BitVec 10}, Holds node t i →
    (∀ j ∈ t.entries node i, node'[j]? = node[j]?) → Holds node' t i ∧ t.entries node' i = t.entries node i
  | .leaf y, i, ⟨n, hn, hleaf, hsym⟩, hkept =>
    ⟨⟨n, (hkept _ (List.mem_singleton_self _)).trans hn, hleaf, hsym⟩, rfl⟩
  | .node l r, i, ⟨n, hn, hleaf, hl, hr⟩, hkept => by
    rw [Shape.entries_node hn, List.forall_mem_cons, List.forall_mem_append] at hkept
    obtain ⟨hi, hkeptL, hkeptR⟩ := hkept
    have hn' : node'[i.toNat]? = some n := hi.trans hn
    obtain ⟨hl', hentriesL⟩ := hl.congr hkeptL
    obtain ⟨hr', hentriesR⟩ := hr.congr hkeptR
    exact ⟨⟨n, hn', hleaf, hl', hr'⟩, by
      rw [Shape.entries_node hn', Shape.entries_node hn, hentriesL, hentriesR]⟩

end

/-- Making the entries at NCOUNT and above free keeps a tree below them. -/
theorem Holds.undefineNodes {s : State} {t : Shape} {i : BitVec 10} (h : Holds s.node t i)
    (hcap : s.ncount.toNat ≤ 513) (hlt : ∀ j ∈ t.entries s.node i, j < s.ncount.toNat) :
    Holds s.undefineNodes.node t i ∧ t.entries s.undefineNodes.node i = t.entries s.node i :=
  h.congr fun j hj => getElem?_undefineNodes (hlt j hj) ((hlt j hj).trans_le hcap)

theorem Shape.map_fst_leaves_node (l r : Shape) :
    (Shape.node l r).leaves.map Prod.fst = l.leaves.map Prod.fst ++ r.leaves.map Prod.fst := by
  simp [Shape.leaves, Function.comp_def]

/-! ### The trees of BUILD's queue (42_tree_builder.md R160) -/

/-- The trees `shape` stand at the entries in the queue of a forest that BUILD makes of the symbols `syms`. They share no
entry and no symbol: together they are every entry in use and every symbol, each once. -/
structure Grove (syms : List Nat) (shape : Nat → Shape) (f : Forest) : Prop where
  holds : ∀ j ∈ f.queue, Holds f.node (shape j) (BitVec.ofNat 10 j)
  symbols : (f.queue.flatMap fun j => (shape j).leaves.map Prod.fst).Perm syms
  entries : (f.queue.flatMap fun j => (shape j).entries f.node (BitVec.ofNat 10 j)).Perm (List.range f.count)

theorem Grove.entry_lt {syms : List Nat} {shape : Nat → Shape} {f : Forest} (h : Grove syms shape f) {i j : Nat}
    (hj : j ∈ f.queue) (hi : i ∈ (shape j).entries f.node (BitVec.ofNat 10 j)) : i < f.count :=
  List.mem_range.mp (h.entries.subset (List.mem_flatMap.mpr ⟨j, hj, hi⟩))

/-- The store's trees while it holds leaves alone: at entry j the leaf of the j-th symbol. -/
def leafShape (syms : List Nat) (j : Nat) : Shape := .leaf (syms[j]?.getD 0)

theorem toNat_ofNat_of_le_cap {i : Nat} (hi : i ≤ 513) : (BitVec.ofNat 10 i).toNat = i := by
  rw [BitVec.toNat_ofNat]
  omega

theorem buildLeaves_grove (s : State) : Grove s.countedSymbols (leafShape s.countedSymbols) (buildLeaves s) := by
  obtain ⟨hcount, hqueue, hleaf⟩ := buildLeaves_leavesOf s
  have hindex {j : Nat} (hj : j < s.countedSymbols.length) : (BitVec.ofNat 10 j).toNat = j :=
    toNat_ofNat_of_le_cap (hj.le.trans ((length_countedSymbols_le s).trans (by decide)))
  rw [← List.length_range (n := s.countedSymbols.length)] at hcount
  refine ⟨fun j hj => ?_, ?_, ?_⟩
  · rw [hqueue, List.mem_range] at hj
    have hv := List.getElem?_eq_getElem hj
    refine ⟨leafNode _ _, by rw [hindex hj]; exact hleaf j _ hv, rfl, ?_⟩
    rw [hv, Option.getD_some]
    exact leafNode_sym _ (countedSymbols_le (List.getElem_mem hj))
  · have hsymbols : s.countedSymbols =
        (List.range s.countedSymbols.length).map fun j => s.countedSymbols[j]?.getD 0 :=
      List.ext_getElem (by simp) fun j hj _ => by simp [hj]
    rw [hqueue]
    exact .of_eq ((List.map_eq_flatMap ..).symm.trans hsymbols.symm)
  · rw [hqueue, hcount, List.length_range]
    refine .of_eq ((List.map_eq_flatMap ..).symm.trans ?_)
    exact (List.map_congr_left fun j hj => hindex (List.mem_range.mp hj)).trans (List.map_id _)

/-- The trees after a merge of `l` and `r` into entry `i`. -/
def mergeShape (shape : Nat → Shape) (i l r : Nat) : Nat → Shape := Function.update shape i (.node (shape l) (shape r))

/-- What the parts of a queue have together when two of them became the part `c`, which has `new` besides. -/
theorem flatMap_merged {α : Type} {part part' : Nat → List α} {new : List α} {queue q : List Nat} {l r c : Nat}
    (hqueue : queue.Perm (l :: r :: q)) (hkept : ∀ j ∈ q, part' j = part j)
    (hmerged : part' c = new ++ (part l ++ part r)) :
    ((q ++ [c]).flatMap part').Perm (new ++ queue.flatMap part) := by
  have hparts : (part l ++ part r ++ q.flatMap part).Perm (queue.flatMap part) := by
    simpa only [List.flatMap_cons, List.append_assoc] using hqueue.symm.flatMap_right part
  rw [List.flatMap_append, List.flatMap_congr hkept, List.flatMap_singleton, hmerged]
  exact List.perm_append_comm.trans (by simpa only [List.append_assoc] using hparts.append_left new)

theorem Grove.merge {s : State} {f : Forest} {l r : Nat} {q q' : List Nat} (h : Merging s f)
    (hl : removeMin f.node f.queue = some (l, q)) (hr : removeMin f.node q = some (r, q'))
    {shape : Nat → Shape} (hg : Grove s.countedSymbols shape f) :
    Grove s.countedSymbols (mergeShape shape f.count l r) (f.merge l r q') := by
  obtain ⟨-, hcap⟩ := h.room hl hr
  obtain ⟨hmemL, hq, -⟩ := removeMin_some hl
  obtain ⟨hmemR, hq', -⟩ := removeMin_some hr
  have hqueue : f.queue.Perm (l :: r :: q') := by
    subst hq hq'
    exact (List.perm_cons_erase hmemL).trans ((List.perm_cons_erase hmemR).cons l)
  have hmemR' : r ∈ f.queue := hqueue.symm.subset (by simp)
  have hold : ∀ j ∈ q', j ∈ f.queue := fun j hj => hqueue.symm.subset (by simp [hj])
  have hshape : ∀ j ∈ q', mergeShape shape f.count l r j = shape j := fun j hj =>
    Function.update_of_ne (h.lt_of_mem_queue (hold j hj)).ne _ _
  have hroot : mergeShape shape f.count l r f.count = .node (shape l) (shape r) := Function.update_self ..
  have hindex : (BitVec.ofNat 10 f.count).toNat = f.count := toNat_ofNat_of_le_cap hcap.le
  have hat : (f.merge l r q').node[(BitVec.ofNat 10 f.count).toNat]? = some (mergeNode f.node l r) := by
    rw [hindex]
    exact Forest.merge_node_count l r q' hcap
  have hkept (j : Nat) (hj : j ∈ f.queue) := (hg.holds j hj).congr (node' := (f.merge l r q').node) fun i hi =>
    Forest.merge_node_of_lt l r q' (hg.entry_lt hj hi)
  refine ⟨fun j hj => ?_, ?_, ?_⟩
  · obtain hj | hj := List.mem_append.mp hj
    · rw [hshape j hj]
      exact (hkept j (hold j hj)).1
    · obtain rfl := List.mem_singleton.mp hj
      rw [hroot]
      exact ⟨_, hat, rfl, (hkept l hmemL).1, (hkept r hmemR').1⟩
  · exact (flatMap_merged (new := []) hqueue (fun j hj => by rw [hshape j hj])
      (by rw [hroot, Shape.map_fst_leaves_node]; rfl)).trans hg.symbols
  · rw [Forest.merge_count, List.range_succ]
    refine (flatMap_merged (new := [f.count]) hqueue (fun j hj => ?_) ?_).trans
      ((hg.entries.append_left _).trans List.perm_append_comm)
    · rw [hshape j hj]
      exact (hkept j (hold j hj)).2
    · rw [hroot, Shape.entries_node hat, hindex]
      exact (congrArg₂ (fun left right => f.count :: (left ++ right)) (hkept l hmemL).2 (hkept r hmemR').2 :)

/-- The trees of the finished forest are the one at its root, over every symbol and every entry. -/
theorem grove_of_mergeLoop {s : State} {f : Forest} {root : Nat}
    (hloop : mergeLoop (buildLeaves s).queue.length (buildLeaves s) = some (f, root)) : ∃ tree : Shape,
    Holds f.node tree (BitVec.ofNat 10 root) ∧ (tree.leaves.map Prod.fst).Perm s.countedSymbols ∧
      (tree.entries f.node (BitVec.ofNat 10 root)).Perm (List.range f.count) := by
  obtain ⟨⟨-, shape, hholds, hsymbols, hentries⟩, hqueue⟩ :=
    mergeLoop_keeps (P := fun f => Merging s f ∧ ∃ shape, Grove s.countedSymbols shape f)
      (fun f l r q q' ⟨hm, shape, hg⟩ hl hr => ⟨hm.merge hl hr, _, hg.merge hm hl hr⟩)
      ⟨buildLeaves_merging s, _, buildLeaves_grove s⟩ hloop
  rw [hqueue, List.flatMap_singleton] at hsymbols hentries
  exact ⟨shape root, hholds root (hqueue ▸ List.mem_singleton_self root), hsymbols, hentries⟩

/-- BUILD leaves a tree whose entries are those in use and whose symbols are those of non-zero frequency, each once. -/
theorem exec_build_tree {s b : State} (hexec : exec .build s = .next b) : ∃ tree : Shape,
    Holds b.node tree b.root ∧ (tree.leaves.map Prod.fst).Perm s.countedSymbols ∧
      (tree.entries b.node b.root).Perm (List.range b.ncount.toNat) := by
  obtain ⟨f, root, hloop, rfl⟩ := exec_build_next hexec
  obtain ⟨tree, hholds, hsymbols, hentries⟩ := grove_of_mergeLoop hloop
  have hncount := withForest_ncount hloop
  rw [← hncount] at hentries
  have hcap : f.count ≤ 513 := by
    have hcount := count_of_mergeLoop hloop
    have hsyms := length_countedSymbols_le s
    omega
  obtain ⟨hholds', hentries'⟩ := Holds.undefineNodes (s := s.withForest f root) hholds (hncount.trans_le hcap)
    fun j hj => List.mem_range.mp (hentries.subset hj)
  exact ⟨tree, hholds', hsymbols, (List.Perm.of_eq hentries').trans hentries⟩

/-! ### The codes of the tree the store holds (43_code_table.md R181) -/

theorem Shape.inAlphabet_of_perm {t : Shape} {s : State} (h : (t.leaves.map Prod.fst).Perm s.countedSymbols) :
    t.inAlphabet :=
  fun _ he => countedSymbols_le (h.subset (List.mem_map_of_mem he))

theorem Shape.distinct_of_perm {t : Shape} {s : State} (h : (t.leaves.map Prod.fst).Perm s.countedSymbols) :
    t.distinct :=
  h.nodup_iff.mpr (List.nodup_range.filter _)

/-- Settles O29: `exec_build_tree` for the tree; a valid code is the path of a leaf, and of two leaves neither's path
begins the other's; the Kraft sum is that of the paths. -/
theorem generatedCodesArePrefixFree : Obligations.GeneratedCodesArePrefixFree := by
  refine ⟨fun s b _ hexec => ?_, fun s t tree htree hholds ha hd hexec => ?_⟩
  · obtain ⟨tree, hholds, hsymbols, -⟩ := exec_build_tree hexec
    exact ⟨tree, hholds, Shape.inAlphabet_of_perm hsymbols, Shape.distinct_of_perm hsymbols⟩
  · simp only [codeAt_exec_genCodes htree hholds ha hd hexec]
    have hstr {y : Nat} {p : List Bool} (hp : (y, p) ∈ tree.leaves) : (codeOfPath p).str = p :=
      str_codeOfPath p ((Shape.length_le_depth hp).trans hd)
    refine ⟨fun pre y p post hleaves hlast => ?_, fun hdistinct => ⟨fun y z hyz hy hz => ?_, fun y hy hnil => ?_, ?_⟩⟩
    · rw [Shape.codeEntry_of_last hleaves hlast]
      exact ⟨rfl, hstr (y := y) (by rw [hleaves]; simp)⟩
    · obtain ⟨p, hp, hcodeY⟩ := Shape.exists_leaf_of_valid hy
      obtain ⟨q, hq, hcodeZ⟩ := Shape.exists_leaf_of_valid hz
      rw [hcodeY, hcodeZ, hstr hp, hstr hq]
      exact fun hprefix => hyz (congrArg Prod.fst (Shape.leaf_eq_of_prefix hp hq hprefix))
    · obtain ⟨p, hp, hcode⟩ := Shape.exists_leaf_of_valid hy
      rw [hcode, hstr hp] at hnil
      exact Shape.eq_leaf_of_nil_path (hnil ▸ hp)
    · exact Shape.kraft_codes ha hd hdistinct

end Sys2Proof.Machine
end

section
/-! The depth of a well-formed tree, and RDHDR on a source that holds a header whole (10_state.md R33; 43_code_table.md
R182; 44_tree_codec.md R203). -/

namespace Sys2Proof.Machine

/-! ### Depth and size (43_code_table.md R182) -/

theorem Shape.depth_le_size (t : Shape) : 2 * t.depth + 1 ≤ t.size := by
  induction t with
  | leaf y => exact le_rfl
  | node l r ihl ihr => rw [Shape.depth, Shape.size]; omega

theorem Shape.size_pos (t : Shape) : 0 < t.size := by
  have := t.depth_le_size
  omega

section
variable {node : Vector Node 513}

theorem Holds.length_entries : ∀ {t : Shape} {i : BitVec 10}, Holds node t i → (t.entries node i).length = t.size
  | .leaf _, _, _ => rfl
  | .node l r, i, ⟨n, hn, _, hl, hr⟩ => by
    rw [Shape.entries_node hn, List.length_cons, List.length_append, hl.length_entries, hr.length_entries, Shape.size]
    omega

theorem Holds.entry_lt_cap : ∀ {t : Shape} {i : BitVec 10}, Holds node t i → ∀ j ∈ t.entries node i, j < 513
  | .leaf _, i, ⟨n, hn, _⟩, j, hj => by
    obtain rfl := List.mem_singleton.mp hj
    exact (Vector.getElem?_eq_some_iff.mp hn).1
  | .node l r, i, ⟨n, hn, _, hl, hr⟩, j, hj => by
    rw [Shape.entries_node hn, List.mem_cons, List.mem_append] at hj
    obtain rfl | hj | hj := hj
    · exact (Vector.getElem?_eq_some_iff.mp hn).1
    · exact hl.entry_lt_cap j hj
    · exact hr.entry_lt_cap j hj

end

/-- A well-formed tree has NCOUNT nodes, all of them entries of the store. -/
theorem TreeOk.ncount_eq_size {s : State} {t : Shape} (h : TreeOk s) (hholds : Holds s.node t s.root) :
    s.ncount.toNat = t.size ∧ t.size ≤ 513 := by
  obtain ⟨t', hholds', -, hentries⟩ := h
  obtain rfl := hholds.unique hholds'
  have hsize : s.ncount.toNat = t.size := by
    rw [← hholds.length_entries, hentries.length_eq, List.length_range]
  refine ⟨hsize, hsize ▸ ?_⟩
  by_contra hbig
  exact (hholds.entry_lt_cap 513 (hentries.symm.subset (List.mem_range.mpr (by omega)))).false

/-! ### The nodes Get makes (44_tree_codec.md R203) -/

/-- The store after Get has made the nodes of the tree `t` in preorder, the first of them entry `n`. -/
def Shape.store : Shape → Nat → Vector Node 513 → Vector Node 513
  | .leaf y, n, nodes => nodes.setIfInBounds n (readLeaf y)
  | .node l r, n, nodes =>
    (r.store (n + 1 + l.size) (l.store (n + 1) nodes)).setIfInBounds n (readInternal (n + 1) (n + 1 + l.size))

theorem Shape.inAlphabet.of_node {l r : Shape} (h : (Shape.node l r).inAlphabet) : l.inAlphabet ∧ r.inAlphabet :=
  ⟨fun e he => h (e.1, false :: e.2) (Shape.mem_leaves_node.mpr (.inl ⟨e, he, rfl⟩)),
    fun e he => h (e.1, true :: e.2) (Shape.mem_leaves_node.mpr (.inr ⟨e, he, rfl⟩))⟩

theorem Shape.inAlphabet.symbol_le {y : Nat} (h : (Shape.leaf y).inAlphabet) : y ≤ 256 :=
  h (y, []) (List.mem_singleton_self _)

theorem Shape.getElem?_store_of_outside : ∀ {t : Shape} {n i : Nat} {nodes : Vector Node 513},
    i < n ∨ n + t.size ≤ i → (t.store n nodes)[i]? = nodes[i]?
  | .leaf y, n, i, nodes, h => Vector.getElem?_setIfInBounds_ne (by rw [Shape.size] at h; omega)
  | .node l r, n, i, nodes, h => by
    rw [Shape.size] at h
    rw [Shape.store, Vector.getElem?_setIfInBounds_ne (by omega), Shape.getElem?_store_of_outside (by omega),
      Shape.getElem?_store_of_outside (by omega)]

/-- The nodes Get makes of a tree are that tree, numbered in preorder. -/
theorem Shape.holds_store : ∀ {t : Shape} {n : Nat} {nodes : Vector Node 513}, t.inAlphabet → n + t.size ≤ 513 →
    Holds (t.store n nodes) t (BitVec.ofNat 10 n) ∧
      t.entries (t.store n nodes) (BitVec.ofNat 10 n) = List.range' n t.size
  | .leaf y, n, nodes, ha, hcap => by
    rw [Shape.size] at hcap
    have hy := ha.symbol_le
    have hn := toNat_ofNat_of_le_cap (i := n) (by omega)
    refine ⟨⟨readLeaf y, ?_, rfl, ?_⟩, congrArg (fun i => [i]) hn⟩
    · rw [hn]
      exact Vector.getElem?_setIfInBounds_self_of_lt (by omega)
    · exact (BitVec.toNat_ofNat ..).trans (Nat.mod_eq_of_lt (by omega))
  | .node l r, n, nodes, ha, hcap => by
    rw [Shape.size] at hcap
    obtain ⟨hal, har⟩ := ha.of_node
    obtain ⟨hl, hentriesL⟩ := Shape.holds_store (n := n + 1) (nodes := nodes) hal (by omega)
    obtain ⟨hr, hentriesR⟩ :=
      Shape.holds_store (n := n + 1 + l.size) (nodes := l.store (n + 1) nodes) har (by omega)
    have hn := toNat_ofNat_of_le_cap (i := n) (by omega)
    have hat : ((Shape.node l r).store n nodes)[(BitVec.ofNat 10 n).toNat]? =
        some (readInternal (n + 1) (n + 1 + l.size)) := by
      rw [hn]
      exact Vector.getElem?_setIfInBounds_self_of_lt (by omega)
    obtain ⟨hl', hkeptL⟩ := hl.congr (node' := (Shape.node l r).store n nodes) fun j hj => by
      rw [hentriesL, List.mem_range'_1] at hj
      rw [Shape.store, Vector.getElem?_setIfInBounds_ne (by omega), Shape.getElem?_store_of_outside (by omega)]
    obtain ⟨hr', hkeptR⟩ := hr.congr (node' := (Shape.node l r).store n nodes) fun j hj => by
      rw [hentriesR, List.mem_range'_1] at hj
      rw [Shape.store, Vector.getElem?_setIfInBounds_ne (by omega)]
    refine ⟨⟨_, hat, rfl, hl', hr'⟩, ?_⟩
    calc (Shape.node l r).entries ((Shape.node l r).store n nodes) (BitVec.ofNat 10 n)
        = n :: (List.range' (n + 1) l.size ++ List.range' (n + 1 + l.size) r.size) := by
          rw [Shape.entries_node hat, hn, ← hentriesL, ← hentriesR, ← hkeptL, ← hkeptR]
          rfl
      _ = List.range' n (Shape.node l r).size := by
          rw [List.range'_append_1, ← List.range'_succ, Shape.size]
          congr 1
          omega

/-! ### Get on a whole header (44_tree_codec.md R203) -/

theorem srcRead_bit {s : State} {b : Bool} {rest : List Bool} (h : s.inBits.drop s.inPos = b :: rest) :
    s.srcRead 1 = some (b.toNat, { s with inPos := s.inPos + 1 }) := by
  rw [show b.toNat = numeral [b] by cases b <;> rfl]
  exact srcRead_append (p := [b]) h

/-- The state after Get has read the header of the tree `t` and made its nodes, the first of them entry `n`. -/
def State.readHeader (s : State) (t : Shape) (n : Nat) : State := { s with
  node := t.store n s.node, inPos := s.inPos + t.header.length }

theorem State.readHeader_leaf (s : State) (y n : Nat) :
    State.setNode { s with inPos := s.inPos + 1 + 9 } n (readLeaf y) = s.readHeader (.leaf y) n := by
  simp only [State.readHeader, State.setNode, Shape.store, Shape.header, List.length_cons, length_bitsOf, Nat.add_assoc]

theorem State.readHeader_node (s : State) (l r : Shape) (n : Nat) :
    ((State.readHeader { s with inPos := s.inPos + 1 } l (n + 1)).readHeader r (n + 1 + l.size)).setNode n
      (readInternal (n + 1) (n + 1 + l.size)) = s.readHeader (.node l r) n := by
  simp only [State.readHeader, State.setNode, Shape.store, Shape.header, List.length_cons, List.length_append,
    Nat.add_assoc, Nat.add_comm 1]

/-- Get reads a header that the source holds whole, and makes the nodes of its tree. -/
theorem getHeader_header : ∀ {t : Shape} {d n : Nat} {s : State} {rest : List Bool}, t.inAlphabet → t.size ≤ d →
    n + t.size ≤ 513 → s.bitsAhead = t.header ++ rest →
    getHeader d n s = .got n (n + t.size) (s.readHeader t n)
  | .leaf y, d + 1, n, s, rest, ha, _, hcap, hsrc => by
    rw [Shape.size] at hcap ⊢
    have hroom : n ≠ 513 := by omega
    have hlegal : symInAlphabet y = true := decide_eq_true ha.symbol_le
    have hsym := srcRead_append (s := { s with inPos := s.inPos + 1 })
      (drop_after (p := [true]) (rest := bitsOf 9 y ++ rest) hsrc)
    rw [length_bitsOf, numeral_bitsOf, Nat.mod_eq_of_lt (Nat.lt_of_le_of_lt ha.symbol_le (by decide))] at hsym
    simp only [getHeader, srcRead_bit hsrc, hroom, Bool.toNat_true, one_ne_zero, if_false, hsym, hlegal, Bool.not_true,
      Bool.false_eq_true, State.readHeader_leaf]
  | .node l r, d + 1, n, s, rest, ha, hd, hcap, hsrc => by
    rw [Shape.size] at hd hcap
    obtain ⟨hal, har⟩ := ha.of_node
    have hroom : n ≠ 513 := by omega
    rw [Shape.header, List.cons_append, List.append_assoc] at hsrc
    have hsrcL := drop_after (p := [false]) hsrc
    have hl := getHeader_header (n := n + 1) (s := { s with inPos := s.inPos + 1 }) hal
      (by omega : l.size ≤ d) (by omega) hsrcL
    have hr := getHeader_header (n := n + 1 + l.size) (s := State.readHeader { s with inPos := s.inPos + 1 } l (n + 1))
      har (by omega : r.size ≤ d) (by omega) (drop_after (s := { s with inPos := s.inPos + 1 }) hsrcL)
    simp only [getHeader, srcRead_bit hsrc, hroom, Bool.toNat_false, if_true, if_false, hl, hr, State.readHeader_node]
    rw [Shape.size, Nat.add_assoc, Nat.add_assoc, Nat.add_assoc]
  | t, 0, _, _, _, _, hd, _, _ => absurd t.size_pos hd.not_gt

/-! ### RDHDR (44_tree_codec.md R203) -/

/-- The state with the tree `t` in the store as RDHDR numbers it, and its header taken off the source. -/
def State.withHeaderTree (s : State) (t : Shape) : State := { s.readHeader t 0 with
  codesValid := false, ncount := BitVec.ofNat 10 t.size, root := 0, treeValid := true }

section
variable {s : State} {t : Shape} (ha : t.inAlphabet) (hcap : t.size ≤ 513)
include ha hcap

theorem exec_rdHdr_header {rest : List Bool} (hsrc : s.bitsAhead = t.header ++ rest) :
    exec .rdHdr s = finish (s.withHeaderTree t).undefineNodes := by
  have hget := getHeader_header (d := Config.NODE_CAP + 1) (n := 0) (s := s.dropTree) ha (Nat.le_succ_of_le hcap)
    (by omega) hsrc
  rw [exec, execRdHdr, hget, Nat.zero_add]
  rfl

omit ha in
theorem withHeaderTree_ncount : (s.withHeaderTree t).ncount.toNat = t.size := toNat_ofNat_of_le_cap hcap

/-- RDHDR leaves the tree of the header, numbered in preorder. -/
theorem withHeaderTree_holds : Holds (s.withHeaderTree t).undefineNodes.node t 0 ∧
    t.entries (s.withHeaderTree t).undefineNodes.node 0 = List.range t.size := by
  have hncount := withHeaderTree_ncount (s := s) hcap
  obtain ⟨hholds, hentries⟩ := Shape.holds_store (n := 0) (nodes := s.node) ha (by omega)
  rw [← List.range_eq_range'] at hentries
  obtain ⟨hholds', hkept⟩ := Holds.undefineNodes (s := s.withHeaderTree t) hholds (hncount.trans_le hcap) fun j hj => by
    rw [hncount]
    exact List.mem_range.mp (hentries ▸ hj)
  exact ⟨hholds', hkept.trans hentries⟩

/-- RDHDR on the header of a tree of at most 513 nodes leaves a well-formed tree, that one. -/
theorem exec_rdHdr_tree {rest : List Bool} (hsrc : s.bitsAhead = t.header ++ rest) : ∃ u, exec .rdHdr s = .next u ∧
    u.treeValid = true ∧ u.ncount = BitVec.ofNat 10 t.size ∧ TreeOk u ∧ Holds u.node t u.root := by
  obtain ⟨hholds, hentries⟩ := withHeaderTree_holds (s := s) ha hcap
  have hncount := withHeaderTree_ncount (s := s) hcap
  exact ⟨_, exec_rdHdr_header ha hcap hsrc, rfl, rfl,
    ⟨t, hholds, ha, .of_eq (hentries.trans (congrArg List.range hncount.symm))⟩, hholds⟩

end

/-! ### A deepest tree (43_code_table.md R182) -/

/-- The tree of n internal nodes each of which hangs on the right of the one before. -/
def Shape.spine : Nat → Shape
  | 0 => .leaf 256
  | n + 1 => .node (.leaf 0) (spine n)

theorem Shape.spine_size (n : Nat) : (Shape.spine n).size = 2 * n + 1 := by
  induction n with
  | zero => rfl
  | succ n ih => rw [Shape.spine, Shape.size, Shape.size, ih]; omega

theorem Shape.spine_depth (n : Nat) : (Shape.spine n).depth = n := by
  induction n with
  | zero => rfl
  | succ n ih => rw [Shape.spine, Shape.depth, Shape.depth, ih]; omega

theorem Shape.spine_inAlphabet (n : Nat) : (Shape.spine n).inAlphabet := by
  induction n with
  | zero => exact List.forall_mem_singleton.mpr le_rfl
  | succ n ih =>
    intro e he
    obtain ⟨a, ha, rfl⟩ | ⟨a, ha, rfl⟩ := Shape.mem_leaves_node.mp he
    · obtain rfl := List.mem_singleton.mp ha
      exact Nat.zero_le _
    · exact ih a ha

/-- Settles O30: a tree has more than twice as many nodes as it is deep, and RDHDR reads the header of the spine of 256
internal nodes. -/
theorem codeLengthBound : Obligations.CodeLengthBound := by
  refine ⟨fun s t htree hholds => ?_, ?_⟩
  · obtain ⟨hsize, hcap⟩ := htree.ncount_eq_size hholds
    have hdepth := t.depth_le_size
    refine ⟨by omega, by omega, fun e he => ?_⟩
    have := Shape.length_le_depth he
    omega
  · have ha := Shape.spine_inAlphabet 256
    have hcap : (Shape.spine 256).size ≤ 513 := (Shape.spine_size 256).le
    obtain ⟨u, hexec, hvalid, hncount, htree, hholds⟩ := exec_rdHdr_tree (rest := [])
      (s := { State.reset with inBits := (Shape.spine 256).header }) ha hcap (List.append_nil _).symm
    rw [Shape.spine_size] at hncount
    exact ⟨_, u, Shape.spine 256, hexec, hvalid, hncount, htree, hholds, Shape.spine_depth 256⟩

end Sys2Proof.Machine
end

section
/-! WRHDR's header of the tree the store holds, and RDHDR as its inverse (44_tree_codec.md R200, R202). -/

namespace Sys2Proof.Machine

/-! ### WRHDR (44_tree_codec.md R200) -/

section
variable {s : State}

theorem exec_wrHdr_noTree (htree : s.treeValid = false) : exec .wrHdr s = raise .noTree 0 s :=
  if_pos (by rw [htree]; rfl)

variable (htree : s.treeValid = true)
include htree

theorem exec_wrHdr_sinkClosed (hclosed : s.outClosed = true) : exec .wrHdr s = raise .sinkClosed 0 s := by
  rw [exec, execWrHdr, if_neg (by rw [htree]; decide), if_pos hclosed]

theorem exec_wrHdr {t : Shape} (hopen : s.outClosed = false) (hholds : Holds s.node t s.root) (hd : t.depth ≤ 256) :
    exec .wrHdr s = finish { s with outBits := s.outBits ++ t.header } := by
  have hput := put_of_holds (d := walkDepth) hholds (Nat.lt_succ_of_le hd)
  rw [exec, execWrHdr, if_neg (by rw [htree]; decide), if_neg (by rw [hopen]; decide), hput]

end

/-- Settles O32: the two faults in their order, and Put on the tree the store holds. -/
theorem wrHdrAppendsTheHeader : Obligations.WrHdrAppendsTheHeader :=
  ⟨by decide, fun _ => ⟨fun htree => takesFault_of_raise (exec_wrHdr_noTree htree) rfl,
    fun htree hclosed => takesFault_of_raise (exec_wrHdr_sinkClosed htree hclosed) rfl,
    fun _ htree hopen hholds hd => completes_of_finish (exec_wrHdr htree hopen hholds hd)⟩⟩

/-! ### RDHDR after WRHDR (44_tree_codec.md R202) -/

/-- Each node Get makes is a leaf, or an internal node whose children are later entries of the store. -/
theorem Shape.node_store : ∀ {t : Shape} {n i : Nat} {nodes : Vector Node 513}, n + t.size ≤ 513 → n ≤ i →
    i < n + t.size → (∃ y, (t.store n nodes)[i]? = some (readLeaf y)) ∨
      ∃ l r, i < l ∧ i < r ∧ l < 513 ∧ r < 513 ∧ (t.store n nodes)[i]? = some (readInternal l r)
  | .leaf y, n, i, nodes, hcap, hge, hlt => by
    rw [Shape.size] at hcap hlt
    obtain rfl : n = i := by omega
    exact .inl ⟨y, Vector.getElem?_setIfInBounds_self_of_lt (by omega)⟩
  | .node l r, n, i, nodes, hcap, hge, hlt => by
    rw [Shape.size] at hcap hlt
    have hsize := r.size_pos
    obtain rfl | hne := eq_or_ne n i
    · exact .inr ⟨n + 1, n + 1 + l.size, by omega, by omega, by omega, by omega,
        Vector.getElem?_setIfInBounds_self_of_lt (by omega)⟩
    rw [Shape.store, Vector.getElem?_setIfInBounds_ne hne]
    by_cases hleft : i < n + 1 + l.size
    · rw [Shape.getElem?_store_of_outside (.inl hleft)]
      exact Shape.node_store (by omega) (by omega) hleft
    · exact Shape.node_store (by omega) (by omega) (by omega)

/-- RDHDR leaves every node of the tree with weight 0. -/
theorem withHeaderTree_weight {s : State} {t : Shape} (hcap : t.size ≤ 513) {i : Nat} (hi : i < t.size) :
    ∃ n, (s.withHeaderTree t).undefineNodes.node[i]? = some n ∧ n.wgt = 0 := by
  rw [getElem?_undefineNodes ((withHeaderTree_ncount hcap).symm ▸ hi) (hi.trans_le hcap)]
  obtain ⟨y, hnode⟩ | ⟨l, r, -, -, -, -, hnode⟩ :=
    Shape.node_store (t := t) (n := 0) (i := i) (nodes := s.node) (by omega) i.zero_le (by omega)
  · exact ⟨_, hnode, rfl⟩
  · exact ⟨_, hnode, rfl⟩

/-- Settles O35: what WRHDR appended is the header of the tree the store holds, and RDHDR of a whole header makes its
tree. -/
theorem rdHdrInvertsWrHdr : Obligations.RdHdrInvertsWrHdr := by
  intro s t u header rest htree hopen hok hwrite hbits hsrc
  have ⟨tree, hholds, ha, _⟩ := hok
  obtain ⟨hsize, hcap⟩ := hok.ncount_eq_size hholds
  have hdepth := tree.depth_le_size
  rw [exec_wrHdr htree hopen hholds (by omega)] at hwrite
  cases hwrite
  obtain rfl := List.append_cancel_left hbits
  obtain ⟨hholds', hentries⟩ := withHeaderTree_holds (s := u) ha hcap
  have hncount := withHeaderTree_ncount (s := u) hcap
  exact ⟨_, tree, exec_rdHdr_header ha hcap hsrc, rfl, rfl, rfl, BitVec.eq_of_toNat_eq (hncount.trans hsize.symm),
    hholds, hholds', hentries.trans (congrArg List.range hncount.symm),
    fun _ hi => withHeaderTree_weight hcap (hi.trans_eq hncount)⟩

end Sys2Proof.Machine
end

section
/-! ENC_SYM, its word and its five ends (30_encoding.md R92 to R96; 45_stream_encode.md R221). -/

namespace Sys2Proof

theorem decode_encSym {sym : Nat} (hsym : sym < 512) :
    decode (BitVec.ofNat 32 (sym * 256 + 0x51)) = .ok (.encSym sym) := by
  have hop : 0x51 < 256 := by decide
  rw [decode, opcodeOf_symbolWord hsym hop, symOf_symbolWord hsym hop]
  exact reservedFrom_ok _ (symbolWord_reserved hsym hop)

end Sys2Proof

namespace Sys2Proof.Machine

theorem symInAlphabet_of_lt {sym : Nat} (h : sym < 257) : symInAlphabet sym = true :=
  decide_eq_true (Nat.le_of_lt_succ h)

/-! ### ENC_SYM (45_stream_encode.md R221) -/

section
variable {sym : Nat} {s : State}

theorem exec_encSym_badOperand (h : 257 ≤ sym) :
    exec (.encSym sym) s = raise .badOperand (fieldDetail sym) s :=
  if_pos (by simpa [symInAlphabet] using Nat.lt_of_succ_le h)

variable (h : sym < 257)
include h

theorem exec_encSym_noCodes (hcodes : s.codesValid = false) : exec (.encSym sym) s = raise .noCodes 0 s := by
  rw [exec, execEncSym, symInAlphabet_of_lt h, hcodes, if_neg (by decide), if_pos (by decide)]

variable (hcodes : s.codesValid = true)
include hcodes

theorem exec_encSym_sinkClosed (hclosed : s.outClosed = true) : exec (.encSym sym) s = raise .sinkClosed 0 s := by
  rw [exec, execEncSym, symInAlphabet_of_lt h, hcodes, if_neg (by decide), if_neg (by decide), if_pos hclosed]

variable (hopen : s.outClosed = false)
include hopen

/-- Past the three checks of operand, table and sink, ENC_SYM only looks the entry up. -/
theorem exec_encSym_lookup : exec (.encSym sym) s =
    if !s.code[sym].valid then raise .missingCode (fieldDetail sym) s else finish (s.writeCode sym) := by
  rw [exec, execEncSym, symInAlphabet_of_lt h, hcodes, hopen, if_neg (by decide), if_neg (by decide),
    if_neg (by decide), codeAt_eq_getElem s h]

theorem exec_encSym_missingCode (hvalid : s.code[sym].valid = false) :
    exec (.encSym sym) s = raise .missingCode (fieldDetail sym) s := by
  rw [exec_encSym_lookup h hcodes hopen, hvalid, if_pos (by decide)]

theorem exec_encSym (hvalid : s.code[sym].valid = true) :
    exec (.encSym sym) s = finish { s with outBits := s.outBits ++ s.code[sym].str } := by
  rw [exec_encSym_lookup h hcodes hopen, hvalid, if_neg (by decide), writeCode_eq, codeAt_eq_getElem s h]

end

/-- Settles O40: `decode_encSym` for the word, the command's four faults in their order, and the code it appends. -/
theorem encSymWritesTheCode : Obligations.EncSymWritesTheCode :=
  ⟨fun _ => decode_encSym, fun _ _ => ⟨fun h => takesFault_of_raise (exec_encSym_badOperand h) rfl,
    fun h hcodes => takesFault_of_raise (exec_encSym_noCodes h hcodes) rfl,
    fun h hcodes hclosed => takesFault_of_raise (exec_encSym_sinkClosed h hcodes hclosed) rfl,
    fun h hcodes hopen =>
      ⟨fun hvalid => takesFault_of_raise (exec_encSym_missingCode h hcodes hopen hvalid) rfl,
        fun hvalid => completes_of_finish (exec_encSym h hcodes hopen hvalid)⟩⟩⟩

end Sys2Proof.Machine
end

section
/-! The decoder's walk of the tree, one link a bit: DEC_SYM, and DECODE as DEC_SYM repeated (46_stream_decode.md R240 to
R242). -/

namespace Sys2Proof.Machine

/-! ### Paths of child links (10_state.md R33) -/

section
variable {node : Vector Node 513}

theorem follow_cons {i : BitVec 10} {n : Node} (hn : node[i.toNat]? = some n) (hinternal : n.leaf = false) (b : Bool)
    (p : List Bool) : follow node i (b :: p) = follow node (n.child b) p := by
  simp only [follow, hn, hinternal, Bool.false_eq_true, if_false]

/-- A path that takes a link starts at an internal node. -/
theorem follow_cons_eq_some {i j : BitVec 10} {b : Bool} {p : List Bool} (h : follow node i (b :: p) = some j) :
    ∃ n, node[i.toNat]? = some n ∧ n.leaf = false ∧ follow node (n.child b) p = some j := by
  rw [follow] at h
  split at h
  · cases h
  next n hn =>
    split at h
    · cases h
    next hinternal => exact ⟨n, hn, Bool.eq_false_iff.mpr hinternal, h⟩

/-- A path that goes on passes through an internal node. -/
theorem follow_append_cons {j : BitVec 10} {b : Bool} {q : List Bool} : ∀ {p : List Bool} {i : BitVec 10},
    follow node i (p ++ b :: q) = some j → ∃ k n, follow node i p = some k ∧ node[k.toNat]? = some n ∧
      n.leaf = false ∧ follow node (n.child b) q = some j
  | [], i, h => by
    obtain ⟨n, hn, hinternal, hrest⟩ := follow_cons_eq_some h
    exact ⟨i, n, rfl, hn, hinternal, hrest⟩
  | a :: p, i, h => by
    obtain ⟨n, hn, hinternal, hrest⟩ := follow_cons_eq_some h
    rw [follow_cons hn hinternal]
    exact follow_append_cons hrest

/-- A path to a node starts at a node. -/
theorem exists_node_of_follow {i j : BitVec 10} {n : Node} {p : List Bool} (h : follow node i p = some j)
    (hn : node[j.toNat]? = some n) : ∃ m, node[i.toNat]? = some m := by
  cases p with
  | nil => cases h; exact ⟨n, hn⟩
  | cons b p =>
    obtain ⟨m, hm, -⟩ := follow_cons_eq_some h
    exact ⟨m, hm⟩

/-- The path of a leaf leads to a node that is that leaf. -/
theorem Holds.follow_leaf : ∀ {t : Shape} {i : BitVec 10} {y : Nat} {p : List Bool}, Holds node t i →
    (y, p) ∈ t.leaves → ∃ j n, follow node i p = some j ∧ node[j.toNat]? = some n ∧ n.leaf = true ∧ n.sym.toNat = y
  | .leaf _, i, y, p, ⟨n, hn, hleaf, hsym⟩, hmem => by
    cases List.mem_singleton.mp hmem
    exact ⟨i, n, rfl, hn, hleaf, hsym⟩
  | .node l r, i, y, p, ⟨n, hn, hinternal, hl, hr⟩, hmem => by
    obtain ⟨e, he, heq⟩ | ⟨e, he, heq⟩ := Shape.mem_leaves_node.mp hmem <;> cases heq <;>
      rw [follow_cons hn hinternal]
    · exact hl.follow_leaf he
    · exact hr.follow_leaf he

/-- Where the bits end inside the path of a leaf, they lead to an internal node. -/
theorem Holds.follow_inside {t : Shape} {i : BitVec 10} {y : Nat} {p q : List Bool} (h : Holds node t i)
    (hmem : (y, p) ∈ t.leaves) (hprefix : q <+: p) (hne : q ≠ p) :
    ∃ j n, follow node i q = some j ∧ node[j.toNat]? = some n ∧ n.leaf = false := by
  obtain ⟨r, rfl⟩ := hprefix
  obtain ⟨_, _, hfollow, -⟩ := h.follow_leaf hmem
  cases r with
  | nil => exact absurd (List.append_nil q).symm hne
  | cons b r =>
    obtain ⟨j, n, hfollow, hn, hinternal, -⟩ := follow_append_cons hfollow
    exact ⟨j, n, hfollow, hn, hinternal⟩

end

/-- Whatever bits a source goes on with, they begin with the path of a leaf or end inside one. -/
theorem Shape.leaf_path_or_inside (t : Shape) : ∀ bits : List Bool, ∃ y p, (y, p) ∈ t.leaves ∧
    ((∃ rest, bits = p ++ rest) ∨ bits <+: p ∧ bits ≠ p) := by
  induction t with
  | leaf y => exact fun bits => ⟨y, [], List.mem_singleton_self _, .inl ⟨bits, rfl⟩⟩
  | node l r ihl ihr =>
    intro bits
    cases bits with
    | nil =>
      obtain ⟨y, p, hmem, -⟩ := ihl []
      exact ⟨y, false :: p, Shape.mem_leaves_node.mpr (.inl ⟨_, hmem, rfl⟩), .inr ⟨List.nil_prefix, by simp⟩⟩
    | cons b bits =>
      have hchild : ∃ y p, (y, b :: p) ∈ (Shape.node l r).leaves ∧
          ((∃ rest, bits = p ++ rest) ∨ bits <+: p ∧ bits ≠ p) := by
        cases b with
        | false =>
          obtain ⟨y, p, hmem, h⟩ := ihl bits
          exact ⟨y, p, Shape.mem_leaves_node.mpr (.inl ⟨_, hmem, rfl⟩), h⟩
        | true =>
          obtain ⟨y, p, hmem, h⟩ := ihr bits
          exact ⟨y, p, Shape.mem_leaves_node.mpr (.inr ⟨_, hmem, rfl⟩), h⟩
      obtain ⟨y, p, hmem, ⟨rest, rfl⟩ | ⟨hprefix, hne⟩⟩ := hchild
      · exact ⟨y, b :: p, hmem, .inl ⟨rest, rfl⟩⟩
      · exact ⟨y, b :: p, hmem, .inr ⟨List.cons_prefix_cons.mpr ⟨rfl, hprefix⟩, by simpa using hne⟩⟩

/-! ### Bits taken off the source (20_memory.md R60) -/

/-- The state with `k` more bits of the source read. -/
def State.skip (s : State) (k : Nat) : State := { s with inPos := s.inPos + k }

theorem State.skip_skip (s : State) (j k : Nat) : (s.skip j).skip k = s.skip (j + k) := by
  simp only [State.skip, Nat.add_assoc]

@[simp] theorem State.nodeAt_skip (s : State) (k : Nat) (i : BitVec 10) : (s.skip k).nodeAt i = s.nodeAt i := rfl

@[simp] theorem State.skip_root (s : State) (k : Nat) : (s.skip k).root = s.root := rfl

theorem bitsAhead_skip {s : State} {p rest : List Bool} (h : s.bitsAhead = p ++ rest) :
    (s.skip p.length).bitsAhead = rest :=
  drop_after h

theorem bitsLeft_eq_length_bitsAhead (s : State) : s.bitsLeft = s.bitsAhead.length :=
  List.length_drop.symm

theorem srcRead_one {s : State} {b : Bool} {rest : List Bool} (h : s.bitsAhead = b :: rest) :
    s.srcRead 1 = some (b.toNat, s.skip 1) :=
  srcRead_bit h

theorem srcRead_one_none {s : State} (h : s.bitsAhead = []) : s.srcRead 1 = none :=
  srcRead_none.mpr (by rw [bitsLeft_eq_length_bitsAhead, h]; exact Nat.one_pos)

theorem toNat_bne_zero (b : Bool) : (b.toNat != 0) = b := by
  cases b <;> rfl

/-! ### DEC_SYM (46_stream_decode.md R241) -/

section
variable {s : State} {cur n : Node} {m k : Nat}

theorem decSymLoop_leaf (hleaf : cur.leaf = true) : decSymLoop m cur k s =
    finish (s.setResults (cur.sym.setWidth 32) (BitVec.ofNat 32 k) 0) := by
  rw [decSymLoop.eq_def]
  exact if_pos hleaf

variable (hinternal : cur.leaf = false)
include hinternal

theorem decSymLoop_end (hsrc : s.bitsAhead = []) :
    decSymLoop m cur k s = raise .truncPayload s.posDetail s := by
  rw [decSymLoop.eq_def]
  simp only [hinternal, Bool.false_eq_true, if_false, srcRead_one_none hsrc]

theorem decSymLoop_bit {b : Bool} {rest : List Bool} (hsrc : s.bitsAhead = b :: rest)
    (hn : s.nodeAt (cur.child b) = some n) : decSymLoop (m + 1) cur k s = decSymLoop m n (k + 1) (s.skip 1) := by
  rw [decSymLoop.eq_def]
  simp only [hinternal, Bool.false_eq_true, if_false, srcRead_one hsrc, toNat_bne_zero, State.nodeAt_skip, hn]

end

/-- DEC_SYM's loop goes where the bits lead. -/
theorem decSymLoop_follow {rest : List Bool} {j : BitVec 10} {n : Node} (m : Nat) : ∀ {p : List Bool} {i : BitVec 10}
    {cur : Node} {k : Nat} {s : State}, s.nodeAt i = some cur → follow s.node i p = some j → s.nodeAt j = some n →
    s.bitsAhead = p ++ rest →
    decSymLoop (p.length + m) cur k s = decSymLoop m n (k + p.length) (s.skip p.length)
  | [], i, cur, k, s, hcur, hfollow, hn, hsrc => by
    cases hfollow
    cases hcur.symm.trans hn
    rw [List.length_nil, Nat.zero_add]
    rfl
  | b :: p, i, cur, k, s, hcur, hfollow, hn, hsrc => by
    obtain ⟨_, hcur', hinternal, hrest⟩ := follow_cons_eq_some hfollow
    cases hcur.symm.trans hcur'
    obtain ⟨next, hnext⟩ := exists_node_of_follow hrest hn
    rw [List.length_cons, Nat.add_right_comm, decSymLoop_bit hinternal hsrc hnext,
      decSymLoop_follow (s := s.skip 1) m hnext hrest hn (bitsAhead_skip (p := [b]) hsrc), State.skip_skip,
      Nat.add_right_comm k, Nat.add_comm 1, Nat.add_assoc]

theorem exec_decSym_noTree {s : State} (htree : s.treeValid = false) : exec .decSym s = raise .noTree 0 s :=
  if_pos (by rw [htree]; rfl)

theorem exec_decSym_loop {s : State} {top : Node} (htree : s.treeValid = true) (htop : s.nodeAt s.root = some top) :
    exec .decSym s = decSymLoop s.bitsLeft top 0 s := by
  rw [exec, execDecSym, if_neg (by rw [htree]; decide), htop]

section
variable {s : State} {t : Shape} {y : Nat} {p : List Bool} (htree : s.treeValid = true) (hholds : Holds s.node t s.root)
  (hmem : (y, p) ∈ t.leaves)
include htree hholds hmem

theorem exec_decSym_symbol {rest : List Bool} (hsrc : s.bitsAhead = p ++ rest) : exec .decSym s =
    finish ((s.skip p.length).setResults (BitVec.ofNat 32 y) (BitVec.ofNat 32 p.length) 0) := by
  obtain ⟨j, n, hfollow, hn, hleaf, rfl⟩ := hholds.follow_leaf hmem
  obtain ⟨top, htop⟩ := exists_node_of_follow hfollow hn
  have hsym : n.sym.setWidth 32 = BitVec.ofNat 32 n.sym.toNat := (BitVec.ofNat_toNat ..).symm
  rw [exec_decSym_loop htree htop, bitsLeft_eq_length_bitsAhead, hsrc, List.length_append,
    decSymLoop_follow _ htop hfollow hn hsrc, decSymLoop_leaf hleaf, Nat.zero_add, hsym]

theorem exec_decSym_truncated (hprefix : s.bitsAhead <+: p) (hne : s.bitsAhead ≠ p) : exec .decSym s =
    raise .truncPayload (s.skip s.bitsAhead.length).posDetail (s.skip s.bitsAhead.length) := by
  obtain ⟨j, n, hfollow, hn, hinternal⟩ := hholds.follow_inside hmem hprefix hne
  obtain ⟨top, htop⟩ := exists_node_of_follow hfollow hn
  have hsrc : s.bitsAhead = s.bitsAhead ++ [] := (List.append_nil _).symm
  rw [exec_decSym_loop htree htop, bitsLeft_eq_length_bitsAhead]
  exact (decSymLoop_follow 0 htop hfollow hn hsrc).trans (decSymLoop_end hinternal (bitsAhead_skip hsrc))

end

/-- Settles O44: the bits lead the loop to the leaf, or to an internal node where the source ends. -/
theorem decSymReadsOneSymbol : Obligations.DecSymReadsOneSymbol := by
  refine ⟨by decide, fun s => ⟨fun htree => takesFault_of_raise (exec_decSym_noTree htree) rfl,
    fun tree y p htree hholds hmem => ⟨fun rest hsrc => ?_, ?_⟩⟩⟩
  · exact completes_of_finish (exec_decSym_symbol htree hholds hmem hsrc)
  · rintro q hprefix hne rfl
    exact takesFault_of_raise (exec_decSym_truncated htree hholds hmem hprefix hne) rfl

/-! ### DECODE (46_stream_decode.md R240) -/

section
variable {s : State} {cur n top : Node} {m : Nat}

theorem decodeLoop_end (hsrc : s.bitsAhead = []) : decodeLoop m cur s = raise .truncPayload s.posDetail s := by
  cases m with
  | zero => rfl
  | succ m => simp only [decodeLoop, srcRead_one_none hsrc]

variable {b : Bool} {rest : List Bool} (hsrc : s.bitsAhead = b :: rest) (hn : s.nodeAt (cur.child b) = some n)
  (htop : s.nodeAt s.root = some top)
include hsrc hn htop

theorem decodeLoop_bit (hinternal : n.leaf = false) :
    decodeLoop (m + 1) cur s = decodeLoop m n (s.skip 1) := by
  simp only [decodeLoop, srcRead_one hsrc, toNat_bne_zero, State.nodeAt_skip, State.skip_root, hn, htop, hinternal,
    Bool.not_false, if_true]

/-- At a leaf the end marker ends the loop; a byte is written, and the loop is back at the root. -/
theorem decodeLoop_last_bit (hleaf : n.leaf = true) (hsym : n.sym.toNat ≤ 256) : decodeLoop (m + 1) cur s =
    if n.sym.toNat = 256 then finish (s.skip 1) else decodeLoop m top ((s.skip 1).snkWrite 8 n.sym.toNat) := by
  simp only [decodeLoop, srcRead_one hsrc, toNat_bne_zero, State.nodeAt_skip, State.skip_root, hn, htop, hleaf,
    Bool.not_true, Bool.false_eq_true, if_false]
  split
  · rfl
  next hbyte =>
    have hlt : n.sym.toNat < 256 := lt_of_le_of_ne hsym hbyte
    exact if_pos (decide_eq_true (Nat.le_of_lt_succ hlt))

end

/-- DECODE's loop goes where the bits lead, as long as that is an internal node. -/
theorem decodeLoop_follow {rest : List Bool} {j : BitVec 10} {n top : Node} (m : Nat) : ∀ {p : List Bool}
    {i : BitVec 10} {cur : Node} {s : State}, s.nodeAt i = some cur → follow s.node i p = some j →
    s.nodeAt j = some n → n.leaf = false → s.nodeAt s.root = some top → s.bitsAhead = p ++ rest →
    decodeLoop (p.length + m) cur s = decodeLoop m n (s.skip p.length)
  | [], i, cur, s, hcur, hfollow, hn, _, _, hsrc => by
    cases hfollow
    cases hcur.symm.trans hn
    rw [List.length_nil, Nat.zero_add]
    rfl
  | b :: p, i, cur, s, hcur, hfollow, hn, hinternal, htop, hsrc => by
    obtain ⟨_, hcur', -, hrest⟩ := follow_cons_eq_some hfollow
    cases hcur.symm.trans hcur'
    obtain ⟨next, hnext, hnextInternal⟩ : ∃ next, s.nodeAt (cur.child b) = some next ∧ next.leaf = false := by
      cases p with
      | nil => cases hrest; exact ⟨n, hn, hinternal⟩
      | cons b' p =>
        obtain ⟨next, hnext, hnextInternal, -⟩ := follow_cons_eq_some hrest
        exact ⟨next, hnext, hnextInternal⟩
    rw [List.length_cons, Nat.add_right_comm, decodeLoop_bit hsrc hnext htop hnextInternal,
      decodeLoop_follow (s := s.skip 1) m hnext hrest hn hinternal htop (bitsAhead_skip (p := [b]) hsrc),
      State.skip_skip, Nat.add_comm 1]

section
variable {s : State} (htree : s.treeValid = true) (hopen : s.outClosed = false)
include htree hopen

/-- On a leaf root DECODE reads nothing: it ends on PSEUDO_EOF's. -/
theorem exec_decode_eof_root (hholds : Holds s.node (.leaf 256) s.root) : exec .decode s = finish s := by
  obtain ⟨top, htop, hleaf, hsym⟩ := hholds
  have htop' : s.nodeAt s.root = some top := htop
  rw [exec, execDecode, if_neg (by rw [htree]; decide), if_neg (by rw [hopen]; decide), htop']
  exact (if_pos hleaf).trans (if_pos hsym)

theorem exec_decode_loop {top : Node} (htop : s.nodeAt s.root = some top) (hinternal : top.leaf = false) :
    exec .decode s = decodeLoop s.bitsLeft top s := by
  rw [exec, execDecode, if_neg (by rw [htree]; decide), if_neg (by rw [hopen]; decide), htop]
  exact if_neg (by rw [hinternal]; decide)

variable {l r : Shape} (hholds : Holds s.node (.node l r) s.root) {y : Nat} {p : List Bool}
  (hmem : (y, p) ∈ (Shape.node l r).leaves)
include hholds hmem

/-- On an internal root DECODE reads the path of a leaf; PSEUDO_EOF's ends it, and past a byte's it goes on as from a
start there with the byte written. -/
theorem exec_decode_symbol {rest : List Bool} (hy : y ≤ 256) (hsrc : s.bitsAhead = p ++ rest) : exec .decode s =
    if y = 256 then finish (s.skip p.length) else exec .decode ((s.skip p.length).snkWrite 8 y) := by
  have ⟨top, htop, hinternal, _⟩ := hholds
  obtain rfl | ⟨q, b, rfl⟩ := p.eq_nil_or_concat'
  · obtain ⟨_, hleaf⟩ := Shape.eq_leaf_of_nil_path hmem
    cases hleaf
  obtain ⟨j, n, hfollow, hn, hleaf, rfl⟩ := hholds.follow_leaf hmem
  obtain ⟨k, m, hinside, hm, hmInternal, hlast⟩ := follow_append_cons hfollow
  cases hlast
  have hrest : ((s.skip (q ++ [b]).length).snkWrite 8 n.sym.toNat).bitsLeft = rest.length :=
    (bitsLeft_eq_length_bitsAhead _).trans (congrArg List.length (bitsAhead_skip hsrc))
  have hback := exec_decode_loop (s := (s.skip (q ++ [b]).length).snkWrite 8 n.sym.toNat) htree hopen htop hinternal
  rw [List.append_assoc] at hsrc
  have hstep := decodeLoop_last_bit (s := s.skip q.length) (m := rest.length) (bitsAhead_skip hsrc) hn htop hleaf hy
  rw [State.skip_skip] at hstep
  rw [hback, hrest, exec_decode_loop htree hopen htop hinternal, bitsLeft_eq_length_bitsAhead, hsrc, List.length_append,
    decodeLoop_follow _ htop hinside hm hmInternal htop hsrc]
  simp only [List.length_append, List.length_singleton, Nat.add_comm 1]
  exact hstep

theorem exec_decode_truncated (hprefix : s.bitsAhead <+: p) (hne : s.bitsAhead ≠ p) : exec .decode s =
    raise .truncPayload (s.skip s.bitsAhead.length).posDetail (s.skip s.bitsAhead.length) := by
  have ⟨top, htop, htopInternal, _⟩ := hholds
  obtain ⟨j, n, hfollow, hn, hinternal⟩ := hholds.follow_inside hmem hprefix hne
  have hsrc : s.bitsAhead = s.bitsAhead ++ [] := (List.append_nil _).symm
  rw [exec_decode_loop htree hopen htop htopInternal, bitsLeft_eq_length_bitsAhead]
  exact (decodeLoop_follow 0 htop hfollow hn hinternal htop hsrc).trans (decodeLoop_end (bitsAhead_skip hsrc))

end

/-- Settles O45: where DEC_SYM reads the path of a leaf DECODE takes one turn with its symbol; where the source ends
inside one both end there. -/
theorem decodeIsRepeatedDecSym : Obligations.DecodeIsRepeatedDecSym := by
  intro s t l r htree hopen hfault hholds ha hexec
  obtain ⟨y, p, hmem, ⟨rest, hsrc⟩ | ⟨hprefix, hne⟩⟩ := (Shape.node l r).leaf_path_or_inside s.bitsAhead
  · have hy : y ≤ 256 := ha (y, p) hmem
    have hres : (BitVec.ofNat 32 y).toNat = y := (BitVec.toNat_ofNat ..).trans (Nat.mod_eq_of_lt (by omega))
    have hdecode := exec_decode_symbol htree hopen hholds hmem hy hsrc
    rw [exec_decSym_symbol htree hholds hmem hsrc] at hexec
    cases hexec
    refine ⟨fun hf => absurd (hfault.symm.trans hf) Bool.false_ne_true, fun _ heof => ?_, fun _ hbyte => ?_⟩
    · have hy256 : y = 256 := hres.symm.trans (congrArg BitVec.toNat heof)
      exact completes_of_finish (hdecode.trans (if_pos hy256))
    · refine hdecode.trans ((if_neg fun hy256 => hbyte (congrArg (BitVec.ofNat 32) hy256)).trans ?_)
      exact congrArg (fun z => exec .decode ((s.skip p.length).snkWrite 8 z)) hres.symm
  · rw [exec_decSym_truncated htree hholds hmem hprefix hne] at hexec
    cases hexec
    have htaken := takesFault_of_raise (exec_decode_truncated htree hopen hholds hmem hprefix hne) rfl
    exact ⟨fun _ => htaken, fun hf => absurd hf.symm Bool.false_ne_true, fun hf => absurd hf.symm Bool.false_ne_true⟩

end Sys2Proof.Machine
end

section
/-! The payload: ENCODE over a whole source of bytes, and DECODE of a message of leaf paths (45_stream_encode.md R220;
46_stream_decode.md R240). -/

namespace Sys2Proof.Machine

/-! ### ENCODE (45_stream_encode.md R220) -/

/-- ENCODE, started in `s`, stands here when it has coded `k` bytes. -/
def State.encoded (s : State) (k : Nat) : State := { s with
  inPos := s.inPos + 8 * k
  outBits := s.outBits ++ (s.bytesAhead k).flatMap fun b => (s.codeAt b).str }

section
variable {s : State}

theorem State.encoded_zero (s : State) : s.encoded 0 = s :=
  congrArg (fun out => { s with outBits := out }) (List.append_nil s.outBits)

@[simp] theorem State.encoded_codeAt (s : State) (k y : Nat) : (s.encoded k).codeAt y = s.codeAt y := rfl

theorem State.encoded_srcRead {k : Nat} (hk : k < s.bytesLeft) :
    (s.encoded k).srcRead 8 = some (s.byteAt k, (s.encoded k).skip 8) := by
  have hleft : ¬ (s.encoded k).bitsLeft < 8 := by
    simp only [State.bytesLeft, State.bitsLeft, State.encoded] at hk ⊢
    omega
  rw [srcRead_eq, if_neg hleft]
  rfl

theorem State.encoded_succ (s : State) (k : Nat) :
    ((s.encoded k).skip 8).writeCode (s.byteAt k) = s.encoded (k + 1) := by
  rw [State.encoded.eq_def s (k + 1), bytesAhead_succ, List.flatMap_append, List.flatMap_singleton, ← List.append_assoc]
  rfl

variable (hvalid : ∀ b ∈ s.bytesAhead s.bytesLeft, (s.codeAt b).valid = true) (heof : (s.codeAt 256).valid = true)
include hvalid heof

theorem encodeLoop_encoded : ∀ {n k : Nat}, k + n = s.bytesLeft →
    encodeLoop n (s.encoded k) = finish ((s.encoded s.bytesLeft).writeCode 256)
  | 0, k, hk => by
    rw [← hk]
    exact if_neg (by simp [heof])
  | n + 1, k, hk => by
    have hb : (s.codeAt (s.byteAt k)).valid = true :=
      hvalid _ (List.mem_map_of_mem (List.mem_range.mpr (by omega)))
    have hcode : ¬ (!(((s.encoded k).skip 8).codeAt (s.byteAt k)).valid) = true := by
      rw [Bool.not_eq_true, Bool.not_eq_false']
      exact hb
    simp only [encodeLoop, State.encoded_srcRead (show k < s.bytesLeft by omega), if_neg hcode, State.encoded_succ]
    exact encodeLoop_encoded (by omega)

/-- With a code for every byte left and for PSEUDO_EOF, ENCODE writes them all. -/
theorem exec_encode (hcodes : s.codesValid = true) (hopen : s.outClosed = false) :
    exec .encode s = finish ((s.encoded s.bytesLeft).writeCode 256) := by
  rw [exec, execEncode, if_neg (by rw [hcodes]; decide), if_neg (by rw [hopen]; decide)]
  simpa only [State.encoded_zero] using encodeLoop_encoded hvalid heof (Nat.zero_add _)

end

/-! ### The bytes of a byte stream (20_memory.md R66) -/

theorem length_bitsOfBytes (bytes : List (BitVec 8)) : (bitsOfBytes bytes).length = 8 * bytes.length := by
  simp [bitsOfBytes, Nat.mul_comm]

theorem bitsOfBytes_cons (b : BitVec 8) (bytes : List (BitVec 8)) :
    bitsOfBytes (b :: bytes) = bitsOf 8 b.toNat ++ bitsOfBytes bytes :=
  List.flatMap_cons

theorem drop_bitsOfBytes : ∀ (bytes : List (BitVec 8)) (k : Nat),
    (bitsOfBytes bytes).drop (8 * k) = bitsOfBytes (bytes.drop k)
  | _, 0 => rfl
  | [], k + 1 => List.drop_nil
  | b :: bytes, k + 1 => by
    rw [bitsOfBytes_cons, Nat.mul_succ, Nat.add_comm, ← List.drop_drop, List.drop_left' (length_bitsOf 8 _),
      drop_bitsOfBytes, List.drop_succ_cons]

section
variable {s : State} {bytes : List (BitVec 8)} (hsrc : s.inBits = bitsOfBytes bytes) (hpos : s.inPos = 0)
include hsrc hpos

theorem bytesLeft_bitsOfBytes : s.bytesLeft = bytes.length := by
  rw [State.bytesLeft, State.bitsLeft, hsrc, hpos, length_bitsOfBytes]
  omega

theorem byteAt_bitsOfBytes {k : Nat} (hk : k < bytes.length) : s.byteAt k = bytes[k].toNat := by
  rw [State.byteAt, hsrc, hpos, Nat.zero_add, drop_bitsOfBytes, List.drop_eq_getElem_cons hk, bitsOfBytes_cons,
    List.take_left' (length_bitsOf 8 _), numeral_bitsOf, Nat.mod_eq_of_lt bytes[k].isLt]

theorem bytesAhead_bitsOfBytes : s.bytesAhead bytes.length = bytes.map BitVec.toNat := by
  refine List.ext_getElem (by simp [State.bytesAhead]) fun k _ hk => ?_
  rw [List.length_map] at hk
  simp [State.bytesAhead, byteAt_bitsOfBytes hsrc hpos hk]

end

/-! ### DECODE of a message (46_stream_decode.md R240) -/

/-- The state after DECODE has read `bits` and written the symbols of `msg` as bytes. -/
def State.decoded (s : State) (bits : List Bool) (msg : List (Nat × List Bool)) : State := { s with
  inPos := s.inPos + bits.length
  outBits := s.outBits ++ msg.flatMap fun e => bitsOf 8 e.1 }

/-- DECODE of the paths of byte leaves and then of PSEUDO_EOF's writes those bytes and stops just past the last. -/
theorem exec_decode_message {t : Shape} {eof rest : List Bool} (heof : (256, eof) ∈ t.leaves) :
    ∀ {msg : List (Nat × List Bool)} {s : State}, s.treeValid = true → s.outClosed = false → Holds s.node t s.root →
      (∀ e ∈ msg, e ∈ t.leaves ∧ e.1 < 256) → s.bitsAhead = msg.flatMap Prod.snd ++ eof ++ rest →
      exec .decode s = finish (s.decoded (msg.flatMap Prod.snd ++ eof) msg) := by
  cases t with
  | leaf y =>
    intro msg s htree hopen hholds hmsg _
    cases List.mem_singleton.mp heof
    cases msg with
    | nil =>
      rw [exec_decode_eof_root htree hopen hholds]
      exact congrArg (fun out => finish { s with outBits := out }) (List.append_nil _).symm
    | cons e msg =>
      obtain ⟨he, hlt⟩ := hmsg e List.mem_cons_self
      rw [List.mem_singleton.mp he] at hlt
      exact absurd hlt (lt_irrefl _)
  | node l r =>
    intro msg
    induction msg with
    | nil =>
      intro s htree hopen hholds _ hsrc
      rw [exec_decode_symbol htree hopen hholds heof le_rfl hsrc, if_pos rfl]
      exact congrArg (fun out => finish { s.skip eof.length with outBits := out }) (List.append_nil _).symm
    | cons e msg ih =>
      intro s htree hopen hholds hmsg hsrc
      obtain ⟨⟨he, hlt⟩, hmsg⟩ := List.forall_mem_cons.mp hmsg
      rw [List.flatMap_cons, List.append_assoc, List.append_assoc] at hsrc
      rw [exec_decode_symbol htree hopen hholds he hlt.le hsrc, if_neg hlt.ne,
        ih (s := (s.skip e.2.length).snkWrite 8 e.1) htree hopen hholds hmsg
          ((bitsAhead_skip hsrc).trans (List.append_assoc ..).symm)]
      simp only [State.decoded, State.skip, State.snkWrite, List.flatMap_cons, List.append_assoc, List.length_append,
        Nat.add_assoc]

/-! ### The payload of a tree (45_stream_encode.md R222) -/

/-- The codes of the bytes and then of PSEUDO_EOF, as GENCODES makes them of the tree. -/
def Shape.payload (t : Shape) (bytes : List (BitVec 8)) : List Bool :=
  (bytes.flatMap fun b => (t.codeEntry b.toNat).str) ++ (t.codeEntry 256).str

/-- The bytes as a message: each with the path of its leaf. -/
def Shape.message (t : Shape) (bytes : List (BitVec 8)) : List (Nat × List Bool) :=
  bytes.map fun b => (b.toNat, (t.codeEntry b.toNat).str)

/-- The tree gives a code, no longer than the table holds, to PSEUDO_EOF and to every one of the bytes. -/
structure Shape.Codes (t : Shape) (bytes : List (BitVec 8)) : Prop where
  inAlphabet : t.inAlphabet
  depth : t.depth ≤ 256
  bytes : ∀ b ∈ bytes, (t.codeEntry b.toNat).valid = true
  eof : (t.codeEntry 256).valid = true

theorem Shape.mem_leaves_of_valid {t : Shape} (hd : t.depth ≤ 256) {y : Nat} (h : (t.codeEntry y).valid = true) :
    (y, (t.codeEntry y).str) ∈ t.leaves := by
  obtain ⟨p, hmem, hcode⟩ := Shape.exists_leaf_of_valid h
  rwa [hcode, str_codeOfPath p ((Shape.length_le_depth hmem).trans hd)]

section
variable {s : State} {t : Shape} {bytes : List (BitVec 8)} (ht : t.Codes bytes)
include ht

theorem exec_encode_payload (hcodes : s.codesValid = true) (hopen : s.outClosed = false) (hcode : s.code = t.codeTable)
    (hsrc : s.inBits = bitsOfBytes bytes) (hpos : s.inPos = 0) : exec .encode s = finish { s with
      inPos := 8 * bytes.length, outBits := s.outBits ++ t.payload bytes } := by
  have hcodeAt (y : Nat) : s.codeAt y = t.codeEntry y := codeAt_codeTable ht.inAlphabet hcode y
  have hleft := bytesLeft_bitsOfBytes hsrc hpos
  have hbytes := bytesAhead_bitsOfBytes hsrc hpos
  rw [exec_encode (by simpa [hleft, hbytes, hcodeAt] using ht.bytes) (by rw [hcodeAt]; exact ht.eof) hcodes hopen,
    writeCode_eq, State.encoded_codeAt, hleft]
  simp only [State.encoded, hbytes, hcodeAt, hpos, Nat.zero_add, List.append_assoc, Shape.payload, List.flatMap_map]

theorem exec_decode_payload {rest : List Bool} (htree : s.treeValid = true) (hopen : s.outClosed = false)
    (hholds : Holds s.node t s.root) (hsrc : s.bitsAhead = t.payload bytes ++ rest) : exec .decode s = finish { s with
      inPos := s.inPos + (t.payload bytes).length, outBits := s.outBits ++ bitsOfBytes bytes } := by
  have hpayload : t.payload bytes = (t.message bytes).flatMap Prod.snd ++ (t.codeEntry 256).str := by
    rw [Shape.payload, Shape.message, List.flatMap_map]
  have hmsg : ∀ e ∈ t.message bytes, e ∈ t.leaves ∧ e.1 < 256 := by
    intro e he
    obtain ⟨b, hb, rfl⟩ := List.mem_map.mp he
    exact ⟨Shape.mem_leaves_of_valid ht.depth (ht.bytes b hb), b.isLt⟩
  rw [hpayload] at hsrc ⊢
  rw [exec_decode_message (Shape.mem_leaves_of_valid ht.depth ht.eof) htree hopen hholds hmsg hsrc]
  simp only [State.decoded, Shape.message, List.flatMap_map, bitsOfBytes]

end

end Sys2Proof.Machine
end

section
/-! The tree of the counted bytes, one and the same whatever else the engine holds (41_frequency.md R141;
42_tree_builder.md R160, R161; 45_stream_encode.md R222). -/

namespace Sys2Proof.Machine

/-! ### BUILD comes to an end (42_tree_builder.md R160) -/

theorem exists_removeMin {node : Vector Node 513} {q : List Nat} (h : q ≠ []) :
    ∃ i q', removeMin node q = some (i, q') := by
  rcases hmin : removeMin node q with _ | ⟨i, q'⟩
  · exact absurd (removeMin_none.mp hmin) h
  · exact ⟨i, q', rfl⟩

theorem removeMin_length {node : Vector Node 513} {q q' : List Nat} {i : Nat} (h : removeMin node q = some (i, q')) :
    q'.length + 1 = q.length := by
  obtain ⟨hmem, rfl, -⟩ := removeMin_some h
  exact List.length_erase_add_one hmem

/-- The merges the loop is allowed are enough: each leaves the queue shorter by one. -/
theorem exists_mergeLoop : ∀ {k : Nat} {f : Forest}, f.queue ≠ [] → f.queue.length ≤ k → ∃ r, mergeLoop k f = some r
  | 0, f, hne, hk => absurd (List.length_eq_zero_iff.mp (Nat.le_zero.mp hk)) hne
  | k + 1, f, hne, hk => by
    obtain ⟨l, q, hl⟩ := exists_removeMin (node := f.node) hne
    rcases hr : removeMin f.node q with _ | ⟨r, q'⟩
    · exact ⟨(f, l), by simp only [mergeLoop, hl, hr]⟩
    · have hlenL := removeMin_length hl
      have hlenR := removeMin_length hr
      have hrest : (f.merge l r q').queue.length ≤ k := by
        rw [Forest.merge_queue, List.length_append, List.length_singleton]
        omega
      obtain ⟨result, h⟩ := exists_mergeLoop (by rw [Forest.merge_queue]; simp) hrest
      exact ⟨result, by simp only [mergeLoop, hl, hr]; exact h⟩

theorem mem_countedSymbols {s : State} {v : Nat} : v ∈ s.countedSymbols ↔ v ≤ 256 ∧ s.freqAt v ≠ 0 := by
  simp [State.countedSymbols, Nat.lt_succ_iff]

/-- With PSEUDO_EOF counted there is a leaf, so BUILD does not find its queue empty. -/
theorem exec_build {s : State} (heof : s.freqAt 256 = 1) :
    ∃ f root, exec .build s = finish (s.withForest f root).undefineNodes := by
  have hcounted : s.countedSymbols ≠ [] :=
    List.ne_nil_of_mem (mem_countedSymbols.mpr ⟨le_rfl, by rw [heof]; decide⟩)
  have hqueue : (buildLeaves s).queue ≠ [] := by
    rw [(buildLeaves_leavesOf s).queue]
    simpa using hcounted
  obtain ⟨⟨f, root⟩, hloop⟩ := exists_mergeLoop hqueue le_rfl
  exact ⟨f, root, by simp only [exec, execBuild, hloop]; rfl⟩

/-! ### The tree of a frequency table (42_tree_builder.md R161) -/

/-- BUILD makes the tree `t` of the frequency table, whatever else the engine holds. -/
def BuildMakes (freq : Vector Word 257) (t : Shape) : Prop :=
  ∀ s b : State, s.freq = freq → exec .build s = .next b → Holds b.node t b.root

/-- The counts fix the tree BUILD makes, and its leaves are the counted symbols. -/
theorem exists_tree_of_counts {s : State} (heof : s.freqAt 256 = 1) : ∃ t : Shape,
    (t.leaves.map Prod.fst).Perm s.countedSymbols ∧ t.size ≤ 513 ∧ BuildMakes s.freq t := by
  obtain ⟨f, root, hexec⟩ := exec_build heof
  obtain ⟨t, hholds, hsymbols, hentries⟩ := exec_build_tree hexec
  obtain ⟨hsize, hcap⟩ := TreeOk.ncount_eq_size ⟨t, hholds, Shape.inAlphabet_of_perm hsymbols, hentries⟩ hholds
  refine ⟨t, hsymbols, hcap, fun u v hfreq hexec' => ?_⟩
  obtain ⟨-, -, hsame⟩ := buildMergesTheTwoLeast s _ heof hexec
  obtain ⟨-, hroot, hnode⟩ := hsame u v hfreq hexec'
  rw [hroot]
  exact (hholds.congr fun j hj => hnode j (List.mem_range.mp (hentries.subset hj))).1

/-! ### The counts of a byte sequence (41_frequency.md R142) -/

/-- The frequency table FREQ_COUNT leaves after the bytes. -/
def countTable (bytes : List (BitVec 8)) : Vector Word 257 :=
  tabulate 257 fun v => if v < 256 then BitVec.ofNat 32 ((bytes.map BitVec.toNat).count v) else 1

theorem count_map_toNat_le {bytes : List (BitVec 8)} {k : Nat} (h : ∀ b, bytes.count b ≤ k) {v : Nat} (hv : v < 256) :
    (bytes.map BitVec.toNat).count v ≤ k := by
  have hb : (BitVec.ofNat 8 v).toNat = v := (BitVec.toNat_ofNat ..).trans (Nat.mod_eq_of_lt hv)
  rw [← hb, List.count_map_of_injective _ _ fun _ _ => BitVec.eq_of_toNat_eq]
  exact h _

/-- FREQ_COUNT over the bytes, each value in reach of its entry, counts them and moves nothing but the source. -/
theorem exec_freqCount_bytes {s : State} {bytes : List (BitVec 8)} (hcount : ∀ b, bytes.count b ≤ 2 ^ 32 - 1)
    (hsrc : s.inBits = bitsOfBytes bytes) (hpos : s.inPos = 0) : ∃ t, exec .freqCount s = .next t ∧
      t.known = State.known { s with
        freq := countTable bytes, inPos := 8 * bytes.length, busy := false, done := true } := by
  have hbytes : s.bytesAhead ((s.inBits.length - s.inPos) / 8) = bytes.map BitVec.toNat :=
    (congrArg s.bytesAhead (bytesLeft_bitsOfBytes hsrc hpos)).trans (bytesAhead_bitsOfBytes hsrc hpos)
  obtain ⟨-, hcounts⟩ := freqCountCountsTheBytes
  obtain ⟨t, hexec, hknown, hfreq, heof⟩ := hcounts s fun v hv => by
    rw [hbytes]
    exact count_map_toNat_le hcount hv
  have htable : t.freq = countTable bytes := by
    ext1 v hv
    rw [← freqAt_eq_getElem t hv, countTable, getElem_tabulate]
    split
    next hbyte =>
      rw [← BitVec.toNat_inj, hfreq v hbyte, hbytes, BitVec.toNat_ofNat, Nat.mod_eq_of_lt]
      have := count_map_toNat_le hcount hbyte
      omega
    next hbyte =>
      obtain rfl : v = 256 := by omega
      exact heof
  have hleft : (s.inBits.length - s.inPos) / 8 = bytes.length := bytesLeft_bitsOfBytes hsrc hpos
  rw [htable, hleft, hpos, Nat.zero_add] at hknown
  exact ⟨t, hexec, hknown⟩

/-- A state that holds the counts of the bytes. -/
def countedState (bytes : List (BitVec 8)) : State := { State.reset with freq := countTable bytes }

theorem freqAt_countedState {bytes : List (BitVec 8)} {v : Nat} (hv : v < 257) : (countedState bytes).freqAt v =
    if v < 256 then BitVec.ofNat 32 ((bytes.map BitVec.toNat).count v) else 1 := by
  rw [freqAt_eq_getElem _ hv]
  exact getElem_tabulate ..

theorem freqAt_countedState_eof (bytes : List (BitVec 8)) : (countedState bytes).freqAt 256 = 1 :=
  freqAt_countedState (by decide)

/-- The tree BUILD makes of the counts of the bytes codes the bytes. -/
theorem exists_tree_of_bytes {bytes : List (BitVec 8)} (hcount : ∀ b, bytes.count b ≤ 2 ^ 32 - 1) : ∃ t : Shape,
    t.Codes bytes ∧ t.size ≤ 513 ∧ BuildMakes (countTable bytes) t := by
  obtain ⟨t, hsymbols, hcap, hbuild⟩ := exists_tree_of_counts (freqAt_countedState_eof bytes)
  have hvalid {y : Nat} (hy : y ∈ (countedState bytes).countedSymbols) : (t.codeEntry y).valid = true := by
    obtain ⟨e, he, rfl⟩ := List.mem_map.mp (hsymbols.symm.subset hy)
    rw [Shape.codeEntry_of_distinct (Shape.distinct_of_perm hsymbols) he]
    rfl
  refine ⟨t, ⟨Shape.inAlphabet_of_perm hsymbols, ?_, fun b hb => hvalid (mem_countedSymbols.mpr ⟨b.isLt.le, ?_⟩),
    hvalid (mem_countedSymbols.mpr ⟨le_rfl, ?_⟩)⟩, hcap, hbuild⟩
  · have := t.depth_le_size
    omega
  · have hpos : 0 < (bytes.map BitVec.toNat).count b.toNat := List.count_pos_iff.mpr (List.mem_map_of_mem hb)
    have hle := count_map_toNat_le hcount b.isLt
    have hnat := (BitVec.toNat_ofNat ((bytes.map BitVec.toNat).count b.toNat) 32).trans (Nat.mod_eq_of_lt (by omega))
    rw [freqAt_countedState (Nat.lt_succ_of_lt b.isLt), if_pos b.isLt]
    exact fun hzero => hpos.ne' (hnat.symm.trans (congrArg BitVec.toNat hzero))
  · rw [freqAt_countedState_eof]
    decide

end Sys2Proof.Machine
end

section
/-! A sequence of commands issued by the host, each followed by its WAIT, as COMPRESS and DECOMPRESS are
(30_encoding.md R99 to R101; 40_control.md R120 to R124). -/

namespace Sys2Proof.Machine

/-! ### Steps in a row -/

theorem Reaches.refl (s : State) : Reaches s s := ⟨0, rfl⟩

theorem Reaches.of_step {s t u : State} (h : step s = .next t) (hr : Reaches t u) : Reaches s u := by
  obtain ⟨n, hn⟩ := hr
  refine ⟨n + 1, ?_⟩
  have hstep : Sys2Proof.core.step s = .next t := h
  simp only [Host.Core.run, hstep]
  exact hn

/-- While a command runs, a WAIT lets the engine move. -/
theorem step_wait_busy {s : State} {i : Instr} {closeSink : Bool} {rest : List Input}
    (hin : s.inputs = .wait closeSink :: rest) (hb : s.busy = true) (h : decode s.cur = .ok i) :
    step s = exec i s := by
  simp only [step, nextTurn, hin, hb, Bool.not_true, Bool.false_and, Bool.false_eq_true, if_false, engineTurn, if_true,
    fetch, h]

/-! ### A command and its WAIT -/

/-- What a command without operands works on: the state with the control of a command and the model's own fields
blanked. -/
def State.work (s : State) : State := { s with
  busy := false, done := false, cur := 0, curArg := 0, inputs := [], rdata := 0, draws := 0 }

/-- From work that meets `p`, with no fault recorded, the command completes with no fault in work that meets `q`. -/
def Ends (i : Instr) (p q : State → Prop) : Prop :=
  ∀ s : State, s.fault = false → p s.work → ∃ t, exec i s = .next t ∧ t.fault = false ∧ t.inputs = s.inputs ∧ q t.work

section
variable {i : Instr} {p q : State → Prop}

theorem ends_of_finish (h : ∀ s : State, p s.work → ∃ u, exec i s = finish u ∧ u.fault = s.fault ∧
    u.inputs = s.inputs ∧ q u.work) : Ends i p q := by
  intro s hfault hp
  obtain ⟨u, hexec, hu, hin, hq⟩ := h s hp
  exact ⟨u.complete, hexec, hu.trans hfault, hin, hq⟩

/-- An idle engine that is given such a command, and then a WAIT, gets past both. -/
theorem Ends.reaches {s : State} {rest : List Input} (h : Ends i p q) (hdecode : decode (encode i) = .ok i)
    (hidle : Idle s) (hin : s.inputs = writeCmd i :: .wait true :: rest) (hp : p s.work) :
    ∃ t, Idle t ∧ t.done = true ∧ t.inputs = rest ∧ q t.work ∧ ∀ u, Reaches t u → Reaches s u := by
  obtain ⟨hbusy, hfault⟩ := hidle
  have haccept := step_writeCmd_accepted hin hbusy (by simp [hfault])
  obtain ⟨t, hexec, htfault, htin, hq⟩ := h (State.accept { s with inputs := .wait true :: rest } (encode i)) hfault hp
  obtain ⟨htbusy, htdone⟩ := exec_status hexec
  have hrun := (step_wait_busy (i := i) rfl rfl hdecode).trans hexec
  obtain ⟨-, -, hwaits⟩ := pseudoCommandsExpand
  obtain ⟨hwait, -⟩ := hwaits t true rest htin htbusy htdone
  exact ⟨{ t with inputs := rest, rdata := t.statusWord }, ⟨htbusy, htfault⟩, htdone, rfl, hq,
    fun u hu => .of_step haccept (.of_step hrun (.of_step (hwait htfault) hu))⟩

end

/-! ### A sequence of commands -/

/-- The commands take work that meets `p` to work that meets `q`, each of them completing with no fault. -/
def Script : List Instr → (State → Prop) → (State → Prop) → Prop
  | [], p, q => ∀ s, p s → q s
  | i :: is, p, q => ∃ m, decode (encode i) = .ok i ∧ Ends i p m ∧ Script is m q

theorem Script.reaches {q : State → Prop} : ∀ {is : List Instr} {p : State → Prop} {s : State}, Script is p q →
    Idle s → s.inputs = issueAll is → p s.work → (is = [] → s.done = true) →
    ∃ t, Reaches s t ∧ t.inputs = [] ∧ Idle t ∧ t.done = true ∧ q t.work
  | [], _, s, hscript, hidle, hin, hp, hdone => ⟨s, .refl s, hin, hidle, hdone rfl, hscript _ hp⟩
  | i :: is, _, s, ⟨_, hdecode, hends, hscript⟩, hidle, hin, hp, _ => by
    obtain ⟨t, htidle, htdone, htin, hm, hreach⟩ := hends.reaches (rest := issueAll is) hdecode hidle hin hp
    obtain ⟨u, hu, hend⟩ := hscript.reaches htidle htin hm fun _ => htdone
    exact ⟨u, hreach u hu, hend⟩

end Sys2Proof.Machine
end

section
/-! COMPRESS and DECOMPRESS as scripts, and the round trip (30_encoding.md R100, R101; 46_stream_decode.md R244;
47_framing_ports.md R260, R261). -/

namespace Sys2Proof.Machine

/-! ### WRTAG and CHKTAG (47_framing_ports.md R260, R261) -/

theorem exec_wrTag {s : State} (hopen : s.outClosed = false) :
    exec .wrTag s = finish (s.snkWrite 32 Config.MAGIC.toNat) :=
  if_neg (by rw [hopen]; decide)

theorem exec_chkTag_magic {s : State} {rest : List Bool}
    (hsrc : s.bitsAhead = bitsOf 32 Config.MAGIC.toNat ++ rest) : exec .chkTag s = finish (s.skip 32) := by
  have hread := srcRead_append hsrc
  rw [length_bitsOf, numeral_bitsOf, Nat.mod_eq_of_lt Config.MAGIC.isLt] at hread
  rw [exec, execChkTag, hread]
  exact if_pos rfl

/-! ### The stages of COMPRESS and DECOMPRESS -/

/-- The ports while COMPRESS runs: the source it was given, and the open sink with what it has written. -/
structure Writing (bits out : List Bool) (s : State) : Prop where
  source : s.inBits = bits
  sink : s.outBits = out
  isOpen : s.outClosed = false

/-- The ports while DECOMPRESS runs: what it has still to read, and the open sink with what it has written. -/
structure Reading (ahead out : List Bool) (s : State) : Prop where
  source : s.bitsAhead = ahead
  sink : s.outBits = out
  isOpen : s.outClosed = false

/-- The store holds the tree. -/
structure HasTree (t : Shape) (s : State) : Prop where
  treeValid : s.treeValid = true
  holds : Holds s.node t s.root

/-- The code table is the tree's. -/
structure HasCodes (t : Shape) (s : State) : Prop where
  codesValid : s.codesValid = true
  code : s.code = t.codeTable

/-- The bits before the padding: tag, header and payload (30_encoding.md R102). -/
def unpadded (t : Shape) (bytes : List (BitVec 8)) : List Bool :=
  bitsOf 32 Config.MAGIC.toNat ++ t.header ++ t.payload bytes

/-- The bits with the 0 bits that SnkClose appends. -/
def padded (bits : List Bool) : List Bool := bits ++ List.replicate (padding bits.length) false

theorem dvd_length_padded (bits : List Bool) : 8 ∣ (padded bits).length := by
  rw [padded, List.length_append, List.length_replicate]
  exact dvd_add_padding _

theorem padded_bitsOfBytes (bytes : List (BitVec 8)) : padded (bitsOfBytes bytes) = bitsOfBytes bytes := by
  have hpad : padding (bitsOfBytes bytes).length = 0 := by
    rw [length_bitsOfBytes, padding]
    omega
  rw [padded, hpad]
  exact List.append_nil _

/-- SNK_CLOSE pads the sink and closes it. -/
theorem ends_snkClose (out : List Bool) : Ends .snkClose (fun s => s.outBits = out ∧ s.outClosed = false)
    fun s => s.outBits = padded out ∧ s.outClosed = true := by
  refine ends_of_finish fun s ⟨hout, hopen⟩ => ?_
  refine ⟨_, (exec_snkClose s).trans (congrArg finish (State.snkClose_of_open hopen)), rfl, rfl, ?_, rfl⟩
  exact congrArg padded hout

/-! ### COMPRESS (30_encoding.md R100) -/

section
variable {bytes : List (BitVec 8)}

theorem ends_freqCount (hcount : ∀ b, bytes.count b ≤ 2 ^ 32 - 1) : Ends .freqCount
    (fun s => FreshPorts s (bitsOfBytes bytes))
    fun s => Writing (bitsOfBytes bytes) [] s ∧ s.freq = countTable bytes := by
  intro s hfault ⟨hsrc, hpos, hout, hopen⟩
  obtain ⟨t, hexec, hknown⟩ := exec_freqCount_bytes (s := s) hcount hsrc hpos
  exact ⟨t, hexec, (congrArg State.fault hknown).trans hfault, (congrArg State.inputs hknown :),
    ⟨(congrArg State.inBits hknown).trans hsrc, (congrArg State.outBits hknown).trans hout,
      (congrArg State.outClosed hknown).trans hopen⟩, (congrArg State.freq hknown :)⟩

variable {bits out : List Bool} {t : Shape}

theorem ends_build (hbuild : BuildMakes (countTable bytes) t) : Ends .build
    (fun s => Writing bits out s ∧ s.freq = countTable bytes) fun s => Writing bits out s ∧ HasTree t s := by
  refine ends_of_finish fun s ⟨⟨hsrc, hout, hopen⟩, hfreq⟩ => ?_
  have heof : s.freqAt 256 = 1 :=
    (freqAt_congr (s := countedState bytes) hfreq 256).trans (freqAt_countedState_eof bytes)
  obtain ⟨f, root, hexec⟩ := exec_build heof
  exact ⟨_, hexec, rfl, rfl, ⟨hsrc, hout, hopen⟩, rfl, hbuild s (State.complete _) hfreq hexec⟩

theorem ends_genCodes (ha : t.inAlphabet) (hd : t.depth ≤ 256) : Ends .genCodes
    (fun s => Writing bits out s ∧ HasTree t s) fun s => Writing bits out s ∧ HasTree t s ∧ HasCodes t s :=
  ends_of_finish fun _ ⟨⟨hsrc, hout, hopen⟩, ⟨htree, hholds⟩⟩ => ⟨_, exec_genCodes htree hholds ha hd, rfl, rfl,
    ⟨hsrc, hout, hopen⟩, ⟨htree, hholds⟩, rfl, rfl⟩

theorem ends_wrTag : Ends .wrTag (fun s => Writing bits [] s ∧ HasTree t s ∧ HasCodes t s)
    fun s => Writing bits (bitsOf 32 Config.MAGIC.toNat) s ∧ HasTree t s ∧ HasCodes t s :=
  ends_of_finish fun _ ⟨⟨hsrc, hout, hopen⟩, ⟨htree, hholds⟩, ⟨hcodes, hcode⟩⟩ => ⟨_, exec_wrTag hopen, rfl, rfl,
    ⟨hsrc, congrArg (· ++ bitsOf 32 Config.MAGIC.toNat) hout, hopen⟩, ⟨htree, hholds⟩, hcodes, hcode⟩

theorem ends_wrHdr (hd : t.depth ≤ 256) : Ends .wrHdr (fun s => Writing bits out s ∧ HasTree t s ∧ HasCodes t s)
    fun s => Writing bits (out ++ t.header) s ∧ HasCodes t s :=
  ends_of_finish fun s ⟨⟨hsrc, hout, hopen⟩, ⟨htree, hholds⟩, ⟨hcodes, hcode⟩⟩ =>
    ⟨_, exec_wrHdr (s := s) htree hopen hholds hd, rfl, rfl,
      ⟨hsrc, congrArg (· ++ t.header) hout, hopen⟩, hcodes, hcode⟩

theorem ends_srcRewind : Ends .srcRewind (fun s => Writing bits out s ∧ HasCodes t s)
    fun s => Writing bits out s ∧ HasCodes t s ∧ s.inPos = 0 :=
  ends_of_finish fun s ⟨⟨hsrc, hout, hopen⟩, ⟨hcodes, hcode⟩⟩ =>
    ⟨_, exec_srcRewind s, rfl, rfl, ⟨hsrc, hout, hopen⟩, ⟨hcodes, hcode⟩, rfl⟩

theorem ends_encode (ht : t.Codes bytes) : Ends .encode
    (fun s => Writing (bitsOfBytes bytes) out s ∧ HasCodes t s ∧ s.inPos = 0)
    fun s => s.outBits = out ++ t.payload bytes ∧ s.outClosed = false :=
  ends_of_finish fun _ ⟨⟨hsrc, hout, hopen⟩, ⟨hcodes, hcode⟩, hpos⟩ =>
    ⟨_, exec_encode_payload ht hcodes hopen hcode hsrc hpos, rfl, rfl, congrArg (· ++ t.payload bytes) hout, hopen⟩

theorem compress_script (hcount : ∀ b, bytes.count b ≤ 2 ^ 32 - 1) (ht : t.Codes bytes)
    (hbuild : BuildMakes (countTable bytes) t) :
    Script [.freqCount, .build, .genCodes, .wrTag, .wrHdr, .srcRewind, .encode, .snkClose]
      (fun s => FreshPorts s (bitsOfBytes bytes))
      fun s => s.outBits = padded (unpadded t bytes) ∧ s.outClosed = true :=
  ⟨_, rfl, ends_freqCount hcount, _, rfl, ends_build hbuild, _, rfl, ends_genCodes ht.inAlphabet ht.depth,
    _, rfl, ends_wrTag, _, rfl, ends_wrHdr ht.depth, _, rfl, ends_srcRewind, _, rfl, ends_encode ht,
    _, rfl, ends_snkClose _, fun _ h => h⟩

/-! ### DECOMPRESS (30_encoding.md R101) -/

variable {rest : List Bool}

theorem ends_chkTag : Ends .chkTag (fun s => FreshPorts s (bitsOf 32 Config.MAGIC.toNat ++ rest))
    (Reading rest []) := by
  refine ends_of_finish fun s ⟨hsrc, hpos, hout, hopen⟩ => ?_
  have hahead : s.bitsAhead = bitsOf 32 Config.MAGIC.toNat ++ rest := (congrArg₂ List.drop hpos hsrc :)
  have hpast := bitsAhead_skip hahead
  rw [length_bitsOf] at hpast
  exact ⟨_, exec_chkTag_magic hahead, rfl, rfl, hpast, hout, hopen⟩

theorem ends_rdHdr (ha : t.inAlphabet) (hcap : t.size ≤ 513) : Ends .rdHdr (Reading (t.header ++ rest) out)
    fun s => Reading rest out s ∧ HasTree t s :=
  ends_of_finish fun _ ⟨hsrc, hout, hopen⟩ => ⟨_, exec_rdHdr_header ha hcap hsrc, rfl, rfl,
    ⟨bitsAhead_skip hsrc, hout, hopen⟩, rfl, (withHeaderTree_holds ha hcap).1⟩

theorem ends_decode (ht : t.Codes bytes) : Ends .decode
    (fun s => Reading (t.payload bytes ++ rest) [] s ∧ HasTree t s)
    fun s => s.outBits = bitsOfBytes bytes ∧ s.outClosed = false :=
  ends_of_finish fun _ ⟨⟨hsrc, hout, hopen⟩, ⟨htree, hholds⟩⟩ =>
    ⟨_, exec_decode_payload ht htree hopen hholds hsrc, rfl, rfl, congrArg (· ++ bitsOfBytes bytes) hout, hopen⟩

theorem decompress_script (ht : t.Codes bytes) (hcap : t.size ≤ 513) :
    Script [.chkTag, .rdHdr, .decode, .snkClose] (fun s => FreshPorts s (padded (unpadded t bytes)))
      fun s => s.outBits = bitsOfBytes bytes ∧ s.outClosed = true := by
  have hstream : padded (unpadded t bytes) = bitsOf 32 Config.MAGIC.toNat ++ (t.header ++ (t.payload bytes ++
      List.replicate (padding (unpadded t bytes).length) false)) := by
    rw [padded, unpadded, List.append_assoc, List.append_assoc]
  have hclose := ends_snkClose (bitsOfBytes bytes)
  rw [padded_bitsOfBytes] at hclose
  rw [hstream]
  exact ⟨_, rfl, ends_chkTag, _, rfl, ends_rdHdr ht.inAlphabet hcap, _, rfl, ends_decode ht, _, rfl, hclose,
    fun _ h => h⟩

end

/-- Settles O60: the stream is the tag, the header and the payload of the tree BUILD makes of the counts, padded; each
command of COMPRESS writes its part of it, and each of DECOMPRESS reads it back. -/
theorem compressThenDecompressRoundTrips : Obligations.CompressThenDecompressRoundTrips := by
  intro bytes hcount
  obtain ⟨t, ht, hcap, hbuild⟩ := exists_tree_of_bytes hcount
  refine ⟨padded (unpadded t bytes), dvd_length_padded _, fun s hidle hports hin => ?_, fun u hidle hports hin => ?_⟩
  · obtain ⟨v, hreach, hvin, hvidle, hdone, hout, hclosed⟩ :=
      (compress_script hcount ht hbuild).reaches hidle hin hports (by simp)
    exact ⟨v, hreach, hvin, hvidle, hdone, hclosed, hout⟩
  · obtain ⟨v, hreach, hvin, hvidle, hdone, hout, hclosed⟩ :=
      (decompress_script ht hcap).reaches hidle hin hports (by simp)
    exact ⟨v, hreach, hvin, hvidle, hdone, hclosed, hout⟩

end Sys2Proof.Machine
end

section
/-! WRTAG and CHKTAG on every sink and every source (47_framing_ports.md R260, R261). -/

namespace Sys2Proof.Machine

variable {s : State}

/-! ### WRTAG on a closed sink -/

theorem exec_wrTag_sinkClosed (hclosed : s.outClosed = true) : exec .wrTag s = raise .sinkClosed 0 s :=
  if_pos hclosed

/-! ### CHKTAG where the source ends too soon, and where it does not -/

theorem exec_chkTag_shortTag (hshort : s.bitsAhead.length < 32) :
    exec .chkTag s = raise .shortTag (BitVec.ofNat 32 s.bitsAhead.length) s := by
  rw [← bitsLeft_eq_length_bitsAhead] at hshort ⊢
  rw [exec, execChkTag, srcRead_none.mpr hshort]

theorem exec_chkTag_whole (hwhole : 32 ≤ s.bitsAhead.length) :
    exec .chkTag s = if numeral (s.bitsAhead.take 32) = Config.MAGIC.toNat then finish (s.skip 32)
      else raise .badMagic (BitVec.ofNat 32 (numeral (s.bitsAhead.take 32))) (s.skip 32) := by
  rw [← bitsLeft_eq_length_bitsAhead] at hwhole
  rw [exec, execChkTag, srcRead_eq, if_neg (Nat.not_lt.mpr hwhole)]
  rfl

/-- Settles O47: the sink is closed or open, and the tag is written at whatever position an open one has. -/
theorem wrTagAppendsMagic : Obligations.WrTagAppendsMagic :=
  ⟨by decide, fun _ => ⟨fun hclosed => takesFault_of_raise (exec_wrTag_sinkClosed hclosed) rfl,
    fun hopen => completes_of_finish (exec_wrTag hopen)⟩⟩

/-- Settles O48: a whole tag is read or none is, and one that was read is MAGIC or is not. -/
theorem chkTagChecksMagic : Obligations.ChkTagChecksMagic := by
  refine ⟨by decide, fun s => ⟨fun hshort => ?_, fun hwhole => ⟨fun hmagic => ?_, fun hother => ?_⟩⟩⟩
  · exact takesFault_of_raise (exec_chkTag_shortTag hshort) rfl
  · exact completes_of_finish ((exec_chkTag_whole hwhole).trans (if_pos hmagic))
  · exact takesFault_of_raise ((exec_chkTag_whole hwhole).trans (if_neg hother)) rfl

end Sys2Proof.Machine
end

section
/-! The encoder and the decoder as each other's inverses (30_encoding.md R90 to R98). -/

namespace Sys2Proof

/-! ### Words as numbers (30_encoding.md R90 to R94) -/

/-- A field of a command word is a slice of the word's number. -/
theorem symOf_eq_mod (c : Word) : symOf c = c.toNat / 256 % 512 := by
  rw [symOf, BitVec.extractLsb'_toNat, Nat.shiftRight_eq_div_pow]

theorem wselOf_eq_mod (c : Word) : wselOf c = c.toNat / 2 ^ 17 % 8 := by
  rw [wselOf, BitVec.extractLsb'_toNat, Nat.shiftRight_eq_div_pow]

theorem idxOf_eq_mod (c : Word) : idxOf c = c.toNat / 256 % 1024 := by
  rw [idxOf, BitVec.extractLsb'_toNat, Nat.shiftRight_eq_div_pow]

theorem symOf_lt (c : Word) : symOf c < 512 := (c.extractLsb' 8 9).isLt

theorem wselOf_lt (c : Word) : wselOf c < 8 := (c.extractLsb' 17 3).isLt

theorem idxOf_lt (c : Word) : idxOf c < 1024 := (c.extractLsb' 8 10).isLt

/-- A word is its operand field above its opcode byte. -/
theorem eq_operandWord {c : Word} {op : Nat} (hop : opcodeOf c = op) :
    c = BitVec.ofNat 32 (c.toNat / 256 * 256 + op) := by
  have hlt := c.isLt
  rw [opcodeOf, BitVec.extractLsb'_toNat, Nat.shiftRight_zero] at hop
  apply BitVec.eq_of_toNat_eq
  rw [BitVec.toNat_ofNat]
  omega

theorem reservedFrom_ok_iff {lo : Nat} {c : Word} {i j : Instr} :
    reservedFrom lo c i = .ok j ↔ c.toNat < 2 ^ lo ∧ i = j := by
  have hzero : c >>> lo = 0 ↔ c.toNat < 2 ^ lo := by
    rw [← BitVec.toNat_inj, BitVec.toNat_ushiftRight, Nat.shiftRight_eq_div_pow]
    exact Nat.div_eq_zero_iff_lt (Nat.two_pow_pos lo)
  unfold reservedFrom
  split
  next h => simp [hzero.mp h]
  next h => simp [mt hzero.mpr h]

section
variable {v sym wsel op : Nat}

/-- The word of format S, or of format I, as a number. -/
theorem wordS_eq_ofNat (hv : v < 2 ^ 24) (hop : op < 256) :
    wordS (BitVec.ofNat 32 op) v = BitVec.ofNat 32 (v * 256 + op) := by
  have hhi : (BitVec.ofNat 32 v <<< 8).toNat = v * 256 := by
    rw [BitVec.toNat_shiftLeft, BitVec.toNat_ofNat, Nat.shiftLeft_eq]
    omega
  have hlo : (BitVec.ofNat 32 op).toNat = op := (BitVec.toNat_ofNat ..).trans (Nat.mod_eq_of_lt (by omega))
  apply BitVec.eq_of_toNat_eq
  rw [wordS, Machine.toNat_or_of_dvd 8 (by omega) (by omega), hhi, hlo, toNat_operandWord hv hop]

theorem wordSW_eq_ofNat (hsym : sym < 512) (hwsel : wsel < 8) (hop : op < 256) :
    wordSW (BitVec.ofNat 32 op) sym wsel = BitVec.ofNat 32 (wsel * 2 ^ 17 + sym * 256 + op) := by
  have hhi : (BitVec.ofNat 32 wsel <<< 17).toNat = wsel * 2 ^ 17 := by
    rw [BitVec.toNat_shiftLeft, BitVec.toNat_ofNat, Nat.shiftLeft_eq]
    omega
  have hlow : (wordS (BitVec.ofNat 32 op) sym).toNat = sym * 256 + op := by
    rw [wordS_eq_ofNat (by omega) hop, toNat_operandWord (by omega) hop]
  have hsplit : wordSW (BitVec.ofNat 32 op) sym wsel =
      BitVec.ofNat 32 wsel <<< 17 ||| wordS (BitVec.ofNat 32 op) sym := BitVec.or_assoc ..
  apply BitVec.eq_of_toNat_eq
  rw [hsplit, Machine.toNat_or_of_dvd 17 (by omega) (by omega), hhi, hlow, BitVec.toNat_ofNat]
  omega

end

/-! ### The two round trips (30_encoding.md R96, R98) -/

/-- Settles O1: a command without operands is one word; the words of the others are those `decode_freqWr` and its like
decode. -/
theorem decodeUndoesEncode : Obligations.DecodeUndoesEncode := by
  intro i hwf
  cases i with
  | freqWr sym =>
    have hsym : sym < 512 := of_decide_eq_true hwf
    exact (congrArg decode (wordS_eq_ofNat (op := 0x12) (by omega) (by decide))).trans (decode_freqWr hsym)
  | freqRd sym =>
    have hsym : sym < 512 := of_decide_eq_true hwf
    exact (congrArg decode (wordS_eq_ofNat (op := 0x13) (by omega) (by decide))).trans (decode_freqRd hsym)
  | encSym sym =>
    have hsym : sym < 512 := of_decide_eq_true hwf
    exact (congrArg decode (wordS_eq_ofNat (op := 0x51) (by omega) (by decide))).trans (decode_encSym hsym)
  | nodeRd idx =>
    have hidx : idx < 1024 := of_decide_eq_true hwf
    exact (congrArg decode (wordS_eq_ofNat (op := 0x21) (by omega) (by decide))).trans (decode_nodeRd hidx)
  | codeRd sym wsel =>
    obtain ⟨hsym, hwsel⟩ := Bool.and_eq_true_iff.mp hwf
    have hsym : sym < 512 := of_decide_eq_true hsym
    have hwsel : wsel < 8 := of_decide_eq_true hwsel
    exact (congrArg decode (wordSW_eq_ofNat (op := 0x31) hsym hwsel (by decide))).trans (decode_codeRd hsym hwsel)
  | nop | clrf | sreset | freqClr | freqCount | build | genCodes | wrHdr | rdHdr | encode | decode | decSym | wrTag
  | chkTag | srcRewind | snkClose => rfl

section
variable {c : Word} {op : Nat}

/-- A word with no bit set above its opcode is that opcode. -/
theorem eq_of_reservedFrom_opcode (hop : opcodeOf c = op) (h : c.toNat < 2 ^ 8) : BitVec.ofNat 32 op = c := by
  have hword := eq_operandWord hop
  rw [Nat.div_eq_of_lt (show c.toNat < 256 from h), Nat.zero_mul, Nat.zero_add] at hword
  exact hword.symm

theorem wordS_symOf (hop : opcodeOf c = op) (h : c.toNat < 2 ^ 17) : wordS (BitVec.ofNat 32 op) (symOf c) = c := by
  have hsym : symOf c = c.toNat / 256 := by rw [symOf_eq_mod]; omega
  rw [wordS_eq_ofNat (by omega) (hop ▸ opcodeOf_lt c), hsym]
  exact (eq_operandWord hop).symm

theorem wordI_idxOf (hop : opcodeOf c = op) (h : c.toNat < 2 ^ 18) : wordI (BitVec.ofNat 32 op) (idxOf c) = c := by
  have hidx : idxOf c = c.toNat / 256 := by rw [idxOf_eq_mod]; omega
  refine (wordS_eq_ofNat (by omega) (hop ▸ opcodeOf_lt c)).trans ?_
  rw [hidx]
  exact (eq_operandWord hop).symm

theorem wordSW_symOf_wselOf (hop : opcodeOf c = op) (h : c.toNat < 2 ^ 20) :
    wordSW (BitVec.ofNat 32 op) (symOf c) (wselOf c) = c := by
  have hfields : wselOf c * 2 ^ 17 + symOf c * 256 = c.toNat / 256 * 256 := by
    rw [symOf_eq_mod, wselOf_eq_mod]
    omega
  rw [wordSW_eq_ofNat (symOf_lt c) (wselOf_lt c) (hop ▸ opcodeOf_lt c), hfields]
  exact (eq_operandWord hop).symm

end

theorem symFits_symOf (c : Word) : symFits (symOf c) = true := decide_eq_true (symOf_lt c)

theorem wselFits_wselOf (c : Word) : wselFits (wselOf c) = true := decide_eq_true (wselOf_lt c)

theorem idxFits_idxOf (c : Word) : idxFits (idxOf c) = true := decide_eq_true (idxOf_lt c)

/-- Settles O2: each row of the decoder takes a word apart into its opcode and fields, and the encoder puts the same
ones together. -/
theorem encodeUndoesDecode : Obligations.EncodeUndoesDecode := by
  intro c i h
  unfold decode at h
  split at h
  case h_22 => cases h
  all_goals
    rename_i hop
    obtain ⟨hlt, rfl⟩ := reservedFrom_ok_iff.mp h
  case h_6 => exact ⟨wordS_symOf hop hlt, symFits_symOf c⟩
  case h_7 => exact ⟨wordS_symOf hop hlt, symFits_symOf c⟩
  case h_9 => exact ⟨wordI_idxOf hop hlt, idxFits_idxOf c⟩
  case h_11 =>
    exact ⟨wordSW_symOf_wselOf hop hlt, Bool.and_eq_true_iff.mpr ⟨symFits_symOf c, wselFits_wselOf c⟩⟩
  case h_15 => exact ⟨wordS_symOf hop hlt, symFits_symOf c⟩
  all_goals exact ⟨eq_of_reservedFrom_opcode hop hlt, rfl⟩

/-- Settles O5: the words are closed, and so is what they decode to. -/
theorem exampleWordsDecode : Obligations.ExampleWordsDecode := by
  unfold Obligations.ExampleWordsDecode
  decide

end Sys2Proof
end

section
/-! ENCODE's and DECODE's ends, and the one as the other's inverse (45_stream_encode.md R220, R222; 46_stream_decode.md
R240). -/

namespace Sys2Proof.Machine

/-! ### Every end of ENCODE (45_stream_encode.md R220) -/

section
variable {s t : State}

theorem encodeEnd_of_valid (heof : (s.codeAt 256).valid = true) : encodeEnd s = finish (s.writeCode 256) :=
  if_neg (by simp [heof])

theorem encodeEnd_of_missing (heof : (s.codeAt 256).valid = false) : encodeEnd s = raise .missingCode 256 s :=
  if_pos (by simp [heof])

theorem mem_bytesAhead {j k : Nat} (h : j < k) : s.byteAt j ∈ s.bytesAhead k :=
  List.mem_map_of_mem (List.mem_range.mpr h)

theorem lt_of_mem_bytesAhead {b k : Nat} (h : b ∈ s.bytesAhead k) : b < 256 := by
  obtain ⟨j, -, rfl⟩ := List.mem_map.mp h
  exact byteAt_lt s j

@[simp] theorem State.codeAt_skip (k v : Nat) : (s.skip k).codeAt v = s.codeAt v := rfl

/-- Everything ENCODE's loop can do after `k` bytes with `n` bytes to go: it codes them all, or it stops at the first
byte with no code. -/
theorem encodeLoop_of_encoded : ∀ {n k : Nat}, k + n = s.bytesLeft → (∀ b ∈ s.bytesAhead k, (s.codeAt b).valid = true) →
    ((∀ b ∈ s.bytesAhead s.bytesLeft, (s.codeAt b).valid = true) ∧
      encodeLoop n (s.encoded k) = encodeEnd (s.encoded s.bytesLeft)) ∨
    ∃ j, j < s.bytesLeft ∧ (∀ b ∈ s.bytesAhead j, (s.codeAt b).valid = true) ∧
      (s.codeAt (s.byteAt j)).valid = false ∧
      encodeLoop n (s.encoded k) = raise .missingCode (fieldDetail (s.byteAt j)) ((s.encoded j).skip 8)
  | 0, k, hk, hcoded => by
    obtain rfl : k = s.bytesLeft := hk
    exact .inl ⟨hcoded, rfl⟩
  | n + 1, k, hk, hcoded => by
    have hlt : k < s.bytesLeft := by omega
    simp only [encodeLoop, State.encoded_srcRead hlt]
    split
    next hmissing =>
      have hmissing : (s.codeAt (s.byteAt k)).valid = false := by simpa using hmissing
      exact .inr ⟨k, hlt, hcoded, hmissing, rfl⟩
    next hvalid =>
      have hvalid : (s.codeAt (s.byteAt k)).valid = true := by simpa using hvalid
      rw [State.encoded_succ]
      refine encodeLoop_of_encoded (by omega) ?_
      rw [bytesAhead_succ, List.forall_mem_append]
      exact ⟨hcoded, List.forall_mem_singleton.mpr hvalid⟩

theorem exec_encode_noCodes (hcodes : s.codesValid = false) : exec .encode s = raise .noCodes 0 s :=
  if_pos (by simp [hcodes])

variable (hcodes : s.codesValid = true)
include hcodes

theorem exec_encode_sinkClosed (hclosed : s.outClosed = true) : exec .encode s = raise .sinkClosed 0 s := by
  rw [exec, execEncode, if_neg (by simp [hcodes]), if_pos hclosed]

variable (hopen : s.outClosed = false)
include hopen

/-- Everything ENCODE can do with a code table and an open sink. -/
theorem exec_encode_ends :
    ((∀ b ∈ s.bytesAhead s.bytesLeft, (s.codeAt b).valid = true) ∧
      exec .encode s = encodeEnd (s.encoded s.bytesLeft)) ∨
    ∃ j, j < s.bytesLeft ∧ (∀ b ∈ s.bytesAhead j, (s.codeAt b).valid = true) ∧
      (s.codeAt (s.byteAt j)).valid = false ∧
      exec .encode s = raise .missingCode (fieldDetail (s.byteAt j)) ((s.encoded j).skip 8) := by
  have hends := encodeLoop_of_encoded (s := s) (Nat.zero_add s.bytesLeft) (by simp [State.bytesAhead])
  rw [exec, execEncode, if_neg (by simp [hcodes]), if_neg (by simp [hopen])]
  rwa [State.encoded_zero] at hends

theorem exec_encode_missingByte {k : Nat} (hk : k < s.bytesLeft)
    (hcoded : ∀ b ∈ s.bytesAhead k, (s.codeAt b).valid = true) (hmissing : (s.codeAt (s.byteAt k)).valid = false) :
    exec .encode s = raise .missingCode (fieldDetail (s.byteAt k)) ((s.encoded k).skip 8) := by
  have hnotCoded : ¬ (s.codeAt (s.byteAt k)).valid = true := by simp [hmissing]
  obtain ⟨hall, -⟩ | ⟨j, -, hcodedJ, hmissingJ, hexec⟩ := exec_encode_ends hcodes hopen
  · exact absurd (hall _ (mem_bytesAhead hk)) hnotCoded
  · obtain hlt | rfl | hlt := Nat.lt_trichotomy j k
    · exact absurd (hcoded _ (mem_bytesAhead hlt)) (by simp [hmissingJ])
    · exact hexec
    · exact absurd (hcodedJ _ (mem_bytesAhead hlt)) hnotCoded

theorem exec_encode_missingEof (hcoded : ∀ b ∈ s.bytesAhead s.bytesLeft, (s.codeAt b).valid = true)
    (hmissing : (s.codeAt 256).valid = false) :
    exec .encode s = raise .missingCode 256 (s.encoded s.bytesLeft) := by
  obtain ⟨-, hexec⟩ | ⟨j, hj, -, hmissingJ, -⟩ := exec_encode_ends hcodes hopen
  · exact hexec.trans (encodeEnd_of_missing hmissing)
  · exact absurd (hcoded _ (mem_bytesAhead hj)) (by simp [hmissingJ])

/-- An ENCODE that takes no fault has found a code for every byte left and for PSEUDO_EOF. -/
theorem codes_of_exec_encode (hexec : exec .encode s = .next t) (hfault : t.fault = false) :
    (∀ b ∈ s.bytesAhead s.bytesLeft, (s.codeAt b).valid = true) ∧ (s.codeAt 256).valid = true := by
  have hraised {c : FaultCode} {d : Word} {u : State} (h : exec .encode s = raise c d u) : False := by
    rw [h] at hexec
    cases hexec
    cases hfault
  obtain ⟨hcoded, hend⟩ | ⟨j, -, -, -, hend⟩ := exec_encode_ends hcodes hopen
  · refine ⟨hcoded, ?_⟩
    by_contra hmissing
    exact hraised (hend.trans (encodeEnd_of_missing (by simpa using hmissing)))
  · exact (hraised hend).elim

end

/-- Settles O39: the two checks before any read, and the first byte or the end marker that has no code. -/
theorem encodeFaults : Obligations.EncodeFaults := by
  refine fun s => ⟨fun hcodes => ?_, fun hcodes hclosed => ?_, fun k hcodes hopen hk hcoded hmissing => ?_,
    fun hcodes hopen hcoded hmissing => ?_⟩
  · exact takesFault_of_raise (exec_encode_noCodes hcodes) rfl
  · exact takesFault_of_raise (exec_encode_sinkClosed hcodes hclosed) rfl
  · exact takesFault_of_raise (exec_encode_missingByte hcodes hopen hk hcoded hmissing) rfl
  · exact takesFault_of_raise (exec_encode_missingEof hcodes hopen hcoded hmissing) rfl

/-! ### ENCODE as ENC_SYM repeated (45_stream_encode.md R222) -/

theorem execAll_cons_of_finish {i : Instr} {is : List Instr} {s u : State} (h : exec i s = finish u) :
    execAll (i :: is) s = execAll is u.complete := by
  simp only [execAll, h, finish]

theorem execAll_encSym : ∀ {syms : List Nat} {s : State}, s.codesValid = true → s.outClosed = false →
    (∀ v ∈ syms, v < 257 ∧ (s.codeAt v).valid = true) → ∃ u, execAll (syms.map .encSym) s = .next u ∧
      u.outBits = s.outBits ++ syms.flatMap fun v => (s.codeAt v).str
  | [], s, _, _, _ => ⟨s, rfl, (List.append_nil _).symm⟩
  | v :: syms, s, hcodes, hopen, hvalid => by
    obtain ⟨⟨hv, hcode⟩, hrest⟩ := List.forall_mem_cons.mp hvalid
    rw [codeAt_eq_getElem s hv] at hcode
    have hexec := exec_encSym hv hcodes hopen hcode
    obtain ⟨u, hu, hout⟩ := execAll_encSym (syms := syms)
      (s := State.complete { s with outBits := s.outBits ++ s.code[v].str }) hcodes hopen hrest
    refine ⟨u, (execAll_cons_of_finish hexec).trans hu, hout.trans ?_⟩
    rw [List.flatMap_cons, ← List.append_assoc, codeAt_eq_getElem s hv]
    rfl

/-- Settles O38: ENCODE finds every code, and ENC_SYM of each symbol in turn appends the same ones. -/
theorem encodeWritesThePayload : Obligations.EncodeWritesThePayload := by
  intro s hcodes hopen hvalid heof
  refine ⟨completes_of_finish (exec_encode hvalid heof hcodes hopen), ?_⟩
  obtain ⟨u, hexec, hout⟩ := execAll_encSym (syms := s.bytesAhead s.bytesLeft ++ [256]) hcodes hopen
    (List.forall_mem_append.mpr ⟨fun b hb => ⟨(lt_of_mem_bytesAhead hb).trans (by decide), hvalid b hb⟩,
      List.forall_mem_singleton.mpr ⟨by decide, heof⟩⟩)
  rw [List.map_append] at hexec
  rw [List.flatMap_append, List.flatMap_singleton, ← List.append_assoc] at hout
  exact ⟨u, hexec, hout⟩

/-! ### Every end of DECODE (46_stream_decode.md R240) -/

/-- Settles O42: a PSEUDO_EOF leaf root is read as nothing, any other message leaf by leaf. -/
theorem decodeWritesTheMessage : Obligations.DecodeWritesTheMessage := by
  refine fun s tree htree hopen hholds => ⟨?_, ?_⟩
  · rintro rfl
    exact completes_of_finish (exec_decode_eof_root htree hopen hholds)
  · intro l r msg eof rest _ hmsg heof hsrc
    exact completes_of_finish (exec_decode_message heof htree hopen hholds hmsg hsrc)

section
variable {s : State}

theorem exec_decode_noTree (htree : s.treeValid = false) : exec .decode s = raise .noTree 0 s :=
  if_pos (by simp [htree])

theorem exec_decode_sinkClosed (htree : s.treeValid = true) (hclosed : s.outClosed = true) :
    exec .decode s = raise .sinkClosed 0 s := by
  rw [exec, execDecode, if_neg (by simp [htree]), if_pos hclosed]

theorem exec_decode_degenerate {sym : Nat} (htree : s.treeValid = true) (hopen : s.outClosed = false)
    (hholds : Holds s.node (.leaf sym) s.root) (hsym : sym ≠ 256) :
    exec .decode s = raise .degenerateTree (BitVec.ofNat 32 sym) s := by
  obtain ⟨top, htop, hleaf, rfl⟩ := hholds
  have htop' : s.nodeAt s.root = some top := htop
  rw [exec, execDecode, if_neg (by simp [htree]), if_neg (by simp [hopen]), htop']
  exact (if_pos hleaf).trans ((if_neg hsym).trans
    (congrArg (fun d => raise .degenerateTree d s) (BitVec.ofNat_toNat ..).symm))

end

/-- DECODE of the paths of byte leaves writes those bytes, and where the source then ends, at the root or inside a path,
takes TRUNC_PAYLOAD with every bit read. -/
theorem exec_decode_message_truncated {l r : Shape} {y : Nat} {p q : List Bool} (hmem : (y, p) ∈ (Shape.node l r).leaves)
    (hprefix : q <+: p) (hne : q ≠ p) : ∀ {msg : List (Nat × List Bool)} {s : State}, s.treeValid = true →
      s.outClosed = false → Holds s.node (.node l r) s.root →
      (∀ e ∈ msg, e ∈ (Shape.node l r).leaves ∧ e.1 < 256) → s.bitsAhead = msg.flatMap Prod.snd ++ q →
      exec .decode s =
        raise .truncPayload (s.decoded s.bitsAhead msg).posDetail (s.decoded s.bitsAhead msg) := by
  intro msg
  induction msg with
  | nil =>
    intro s htree hopen hholds _ hsrc
    obtain rfl : s.bitsAhead = q := hsrc
    have hdecoded : s.decoded s.bitsAhead [] = s.skip s.bitsAhead.length :=
      congrArg (fun out => { s.skip s.bitsAhead.length with outBits := out }) (List.append_nil _)
    rw [hdecoded]
    exact exec_decode_truncated htree hopen hholds hmem hprefix hne
  | cons e msg ih =>
    intro s htree hopen hholds hmsg hsrc
    obtain ⟨⟨he, hlt⟩, hmsg⟩ := List.forall_mem_cons.mp hmsg
    rw [List.flatMap_cons, List.append_assoc] at hsrc
    have hrest : ((s.skip e.2.length).snkWrite 8 e.1).bitsAhead = msg.flatMap Prod.snd ++ q := bitsAhead_skip hsrc
    have hdecoded : ((s.skip e.2.length).snkWrite 8 e.1).decoded (msg.flatMap Prod.snd ++ q) msg =
        s.decoded s.bitsAhead (e :: msg) := by
      rw [hsrc]
      simp only [State.decoded, State.skip, State.snkWrite, List.flatMap_cons, List.append_assoc, List.length_append,
        Nat.add_assoc]
    rw [exec_decode_symbol htree hopen hholds he hlt.le hsrc, if_neg hlt.ne,
      ih (s := (s.skip e.2.length).snkWrite 8 e.1) htree hopen hholds hmsg hrest, hrest, hdecoded]

/-- Settles O43: the three checks before any read, and the source that ends before the end marker. -/
theorem decodeFaults : Obligations.DecodeFaults := by
  refine fun s => ⟨fun htree => ?_, fun htree hclosed => ?_, fun sym htree hopen hholds hsym => ?_,
    fun l r msg y p q htree hopen hholds hmsg hmem hprefix hne hsrc => ?_⟩
  · exact takesFault_of_raise (exec_decode_noTree htree) rfl
  · exact takesFault_of_raise (exec_decode_sinkClosed htree hclosed) rfl
  · exact takesFault_of_raise (exec_decode_degenerate htree hopen hholds hsym) rfl
  · exact takesFault_of_raise (exec_decode_message_truncated hmem hprefix hne htree hopen hholds hmsg hsrc) rfl

/-! ### DECODE after ENCODE (45_stream_encode.md R222; 46_stream_decode.md R240) -/

/-- The whole bytes left in the source as a message: each with its code. -/
def State.messageAhead (s : State) : List (Nat × List Bool) :=
  (s.bytesAhead s.bytesLeft).map fun b => (b, (s.codeAt b).str)

/-- Settles O46: an ENCODE that takes no fault wrote the paths of the bytes' leaves and then PSEUDO_EOF's, and those are
the message that DECODE reads. -/
theorem decodeInvertsEncode : Obligations.DecodeInvertsEncode := by
  intro s t u tree payload rest ha _ hd hcodes hopen _ hcode hexec hfault hout htree hopen' hholds hsrc
  obtain ⟨hcoded, heof⟩ := codes_of_exec_encode hcodes hopen hexec hfault
  have hleaf {y : Nat} (hy : (s.codeAt y).valid = true) : (y, (s.codeAt y).str) ∈ tree.leaves := by
    rw [codeAt_codeTable ha hcode] at hy ⊢
    exact Shape.mem_leaves_of_valid hd hy
  have hpayload : payload = s.messageAhead.flatMap Prod.snd ++ (s.codeAt 256).str := by
    rw [exec_encode hcoded heof hcodes hopen] at hexec
    cases hexec
    have hwritten : s.outBits ++ _ ++ (s.codeAt 256).str = s.outBits ++ payload := hout
    rw [List.append_assoc] at hwritten
    rw [State.messageAhead, List.flatMap_map]
    exact (List.append_cancel_left hwritten).symm
  have hmsg : ∀ e ∈ s.messageAhead, e ∈ tree.leaves ∧ e.1 < 256 := by
    intro e he
    obtain ⟨b, hb, rfl⟩ := List.mem_map.mp he
    exact ⟨hleaf (hcoded b hb), lt_of_mem_bytesAhead hb⟩
  have hbytes : s.messageAhead.flatMap (fun e => bitsOf 8 e.1) =
      (s.bytesAhead s.bytesLeft).flatMap fun b => bitsOf 8 b := List.flatMap_map ..
  subst hpayload
  have hdecode := completes_of_finish (exec_decode_message (hleaf heof) htree hopen' hholds hmsg hsrc)
  rwa [State.decoded, hbytes] at hdecode

/-! ### ENCODE after a count of the same bytes (45_stream_encode.md R220, R222) -/

/-- The symbols with a code are the leaves' symbols, so those BUILD counted. -/
theorem Shape.codeEntry_valid_iff {t : Shape} {s : State} (h : (t.leaves.map Prod.fst).Perm s.countedSymbols) {y : Nat} :
    (t.codeEntry y).valid = true ↔ y ∈ s.countedSymbols := by
  constructor
  · intro hvalid
    obtain ⟨p, hp, -⟩ := Shape.exists_leaf_of_valid hvalid
    exact h.subset (List.mem_map_of_mem hp)
  · intro hy
    obtain ⟨e, he, rfl⟩ := List.mem_map.mp (h.symm.subset hy)
    rw [Shape.codeEntry_of_distinct (Shape.distinct_of_perm h) he]
    rfl

/-- After BUILD and GENCODES a symbol has a code when its frequency is not 0. -/
theorem exec_build_genCodes {s : State} (heof : s.freqAt 256 = 1) : ∃ built coded, exec .build s = .next built ∧
    exec .genCodes built = .next coded ∧ ∀ v, (coded.codeAt v).valid = true ↔ v ≤ 256 ∧ s.freqAt v ≠ 0 := by
  obtain ⟨f, root, hbuild⟩ := exec_build heof
  obtain ⟨tree, hholds, hsymbols, hentries⟩ := exec_build_tree hbuild
  have ha := Shape.inAlphabet_of_perm hsymbols
  obtain ⟨-, hcap⟩ := TreeOk.ncount_eq_size ⟨tree, hholds, ha, hentries⟩ hholds
  have hd : tree.depth ≤ 256 := by
    have := tree.depth_le_size
    omega
  have hgen := exec_genCodes rfl hholds ha hd
  refine ⟨_, _, hbuild, hgen, fun v => ?_⟩
  rw [codeAt_exec_genCodes rfl hholds ha hd hgen, Shape.codeEntry_valid_iff hsymbols, mem_countedSymbols]

theorem bytesAhead_congr {s u : State} (hbits : u.inBits = s.inBits) (hpos : u.inPos = s.inPos) :
    u.bytesAhead u.bytesLeft = s.bytesAhead s.bytesLeft := by
  have hbyte : u.byteAt = s.byteAt := by
    funext k
    rw [State.byteAt, State.byteAt, hbits, hpos]
  simp only [State.bytesAhead, State.bytesLeft, State.bitsLeft, hbyte, hbits, hpos]

/-- Settles O41: BUILD gives a leaf to every counted symbol, and each byte left was counted. -/
theorem noMissingCodeAfterCounting : Obligations.NoMissingCodeAfterCounting := by
  intro s counted u hs hcount hfault
  obtain ⟨hcounts, -⟩ := freqCountCountsTheBytes
  obtain ⟨-, heof, hfreq⟩ := hcounts s counted hs hcount hfault
  obtain ⟨built, coded, hbuild, hgen, hvalid⟩ := exec_build_genCodes heof
  refine ⟨built, coded, hbuild, hgen, fun v hv => (hvalid v).trans (and_iff_right hv),
    fun hu hcodes hopen hcode hbits hpos => ?_⟩
  have hcodeAt (v : Nat) : u.codeAt v = coded.codeAt v := by rw [State.codeAt, State.codeAt, hcode]
  refine ⟨_, exec_encode (fun b hb => ?_) ?_ hcodes hopen, hu⟩
  · rw [bytesAhead_congr hbits hpos] at hb
    have hlt := lt_of_mem_bytesAhead hb
    have hcounted : (counted.freqAt b).toNat = (s.bytesAhead s.bytesLeft).count b := hfreq b hlt
    rw [hcodeAt, hvalid]
    refine ⟨hlt.le, fun hzero => ?_⟩
    rw [hzero] at hcounted
    exact (List.count_pos_iff.mpr hb).ne hcounted
  · rw [hcodeAt, hvalid, heof]
    decide

end Sys2Proof.Machine
end

section
/-! The header of a tree: its length, and RDHDR on every source (30_encoding.md R103; 44_tree_codec.md R201, R203). -/

namespace Sys2Proof.Machine

/-! ### The length of a header (44_tree_codec.md R201) -/

/-- A tree has one leaf more than it has internal nodes. -/
theorem Shape.size_add_one (t : Shape) : t.size + 1 = 2 * t.leaves.length := by
  induction t with
  | leaf y => rfl
  | node l r ihl ihr =>
    simp only [Shape.size, Shape.leaves, List.length_append, List.length_map]
    omega

/-- Ten bits a leaf, and one an internal node. -/
theorem Shape.length_header (t : Shape) : t.header.length + 1 = 11 * t.leaves.length := by
  induction t with
  | leaf y => simp [Shape.header, Shape.leaves]
  | node l r ihl ihr =>
    simp only [Shape.header, Shape.leaves, List.length_cons, List.length_append, List.length_map]
    omega

/-- The leaves among the entries of a tree are its leaves. -/
theorem Holds.length_filter_leaf {node : Vector Node 513} : ∀ {t : Shape} {i : BitVec 10}, Holds node t i →
    ((t.entries node i).filter fun j => node[j]?.map Node.leaf == some true).length = t.leaves.length
  | .leaf y, i, ⟨n, hn, hleaf, _⟩ => by
    rw [Shape.entries, List.filter_cons_of_pos (by rw [hn, Option.map_some, hleaf]; rfl)]
    rfl
  | .node l r, i, ⟨n, hn, hinternal, hl, hr⟩ => by
    rw [Shape.entries_node hn, List.filter_cons_of_neg (by rw [hn, Option.map_some, hinternal]; decide),
      List.filter_append, List.length_append, hl.length_filter_leaf, hr.length_filter_leaf]
    simp only [Shape.leaves, List.length_append, List.length_map]

/-- Settles O33: the entries of the store are those of its tree, and what WRHDR appends is that tree's header. -/
theorem headerLength : Obligations.HeaderLength := by
  intro s t htree hopen hok hexec
  have ⟨tree, hholds, _, hentries⟩ := hok
  obtain ⟨hncount, hcap⟩ := hok.ncount_eq_size hholds
  have hdepth := tree.depth_le_size
  have hsize := tree.size_add_one
  have hheader := tree.length_header
  rw [exec_wrHdr htree hopen hholds (by omega)] at hexec
  cases hexec
  have hout : (s.outBits ++ tree.header).length = s.outBits.length + tree.header.length := List.length_append
  refine ⟨tree.leaves.length, ?_, by omega, hout.trans (by omega), hout.trans (by omega)⟩
  rw [← hholds.length_filter_leaf, (hentries.filter _).length_eq]

/-! ### RDHDR on a whole header (44_tree_codec.md R203) -/

/-- Settles O34: `exec_rdHdr_header` for the tree, and `Shape.node_store` for what Get writes in each node. -/
theorem rdHdrReadsTheTree : Obligations.RdHdrReadsTheTree := by
  intro s tree rest ha hcap hsrc
  obtain ⟨hholds, hentries⟩ := withHeaderTree_holds (s := s) ha hcap
  refine ⟨_, exec_rdHdr_header ha hcap hsrc, by rw [known_complete]; rfl, withHeaderTree_ncount (s := s) hcap,
    hholds, hentries, fun i hi => ?_⟩
  have hkept : (s.withHeaderTree tree).undefineNodes.complete.node[i]? = (tree.store 0 s.node)[i]? :=
    getElem?_undefineNodes (s := s.withHeaderTree tree) ((withHeaderTree_ncount hcap).symm ▸ hi) (hi.trans_le hcap)
  rw [hkept]
  obtain ⟨y, hnode⟩ | ⟨l, r, hil, hir, hl, hr, hnode⟩ :=
    Shape.node_store (t := tree) (n := 0) (i := i) (nodes := s.node) (by omega) i.zero_le (by omega)
  · exact ⟨_, hnode, rfl, fun _ => ⟨rfl, rfl⟩, fun h => by cases h⟩
  · have hleft : (readInternal l r).left.toNat = l := toNat_ofNat_of_le_cap hl.le
    have hright : (readInternal l r).right.toNat = r := toNat_ofNat_of_le_cap hr.le
    exact ⟨_, hnode, rfl, fun h => (by cases h), fun _ => ⟨rfl, hil.trans_eq hleft.symm, hir.trans_eq hright.symm⟩⟩

/-! ### Every end of RDHDR (44_tree_codec.md R203) -/

theorem ReadFrame.exists_eq {s u : State} (h : ReadFrame s u) :
    ∃ node pos, s.inPos ≤ pos ∧ u = { s with node := node, inPos := pos } :=
  ⟨_, _, h.2, h.1⟩

/-- The state RDHDR leaves when it takes a fault at the source position `pos`: no tree and no codes. -/
def State.withoutTree (s : State) (node : Vector Node 513) (pos : Nat) : State :=
  State.undefineNodes { s.dropTree with node := node, inPos := pos }

/-- What RDHDR records when its source does not go on with a whole header. -/
def HeaderFault (code : FaultCode) (detail : Word) (u : State) : Prop :=
  (code = .truncHdr ∧ detail = u.posDetail ∧ u.bitsLeft < 9) ∨
  (code = .hdrOverflow ∧ detail = fieldDetail 513) ∨
  (code = .badSymbol ∧ ∃ v, detail = fieldDetail v ∧ 256 < v ∧ v < 512)

/-- Everything RDHDR can do: it reads the tree whose header the source goes on with, or takes a fault and leaves none. -/
theorem exec_rdHdr_ends (s : State) :
    (∃ (tree : Shape) (rest : List Bool), s.bitsAhead = tree.header ++ rest ∧ tree.inAlphabet ∧ tree.size ≤ 513 ∧
      exec .rdHdr s = finish (s.withHeaderTree tree).undefineNodes) ∨
    ∃ code detail node pos, s.inPos ≤ pos ∧ HeaderFault code detail (s.withoutTree node pos) ∧
      exec .rdHdr s = raise code detail (s.withoutTree node pos) := by
  have hends := getHeader_ends (Config.NODE_CAP + 1) 0 s.dropTree (Nat.zero_le _)
  rcases hget : getHeader (Config.NODE_CAP + 1) 0 s.dropTree with ⟨i, n, u⟩ | ⟨code, detail, u⟩ <;> rw [hget] at hends
  · obtain ⟨-, -, hcap, -⟩ := hends
    obtain ⟨tree, hsrc, -, ha, rfl⟩ := getHeader_source _ _ _ _ _ _ hget
    rw [Nat.zero_add] at hcap
    exact .inl ⟨tree, _, hsrc, ha, hcap, exec_rdHdr_header ha hcap hsrc⟩
  · obtain ⟨hread, hfault⟩ := hends
    obtain ⟨node, pos, hpos, rfl⟩ := hread.exists_eq
    exact .inr ⟨code, detail, node, pos, hpos, hfault, by rw [exec, execRdHdr, hget]; rfl⟩

theorem fieldDetail_toNat {v : Nat} (hv : v < 512) : (fieldDetail v).toNat = v :=
  (BitVec.toNat_ofNat ..).trans (Nat.mod_eq_of_lt (by omega))

/-- Settles O36: each of RDHDR's ends leaves what it should. -/
theorem rdHdrEndsWithATreeOrNone : Obligations.RdHdrEndsWithATreeOrNone := by
  intro s
  obtain ⟨tree, rest, hsrc, ha, hcap, hexec⟩ | ⟨code, detail, node, pos, hpos, hfault, hexec⟩ := exec_rdHdr_ends s
  · obtain ⟨u, hexec', -, -, hok, hholds⟩ := exec_rdHdr_tree ha hcap hsrc
    rw [hexec] at hexec'
    cases hexec'
    exact ⟨_, hexec, Nat.le_add_right _ _, .inl ⟨by rw [known_complete]; rfl, hok, tree, rest, hsrc, ha, hcap, hholds,
      withHeaderTree_ncount (s := s) hcap, rfl⟩⟩
  · refine ⟨_, hexec, hpos, .inr ⟨by rw [known_complete]; rfl, ?_⟩⟩
    obtain ⟨rfl, rfl, hleft⟩ | ⟨rfl, rfl⟩ | ⟨rfl, v, rfl, hlow, hhigh⟩ := hfault
    · exact .inl ⟨rfl, rfl, hleft⟩
    · exact .inr (.inl ⟨rfl, rfl⟩)
    · have hdetail := fieldDetail_toNat hhigh
      exact .inr (.inr ⟨rfl, hlow.trans_eq hdetail.symm, (hdetail.trans_lt hhigh).le_pred⟩)

/-! ### Where RDHDR takes its faults (44_tree_codec.md R203; 60_exceptions.md R282) -/

theorem Shape.inAlphabet_node {l r : Shape} (hl : l.inAlphabet) (hr : r.inAlphabet) : (Shape.node l r).inAlphabet := by
  intro e he
  obtain ⟨a, ha, rfl⟩ | ⟨a, ha, rfl⟩ := Shape.mem_leaves_node.mp he
  exacts [hl a ha, hr a ha]

theorem symbolsLegal_append {p q : List (List Bool)} : symbolsLegal (p ++ q) ↔ symbolsLegal p ∧ symbolsLegal q :=
  List.forall_mem_append

theorem symbolsLegal_cons {f : List Bool} {p : List (List Bool)} (h : symbolsLegal (f :: p)) : symbolsLegal p :=
  fun g hg => h g (List.mem_cons_of_mem _ hg)

theorem nodesBegun_bit (b : Bool) (p : List (List Bool)) : nodesBegun ([b] :: p) = nodesBegun p + 1 := by
  rw [nodesBegun, List.filter_cons_of_pos (by rfl), List.length_cons, nodesBegun]

theorem nodesBegun_append (p q : List (List Bool)) : nodesBegun (p ++ q) = nodesBegun p + nodesBegun q := by
  rw [nodesBegun, List.filter_append, List.length_append, nodesBegun, nodesBegun]

/-- Fields whose symbols are all legal are those of a tree with symbols in the alphabet: a field only keeps nine bits of
a symbol. -/
theorem Shape.exists_legal {t : Shape} (h : symbolsLegal t.fields) :
    ∃ t' : Shape, t'.inAlphabet ∧ t'.header = t.header ∧ t'.size = t.size := by
  induction t with
  | leaf y =>
    have hsym : numeral (bitsOf 9 y) ≤ 256 := h (bitsOf 9 y) (by simp [Shape.fields]) (length_bitsOf 9 y)
    rw [numeral_bitsOf] at hsym
    refine ⟨.leaf (y % 2 ^ 9), List.forall_mem_singleton.mpr hsym, ?_, rfl⟩
    exact congrArg (true :: ·) (bitsOf_eq_of_low 9 _ _ (Nat.mod_mod ..))
  | node l r ihl ihr =>
    obtain ⟨hl, hr⟩ := symbolsLegal_append.mp (symbolsLegal_cons h)
    obtain ⟨l', hal, hheaderL, hsizeL⟩ := ihl hl
    obtain ⟨r', har, hheaderR, hsizeR⟩ := ihr hr
    exact ⟨.node l' r', Shape.inAlphabet_node hal har, by rw [Shape.header, Shape.header, hheaderL, hheaderR],
      by rw [Shape.size, Shape.size, hsizeL, hsizeR]⟩

/-- What goes wrong at the field `f` of a header, at the source position `pos` and with `n` nodes begun, when the source
goes on with the given bits: the fault, its detail, and how many bits of the field are consumed. -/
inductive FieldFault (n pos : Nat) (f : List Bool) : List Bool → FaultCode → Word → Nat → Prop where
  | truncated {q : List Bool} (hcap : n ≤ 513) (hprefix : q <+: f) (hne : q ≠ f) :
    FieldFault n pos f q .truncHdr (BitVec.ofNat 32 pos) 0
  | overflow (rest : List Bool) (hfull : n = 513) (hbit : f.length = 1) :
    FieldFault n pos f (f ++ rest) .hdrOverflow 513 1
  | badSymbol (rest : List Bool) (hcap : n ≤ 513) (hsym : f.length = 9) (hbig : 256 < numeral f) :
    FieldFault n pos f (f ++ rest) .badSymbol (BitVec.ofNat 32 (numeral f)) 9

theorem FieldFault.begun_le {n pos k : Nat} {f ahead : List Bool} {c : FaultCode} {w : Word}
    (h : FieldFault n pos f ahead c w k) : n ≤ 513 := by
  cases h with
  | truncated hcap | badSymbol _ hcap => exact hcap
  | overflow _ hfull => exact hfull.le

section
variable {n d k : Nat} {s : State} {ahead : List Bool} {c : FaultCode} {w : Word}

/-- Get at the structural bit of a node. -/
theorem getHeader_bit_fault {b : Bool} (h : FieldFault n s.inPos [b] ahead c w k) (hsrc : s.bitsAhead = ahead) :
    getHeader (d + 1) n s = .bad c w (s.skip k) := by
  cases h with
  | truncated _ hprefix hne =>
    obtain rfl : ahead = [] := by
      cases ahead with
      | nil => rfl
      | cons a q =>
        obtain ⟨rfl, hq⟩ := List.cons_prefix_cons.mp hprefix
        exact absurd (congrArg (a :: ·) (List.prefix_nil.mp hq)) hne
    rw [getHeader, srcRead_one_none hsrc]
    rfl
  | overflow rest hfull =>
    rw [getHeader, srcRead_one hsrc]
    exact if_pos hfull
  | badSymbol _ _ hsym => cases hsym

/-- Get at the symbol of a leaf, whose structural bit it reads first. -/
theorem getHeader_symbol_fault {y : Nat} (h : FieldFault (n + 1) (s.inPos + 1) (bitsOf 9 y) ahead c w k)
    (hsrc : s.bitsAhead = true :: ahead) : getHeader (d + 1) n s = .bad c w (s.skip (1 + k)) := by
  have hroom : n ≠ 513 := by
    have := h.begun_le
    omega
  have hahead : (s.skip 1).bitsAhead = ahead := bitsAhead_skip (p := [true]) hsrc
  rw [← State.skip_skip]
  simp only [getHeader, srcRead_one hsrc, hroom, Bool.toNat_true, one_ne_zero, if_false]
  cases h with
  | truncated _ hprefix hne =>
    have hshort : (s.skip 1).bitsLeft < 9 := by
      rw [bitsLeft_eq_length_bitsAhead, hahead, ← length_bitsOf 9 y]
      exact lt_of_le_of_ne hprefix.length_le (mt hprefix.eq_of_length hne)
    rw [srcRead_none.mpr hshort]
    rfl
  | overflow _ _ hbit => rw [length_bitsOf] at hbit; cases hbit
  | badSymbol rest _ _ hbig =>
    have hread := srcRead_append (s := s.skip 1) hahead
    rw [length_bitsOf] at hread
    rw [hread]
    exact if_pos (by simpa [symInAlphabet] using hbig)

end

/-- A list inside two others joined ends in the first, or in the second past all of the first. -/
theorem append_cons_eq_append {α : Type} {a b pre post : List α} {f : α} (h : a ++ b = pre ++ f :: post) :
    (∃ post', a = pre ++ f :: post') ∨ ∃ pre', pre = a ++ pre' ∧ b = pre' ++ f :: post := by
  obtain ⟨c, hpre, hb⟩ | ⟨c, ha, hc⟩ := List.append_eq_append_iff.mp h
  · exact .inr ⟨c, hpre, hb⟩
  · cases c with
    | nil => exact .inr ⟨[], by simpa using ha.symm, by simpa using hc.symm⟩
    | cons g c =>
      obtain ⟨rfl, -⟩ := List.cons.inj hc
      exact .inl ⟨c, ha⟩

/-- The state with `k` more bits of the source read and the nodes made so far in the store. -/
def State.readTo (s : State) (node : Vector Node 513) (k : Nat) : State := { s with
  node := node, inPos := s.inPos + k }

/-- Get reads the fields `pre` of a header whole and takes the fault of the next; the nodes made so far stand. -/
theorem getHeader_fault : ∀ {t : Shape} {d n k : Nat} {s : State} {pre post : List (List Bool)} {f ahead : List Bool}
    {c : FaultCode} {w : Word}, t.fields = pre ++ f :: post → symbolsLegal pre → 514 ≤ d + n →
    FieldFault (n + nodesBegun pre) (s.inPos + pre.flatten.length) f ahead c w k →
    s.bitsAhead = pre.flatten ++ ahead →
    ∃ node, getHeader d n s = .bad c w (s.readTo node (pre.flatten.length + k)) := by
  intro t
  induction t with
  | leaf y =>
    intro d n k s pre post f ahead c w hfields _ hd hfault hsrc
    have hbegun := hfault.begun_le
    obtain ⟨d, rfl⟩ : ∃ d', d = d' + 1 := ⟨d - 1, by omega⟩
    match pre, hfields with
    | [], hfields =>
      obtain ⟨rfl, -⟩ := List.cons.inj hfields
      rw [List.flatten_nil, List.length_nil, Nat.zero_add]
      exact ⟨s.node, getHeader_bit_fault hfault hsrc⟩
    | [g], hfields =>
      obtain ⟨rfl, hrest⟩ := List.cons.inj hfields
      obtain ⟨rfl, -⟩ := List.cons.inj hrest
      exact ⟨s.node, getHeader_symbol_fault hfault hsrc⟩
    | _ :: _ :: pre, hfields =>
      have hlength := congrArg List.length hfields
      simp only [Shape.fields, List.length_cons, List.length_nil, List.length_append] at hlength
      omega
  | node l r ihl ihr =>
    intro d n k s pre post f ahead c w hfields hlegal hd hfault hsrc
    have hbegun := hfault.begun_le
    obtain ⟨d, rfl⟩ : ∃ d', d = d' + 1 := ⟨d - 1, by omega⟩
    rw [Shape.fields] at hfields
    cases pre with
    | nil =>
      obtain ⟨rfl, -⟩ := List.cons.inj hfields
      rw [List.flatten_nil, List.length_nil, Nat.zero_add]
      exact ⟨s.node, getHeader_bit_fault hfault hsrc⟩
    | cons g pre =>
      obtain ⟨rfl, hrest⟩ := List.cons.inj hfields
      rw [nodesBegun_bit] at hbegun hfault
      have hroom : n ≠ 513 := by omega
      have hlegal := symbolsLegal_cons hlegal
      have hahead : (s.skip 1).bitsAhead = pre.flatten ++ ahead := bitsAhead_skip (p := [false]) hsrc
      rw [List.flatten_cons, List.length_append, List.length_singleton] at hfault ⊢
      simp only [getHeader, srcRead_one hsrc, hroom, Bool.toNat_false, if_true, if_false]
      obtain ⟨post', hl⟩ | ⟨pre', rfl, hr⟩ := append_cons_eq_append hrest
      · obtain ⟨node, hget⟩ := ihl (d := d) (n := n + 1) (s := s.skip 1) hl hlegal (by omega)
          (by rwa [Nat.add_assoc n, Nat.add_comm 1 (nodesBegun pre), State.skip, Nat.add_assoc s.inPos]) hahead
        refine ⟨node, ?_⟩
        rw [hget]
        simp only [State.readTo, State.skip, Nat.add_assoc]
      · obtain ⟨hlegalL, hlegalR⟩ := symbolsLegal_append.mp hlegal
        obtain ⟨l', ha, hheader, hsize⟩ := Shape.exists_legal hlegalL
        have hsizeL := nodesBegun_fields l
        rw [nodesBegun_append] at hbegun hfault
        rw [List.flatten_append, flatten_fields, ← hheader] at hahead hfault ⊢
        rw [List.append_assoc] at hahead
        have hgetL := getHeader_header (d := d) (n := n + 1) (s := s.skip 1) ha (by omega) (by omega) hahead
        obtain ⟨node, hgetR⟩ := ihr (d := d) (n := n + 1 + l'.size) (s := (s.skip 1).readHeader l' (n + 1)) hr hlegalR
          (by omega) (by
            convert hfault using 1
            · omega
            · simp only [State.readHeader, State.skip, List.length_append]
              omega) (bitsAhead_skip (s := s.skip 1) hahead)
        refine ⟨node, ?_⟩
        simp only [hgetL, hgetR]
        simp only [State.readTo, State.readHeader, State.skip, List.length_append, Nat.add_assoc]

/-- RDHDR takes the fault of the first field that is not whole and legal, and leaves no tree. -/
theorem takesFault_rdHdr {s : State} {tree : Shape} {pre post : List (List Bool)} {f ahead : List Bool}
    {c : FaultCode} {w : Word} {k : Nat} (hfields : tree.fields = pre ++ f :: post) (hlegal : symbolsLegal pre)
    (hfault : FieldFault (nodesBegun pre) (s.inPos + pre.flatten.length) f ahead c w k)
    (hsrc : s.bitsAhead = pre.flatten ++ ahead) : TakesFault .rdHdr s { s with
      treeValid := false, codesValid := false, ncount := 0, root := 0,
      inPos := s.inPos + pre.flatten.length + k } (faultNumber c) w := by
  rw [← Nat.zero_add (nodesBegun pre)] at hfault
  obtain ⟨node, hget⟩ := getHeader_fault (d := Config.NODE_CAP + 1) (s := s.dropTree) hfields hlegal le_rfl hfault hsrc
  have hexec : exec .rdHdr s = raise c w (s.withoutTree node (s.inPos + (pre.flatten.length + k))) := by
    rw [exec, execRdHdr, hget]
    rfl
  rw [Nat.add_assoc]
  exact Completes.congr (takesFault_of_raise hexec rfl) (State.known_congr rfl (by simp) rfl (fun i hi => absurd hi i.not_lt_zero) rfl)

/-- Settles O37: each of the three is a fault of the field `f`, with the fields before it read whole. -/
theorem rdHdrRejectsBadHeaders : Obligations.RdHdrRejectsBadHeaders := by
  refine fun s tree pre post f hfields hlegal => ⟨fun q hcap hprefix hne hsrc => ?_, fun rest hfull hbit hsrc => ?_,
    fun rest hcap hsym hbig hsrc => ?_⟩
  · exact takesFault_rdHdr hfields hlegal (.truncated hcap hprefix hne) hsrc
  · exact takesFault_rdHdr hfields hlegal (.overflow rest hfull hbit) (hsrc.trans (List.append_assoc ..))
  · exact takesFault_rdHdr hfields hlegal (.badSymbol rest hcap hsym hbig) (hsrc.trans (List.append_assoc ..))

end Sys2Proof.Machine
end

section
/-! What every command can do, said once: its effect on the state, and how it then ends (40_control.md R121, R123;
60_exceptions.md R284, R285). -/

namespace Sys2Proof.Machine

/-! ### The source position stays inside the source (20_memory.md R60) -/

/-- IN.pos is inside the source (10_state.md R38). -/
def Inside (s : State) : Prop := s.inPos ≤ s.inBits.length

theorem Inside.srcRead {s u : State} {w v : Nat} (hs : Inside s) (h : s.srcRead w = some (v, u)) : Inside u := by
  obtain ⟨hw, -, rfl⟩ := srcRead_some h
  simp only [Inside, State.bitsLeft] at *
  omega

theorem Inside.decodeLoop {k : Nat} {cur : Node} {s : State} (hs : Inside s) : Post Inside (decodeLoop k cur s) := by
  induction k generalizing cur s with
  | zero => exact .raise hs
  | succ k ih =>
    simp only [Machine.decodeLoop]
    split
    · exact .raise hs
    next h =>
      have h1 := hs.srcRead h
      split
      · exact .ite (ih h1) (.ite (.finish h1) (.ite (ih h1) .stop))
      · exact .stop

theorem Inside.decSymLoop {k m : Nat} {cur : Node} {s : State} (hs : Inside s) :
    Post Inside (decSymLoop k cur m s) := by
  induction k generalizing cur m s with
  | zero =>
    unfold Machine.decSymLoop
    exact .ite (.finish hs) (.raise hs)
  | succ k ih =>
    unfold Machine.decSymLoop
    refine .ite (.finish hs) ?_
    split
    next hk h =>
      obtain rfl := Nat.succ.inj hk
      split
      · exact .stop
      · exact ih (hs.srcRead h)
    next => exact .raise hs

/-- The state Get ends in. -/
def HeaderRead.state : HeaderRead → State
  | .got _ _ s => s
  | .bad _ _ s => s

theorem Inside.getHeader {d n : Nat} {s : State} (hs : Inside s) : Inside (getHeader d n s).state := by
  induction d generalizing n s with
  | zero => exact hs
  | succ d ih =>
    simp only [Machine.getHeader]
    split
    · exact hs
    next h =>
      have h1 := hs.srcRead h
      split
      · exact h1
      · split
        · have hl := ih (n := n + 1) h1
          split <;> rename_i hgetL <;> rw [hgetL] at hl
          · exact hl
          next n2 s2 =>
            have hr : Inside (Machine.getHeader d n2 s2).state := ih hl
            split <;> rename_i hgetR <;> rw [hgetR] at hr
            · exact hr
            · exact hr
        · split
          · exact h1
          next h =>
            have h2 := h1.srcRead h
            split
            · exact h2
            · exact h2

theorem Inside.rdHdr {s : State} (hs : Inside s) : Post Inside (exec .rdHdr s) := by
  have hget := Inside.getHeader (d := Config.NODE_CAP + 1) (n := 0) (s := s.dropTree) hs
  simp only [exec, execRdHdr]
  split <;> rename_i h <;> rw [h] at hget
  · exact .raise hget
  · exact .finish hget

/-! ### The effect of a command -/

/-- A position a command may leave: inside the source, if the position was. -/
def Within (s : State) (pos : Nat) : Prop := s.inPos ≤ s.inBits.length → pos ≤ s.inBits.length

theorem Within.of_finish {s u : State} (hbits : u.inBits = s.inBits) (h : Inside s → Post Inside (finish u)) :
    Within s u.inPos := by
  intro hs
  rw [← hbits]
  exact h hs u.complete rfl

theorem Within.of_raise {s u : State} {c : FaultCode} {d : Word} (hbits : u.inBits = s.inBits)
    (h : Inside s → Post Inside (raise c d u)) : Within s u.inPos := by
  intro hs
  rw [← hbits]
  exact h hs (u.recordFault c d).complete rfl

/-- What a command can have done to the state `s` when it ends, the fault record and the results apart: a fault taken
before any effect does nothing, and each command has the effects of its own rules. -/
inductive Effect (s : State) : Instr → State → Prop where
  | nothing (i : Instr) : Effect s i s
  | clrf : Effect s .clrf s.clearFault
  | sreset : Effect s .sreset s.resetEngine
  | freqClr (freq : Vector Word 257) : Effect s .freqClr { s with freq := freq }
  | freqCount (freq : Vector Word 257) {pos : Nat} (hpos : Within s pos) :
    Effect s .freqCount { s with freq := freq, inPos := pos }
  | freqWr (sym : Nat) (freq : Vector Word 257) : Effect s (.freqWr sym) { s with freq := freq }
  | build {f : Forest} {root : Nat} (hloop : mergeLoop (buildLeaves s).queue.length (buildLeaves s) = some (f, root)) :
    Effect s .build (s.withForest f root).undefineNodes
  | genCodes {tree : Shape} (htree : s.treeValid = true) (hholds : Holds s.node tree s.root) (ha : tree.inAlphabet)
    (hd : tree.depth ≤ 256) : Effect s .genCodes { s with code := tree.codeTable, codesValid := true }
  | wrHdr {out : List Bool} (hopen : s.outClosed = false) (hout : s.outBits <+: out) :
    Effect s .wrHdr { s with outBits := out }
  | rdHdrTree {tree : Shape} {rest : List Bool} (hsrc : s.bitsAhead = tree.header ++ rest) (ha : tree.inAlphabet)
    (hcap : tree.size ≤ 513) (hpos : Within s (s.inPos + tree.header.length)) :
    Effect s .rdHdr (s.withHeaderTree tree).undefineNodes
  | rdHdrNone (node : Vector Node 513) {pos : Nat} (hpos : Within s pos) : Effect s .rdHdr (s.withoutTree node pos)
  | encode {pos : Nat} {out : List Bool} (hopen : s.outClosed = false) (hpos : Within s pos) (hout : s.outBits <+: out) :
    Effect s .encode { s with inPos := pos, outBits := out }
  | encSym (sym : Nat) {out : List Bool} (hopen : s.outClosed = false) (hout : s.outBits <+: out) :
    Effect s (.encSym sym) { s with outBits := out }
  | decode {pos : Nat} {out : List Bool} (hopen : s.outClosed = false) (hpos : Within s pos) (hout : s.outBits <+: out) :
    Effect s .decode { s with inPos := pos, outBits := out }
  | decSym {pos : Nat} (hpos : Within s pos) : Effect s .decSym { s with inPos := pos }
  | wrTag {out : List Bool} (hopen : s.outClosed = false) (hout : s.outBits <+: out) :
    Effect s .wrTag { s with outBits := out }
  | chkTag {pos : Nat} (hpos : Within s pos) : Effect s .chkTag { s with inPos := pos }
  | srcRewind : Effect s .srcRewind s.srcRewind
  | snkClose : Effect s .snkClose s.snkClose

/-- The commands that write the result registers when they succeed (10_state.md R25). -/
def Instr.writesResults : Instr → Bool
  | .freqRd _ | .nodeRd _ | .codeRd _ _ | .decSym => true
  | _ => false

/-- How a command ends that has had its effect and stands at `u`. -/
inductive Ending (i : Instr) (u : State) : State → Prop where
  | finished : Ending i u u.complete
  | results (hi : Instr.writesResults i = true) (r0 r1 r2 : Word) : Ending i u (u.setResults r0 r1 r2).complete
  | faulted (c : FaultCode) (d : Word) : Ending i u (u.recordFault c d).complete

/-- Command i takes the state `s` to the state `t`. -/
def Ran (i : Instr) (s t : State) : Prop := ∃ u, Effect s i u ∧ Ending i u t

section
variable {i : Instr} {s u : State}

theorem Effect.finish (h : Effect s i u) : Post (Ran i s) (finish u) := .finish ⟨u, h, .finished⟩

theorem Effect.results (h : Effect s i u) (hi : Instr.writesResults i = true) {r0 r1 r2 : Word} :
    Post (Ran i s) (Machine.finish (u.setResults r0 r1 r2)) := .finish ⟨u, h, .results hi r0 r1 r2⟩

theorem Effect.raise {c : FaultCode} {d : Word} (h : Effect s i u) : Post (Ran i s) (raise c d u) :=
  .raise ⟨u, h, .faulted c d⟩

end

/-! ### Each command has its effect -/

section
variable (s : State)

theorem ran_freqCount : Post (Ran .freqCount s) (exec .freqCount s) := by
  have hwithin {k : Nat} (hk : k ≤ s.bytesLeft) : Within s (s.inPos + 8 * k) := by
    intro h
    simp only [State.bytesLeft, State.bitsLeft] at hk
    omega
  obtain ⟨w, hw, h⟩ | ⟨j, w, hj, hw, -, h⟩ := exec_freqCount s <;> rw [h, hw.frame]
  · exact (Effect.freqCount _ (hwithin le_rfl)).finish
  · exact (Effect.freqCount _ (hwithin hj)).raise

theorem ran_build : Post (Ran .build s) (exec .build s) := by
  intro t h
  obtain ⟨f, root, hloop, rfl⟩ := exec_build_next h
  exact ⟨_, .build hloop, .finished⟩

theorem ran_nodeRd (idx : Nat) : Post (Ran (.nodeRd idx) s) (exec (.nodeRd idx) s) := by
  have hnothing : Effect s (.nodeRd idx) s := .nothing _
  refine .ite hnothing.raise (.ite hnothing.raise ?_)
  split
  exacts [.stop, hnothing.results rfl]

theorem ran_genCodes : Post (Ran .genCodes s) (exec .genCodes s) := by
  cases htree : s.treeValid with
  | false =>
    rw [exec_genCodes_noTree htree]
    exact (Effect.nothing _).raise
  | true =>
    intro t h
    have hexec := h
    rw [exec, execGenCodes, if_neg (by simp [htree])] at h
    split at h
    · cases h
    next u hwalk =>
      obtain ⟨tree, hholds, ha, hd, -⟩ := walk_some hwalk
      have hd : tree.depth ≤ 256 := Nat.le_of_lt_succ hd
      rw [exec_genCodes htree hholds ha hd] at hexec
      exact (Effect.genCodes htree hholds ha hd).finish t hexec

theorem ran_wrHdr : Post (Ran .wrHdr s) (exec .wrHdr s) := by
  have hnothing : Effect s .wrHdr s := .nothing _
  simp only [exec, execWrHdr]
  split
  · exact hnothing.raise
  split
  · exact hnothing.raise
  next hopen =>
    split
    · exact .stop
    next u hput =>
      obtain ⟨tree, -, -, rfl⟩ := put_some hput
      exact (Effect.wrHdr (by simpa using hopen) (List.prefix_append _ _)).finish

theorem ran_rdHdr : Post (Ran .rdHdr s) (exec .rdHdr s) := by
  intro t h
  have hinside (hs : s.inPos ≤ s.inBits.length) : Inside t := Inside.rdHdr hs t h
  obtain ⟨tree, rest, hsrc, ha, hcap, hexec⟩ | ⟨code, detail, node, pos, -, -, hexec⟩ := exec_rdHdr_ends s <;>
    rw [hexec] at h <;> cases h
  · exact ⟨_, .rdHdrTree hsrc ha hcap hinside, .finished⟩
  · exact ⟨_, .rdHdrNone node hinside, .faulted code detail⟩

theorem ran_encode : Post (Ran .encode s) (exec .encode s) := by
  have hnothing : Effect s .encode s := .nothing _
  cases hcodes : s.codesValid with
  | false =>
    rw [exec_encode_noCodes hcodes]
    exact hnothing.raise
  | true =>
    cases hopen : s.outClosed with
    | true =>
      rw [exec_encode_sinkClosed hcodes hopen]
      exact hnothing.raise
    | false =>
      have hwithin {k : Nat} (hk : k ≤ s.bytesLeft) : Within s (s.inPos + 8 * k) := by
        intro h
        simp only [State.bytesLeft, State.bitsLeft] at hk
        omega
      have hencoded {k : Nat} (hk : k ≤ s.bytesLeft) : Effect s .encode (s.encoded k) :=
        .encode hopen (hwithin hk) (List.prefix_append _ _)
      obtain ⟨-, hend⟩ | ⟨j, hj, -, -, hend⟩ := exec_encode_ends hcodes hopen <;> rw [hend]
      · refine .ite (hencoded le_rfl).raise (Effect.finish (.encode hopen (hwithin le_rfl) ?_))
        exact (List.prefix_append _ _).trans (List.prefix_append _ _)
      · exact (Effect.encode hopen (hwithin hj) (List.prefix_append _ _)).raise

theorem ran_encSym (sym : Nat) : Post (Ran (.encSym sym) s) (exec (.encSym sym) s) := by
  have hnothing : Effect s (.encSym sym) s := .nothing _
  simp only [exec, execEncSym]
  split
  · exact hnothing.raise
  split
  · exact hnothing.raise
  split
  · exact hnothing.raise
  next hopen =>
    exact .ite hnothing.raise (Effect.encSym sym (by simpa using hopen) (List.prefix_append _ _)).finish

theorem ran_decode : Post (Ran .decode s) (exec .decode s) := by
  have hnothing : Effect s .decode s := .nothing _
  simp only [exec, execDecode]
  split
  · exact hnothing.raise
  split
  · exact hnothing.raise
  next hopen =>
    split
    · exact .stop
    next top _ =>
      refine .ite (.ite hnothing.finish hnothing.raise) ?_
      obtain ⟨u, hframe, hout, hend⟩ := decodeLoop_ends s.bitsLeft top s
      have hdecode (hpos : Within s u.inPos) : Effect s .decode u := by
        rw [hframe]
        exact .decode (by simpa using hopen) hpos hout
      have hbits : u.inBits = s.inBits := by rw [hframe]
      have hinside : Inside s → Post Inside (decodeLoop s.bitsLeft top s) := Inside.decodeLoop
      obtain h | h | h := hend <;> rw [h] at hinside ⊢
      · exact (hdecode (.of_finish hbits hinside)).finish
      · exact (hdecode (.of_raise hbits hinside)).raise
      · exact .stop

theorem ran_decSym : Post (Ran .decSym s) (exec .decSym s) := by
  simp only [exec, execDecSym]
  split
  · exact (Effect.nothing _).raise
  split
  · exact .stop
  next top _ =>
    obtain ⟨u, hframe, hend⟩ := decSymLoop_ends s.bitsLeft top 0 s
    have hdecSym (hpos : Within s u.inPos) : Effect s .decSym u := by
      rw [hframe]
      exact .decSym hpos
    have hbits : u.inBits = s.inBits := by rw [hframe]
    have hinside : Inside s → Post Inside (decSymLoop s.bitsLeft top 0 s) := Inside.decSymLoop
    obtain ⟨sym, bits, h⟩ | h | h := hend <;> rw [h] at hinside ⊢
    · have hpos : Within s (u.setResults (sym.setWidth 32) (BitVec.ofNat 32 bits) 0).inPos := .of_finish hbits hinside
      exact (hdecSym hpos).results rfl
    · exact (hdecSym (.of_raise hbits hinside)).raise
    · exact .stop

theorem ran_chkTag : Post (Ran .chkTag s) (exec .chkTag s) := by
  obtain hshort | hwhole := Nat.lt_or_ge s.bitsAhead.length 32
  · rw [exec_chkTag_shortTag hshort]
    exact (Effect.nothing _).raise
  · have hchkTag : Effect s .chkTag (s.skip 32) := .chkTag fun hs => by
      rw [← bitsLeft_eq_length_bitsAhead, State.bitsLeft] at hwhole
      omega
    rw [exec_chkTag_whole hwhole]
    exact .ite hchkTag.finish hchkTag.raise

end

/-- Everything a command that leads to a next state can have done. -/
theorem exec_ran {i : Instr} {s t : State} (h : exec i s = .next t) : Ran i s t := by
  suffices hpost : Post (Ran i s) (exec i s) from hpost t h
  cases i with
  | nop => exact (Effect.nothing _).finish
  | clrf => exact Effect.clrf.finish
  | sreset => exact Effect.sreset.finish
  | freqClr => exact (Effect.freqClr _).finish
  | freqCount => exact ran_freqCount s
  | freqWr sym => exact .ite (Effect.nothing _).raise (Effect.freqWr sym _).finish
  | freqRd sym => exact .ite (Effect.nothing _).raise ((Effect.nothing _).results rfl)
  | build => exact ran_build s
  | nodeRd idx => exact ran_nodeRd s idx
  | genCodes => exact ran_genCodes s
  | codeRd sym wsel =>
    have hnothing : Effect s (.codeRd sym wsel) s := .nothing _
    exact .ite hnothing.raise (.ite hnothing.raise (hnothing.results rfl))
  | wrHdr => exact ran_wrHdr s
  | rdHdr => exact ran_rdHdr s
  | encode => exact ran_encode s
  | encSym sym => exact ran_encSym s sym
  | decode => exact ran_decode s
  | decSym => exact ran_decSym s
  | wrTag =>
    cases hopen : s.outClosed with
    | true =>
      rw [exec_wrTag_sinkClosed hopen]
      exact (Effect.nothing _).raise
    | false =>
      rw [exec_wrTag hopen]
      exact (Effect.wrTag hopen (List.prefix_append _ _)).finish
  | chkTag => exact ran_chkTag s
  | srcRewind => exact Effect.srcRewind.finish
  | snkClose => exact Effect.snkClose.finish

end Sys2Proof.Machine
end

section
/-! What each piece of the state is written by, and the sink and the source over every step (10_state.md R24 to R39;
20_memory.md R69; 60_exceptions.md R285; 70_reset_and_hazards.md R320). -/

namespace Sys2Proof.Machine

/-! ### The pieces of the state, effect by effect -/

section
variable {i : Instr} {s u t : State}

/-- However a command ends, only the results, the fault record and its own control state can still change. -/
theorem Ending.frame (h : Ending i u t) : t = { u with
    res0 := t.res0, res1 := t.res1, res2 := t.res2, fcmd := t.fcmd, fdetail := t.fdetail, busy := false, done := true,
    fault := t.fault, fcode := t.fcode, cur := t.cur, curArg := t.curArg, draws := t.draws } := by
  cases h <;> rfl

/-- No command touches the host's own fields. -/
theorem Effect.host (h : Effect s i u) : u.inputs = s.inputs ∧ u.rdata = s.rdata := by
  cases h with
  | snkClose => exact ⟨s.snkClose_inputs, s.snkClose_rdata⟩
  | _ => exact ⟨rfl, rfl⟩

/-- The source's bits are the same, the sink only grew, and a closed one did not change. -/
def PortsKept (s t : State) : Prop :=
  t.inBits = s.inBits ∧ s.outBits <+: t.outBits ∧ (s.outClosed = true → t.outClosed = true ∧ t.outBits = s.outBits)

theorem PortsKept.of_eq (hin : t.inBits = s.inBits) (hout : t.outBits = s.outBits) (hclosed : t.outClosed = s.outClosed) :
    PortsKept s t :=
  ⟨hin, by rw [hout], fun hs => ⟨hclosed.trans hs, hout⟩⟩

theorem Effect.portsKept (h : Effect s i u) : PortsKept s u := by
  have hopens {p : Prop} (hopen : s.outClosed = false) (hclosed : s.outClosed = true) : p :=
    absurd (hopen.symm.trans hclosed) Bool.false_ne_true
  cases h with
  | wrHdr hopen hout | encSym _ hopen hout | wrTag hopen hout => exact ⟨rfl, hout, hopens hopen⟩
  | encode hopen _ hout | decode hopen _ hout => exact ⟨rfl, hout, hopens hopen⟩
  | snkClose =>
    cases hclosed : s.outClosed with
    | true =>
      rw [State.snkClose_of_closed hclosed]
      exact .of_eq rfl rfl rfl
    | false =>
      rw [State.snkClose_of_open hclosed]
      exact ⟨rfl, List.prefix_append _ _, hopens hclosed⟩
  | _ => exact .of_eq rfl rfl rfl

/-- A recorded fault stays, unless the record is cleared whole. -/
theorem Effect.record (h : Effect s i u) :
    (u.fault = s.fault ∧ u.fcode = s.fcode ∧ u.fcmd = s.fcmd ∧ u.fdetail = s.fdetail) ∨
      (u.fault = false ∧ u.fcode = 0 ∧ u.fcmd = 0 ∧ u.fdetail = 0) := by
  cases h with
  | clrf | sreset => exact .inr ⟨rfl, rfl, rfl, rfl⟩
  | snkClose => exact .inl ⟨s.snkClose_fault, s.snkClose_fcode, s.snkClose_fcmd, s.snkClose_fdetail⟩
  | _ => exact .inl ⟨rfl, rfl, rfl, rfl⟩

theorem Effect.lost (h : Effect s i u) (hsreset : i ≠ .sreset) (hclrf : i ≠ .clrf) : u.lost = s.lost := by
  cases h with
  | sreset => exact absurd rfl hsreset
  | clrf => exact absurd rfl hclrf
  | snkClose => exact s.snkClose_lost
  | _ => rfl

variable (hsreset : i ≠ .sreset)
include hsreset

theorem Effect.arguments (h : Effect s i u) :
    u.arg = s.arg ∧ u.res0 = s.res0 ∧ u.res1 = s.res1 ∧ u.res2 = s.res2 := by
  cases h with
  | sreset => exact absurd rfl hsreset
  | snkClose => exact ⟨s.snkClose_arg, s.snkClose_res0, s.snkClose_res1, s.snkClose_res2⟩
  | _ => exact ⟨rfl, rfl, rfl, rfl⟩

theorem Effect.tree (h : Effect s i u) (hbuild : i ≠ .build) (hrdHdr : i ≠ .rdHdr) :
    u.node = s.node ∧ u.ncount = s.ncount ∧ u.root = s.root ∧ u.treeValid = s.treeValid := by
  cases h with
  | sreset => exact absurd rfl hsreset
  | build => exact absurd rfl hbuild
  | rdHdrTree | rdHdrNone => exact absurd rfl hrdHdr
  | snkClose => exact ⟨s.snkClose_node, s.snkClose_ncount, s.snkClose_root, s.snkClose_treeValid⟩
  | _ => exact ⟨rfl, rfl, rfl, rfl⟩

theorem Effect.code (h : Effect s i u) (hgen : i ≠ .genCodes) : u.code = s.code := by
  cases h with
  | sreset => exact absurd rfl hsreset
  | genCodes => exact absurd rfl hgen
  | snkClose => exact s.snkClose_code
  | _ => rfl

theorem Effect.codesValid (h : Effect s i u) (hbuild : i ≠ .build) (hrdHdr : i ≠ .rdHdr) (hgen : i ≠ .genCodes) :
    u.codesValid = s.codesValid := by
  cases h with
  | sreset => exact absurd rfl hsreset
  | build => exact absurd rfl hbuild
  | rdHdrTree | rdHdrNone => exact absurd rfl hrdHdr
  | genCodes => exact absurd rfl hgen
  | snkClose => exact s.snkClose_codesValid
  | _ => rfl

omit hsreset

theorem Effect.inPos (h : Effect s i u) (hcount : i ≠ .freqCount) (hrdHdr : i ≠ .rdHdr) (hencode : i ≠ .encode)
    (hdecode : i ≠ .decode) (hdecSym : i ≠ .decSym) (hchkTag : i ≠ .chkTag) (hrewind : i ≠ .srcRewind) :
    u.inPos = s.inPos := by
  cases h with
  | freqCount => exact absurd rfl hcount
  | rdHdrTree | rdHdrNone => exact absurd rfl hrdHdr
  | encode => exact absurd rfl hencode
  | decode => exact absurd rfl hdecode
  | decSym => exact absurd rfl hdecSym
  | chkTag => exact absurd rfl hchkTag
  | srcRewind => exact absurd rfl hrewind
  | snkClose => exact s.snkClose_inPos
  | _ => rfl

theorem Effect.outBits (h : Effect s i u) (hwrHdr : i ≠ .wrHdr) (hencode : i ≠ .encode) (hencSym : ∀ v, i ≠ .encSym v)
    (hdecode : i ≠ .decode) (hwrTag : i ≠ .wrTag) (hclose : i ≠ .snkClose) : u.outBits = s.outBits := by
  cases h with
  | wrHdr => exact absurd rfl hwrHdr
  | encode => exact absurd rfl hencode
  | encSym sym => exact absurd rfl (hencSym sym)
  | decode => exact absurd rfl hdecode
  | wrTag => exact absurd rfl hwrTag
  | snkClose => exact absurd rfl hclose
  | _ => rfl

theorem Effect.outClosed (h : Effect s i u) (hclose : i ≠ .snkClose) : u.outClosed = s.outClosed := by
  cases h with
  | snkClose => exact absurd rfl hclose
  | _ => rfl

/-- A command that writes no results leaves them; so does one that takes a fault. -/
theorem Ending.results_eq (h : Ending i u t)
    (hkeep : Instr.writesResults i = false ∨ t.fault = true ∧ u.fault = false) :
    t.res0 = u.res0 ∧ t.res1 = u.res1 ∧ t.res2 = u.res2 := by
  cases h with
  | finished | faulted => exact ⟨rfl, rfl, rfl⟩
  | results hi r0 r1 r2 =>
    obtain hnot | ⟨ht, hu⟩ := hkeep
    · exact absurd (hnot.symm.trans hi) Bool.false_ne_true
    · exact absurd (hu.symm.trans ht) Bool.false_ne_true

end

theorem writesResults_eq_false {i : Instr} (hfreqRd : ∀ v, i ≠ .freqRd v) (hnodeRd : ∀ v, i ≠ .nodeRd v)
    (hcodeRd : ∀ v w, i ≠ .codeRd v w) (hdecSym : i ≠ .decSym) : Instr.writesResults i = false := by
  cases i with
  | freqRd v => exact absurd rfl (hfreqRd v)
  | nodeRd v => exact absurd rfl (hnodeRd v)
  | codeRd v w => exact absurd rfl (hcodeRd v w)
  | decSym => exact absurd rfl hdecSym
  | _ => rfl

/-- Settles O58: each piece by the lemma about it, and FREQ by `exec_freq`. -/
theorem stateChangesOnlyByItsCommands : Obligations.StateChangesOnlyByItsCommands := by
  intro i s t hexec hsreset
  obtain ⟨u, heff, hend⟩ := exec_ran hexec
  have hframe := hend.frame
  obtain ⟨hinBits, -, -⟩ := heff.portsKept
  obtain ⟨hinputs, hrdata⟩ := heff.host
  obtain ⟨harg, hres0, hres1, hres2⟩ := heff.arguments hsreset
  have hcode := heff.code hsreset
  have hcodesValid := heff.codesValid hsreset
  refine ⟨(congrArg State.arg hframe).trans harg, (congrArg State.inBits hframe).trans hinBits,
    (congrArg State.inputs hframe).trans hinputs, (congrArg State.rdata hframe).trans hrdata, fun hkeep => ?_,
    fun hclr hcount hwr => exec_freq hsreset hclr hcount hwr s t hexec, fun hbuild hrdHdr => ?_,
    fun hgen => (congrArg State.code hframe).trans (hcode hgen),
    fun hbuild hrdHdr hgen => (congrArg State.codesValid hframe).trans (hcodesValid hbuild hrdHdr hgen),
    fun hclrf => (congrArg State.lost hframe).trans (heff.lost hsreset hclrf),
    fun hcount hrdHdr hencode hdecode hdecSym hchkTag hrewind => (congrArg State.inPos hframe).trans
      (heff.inPos hcount hrdHdr hencode hdecode hdecSym hchkTag hrewind),
    fun hwrHdr hencode hencSym hdecode hwrTag hclose => (congrArg State.outBits hframe).trans
      (heff.outBits hwrHdr hencode hencSym hdecode hwrTag hclose),
    fun hclose => (congrArg State.outClosed hframe).trans (heff.outClosed hclose)⟩
  · have hresults := hend.results_eq <| by
      obtain ⟨ht, hs⟩ | ⟨hfreqRd, hnodeRd, hcodeRd, hdecSym⟩ := hkeep
      · obtain ⟨hu, -⟩ | ⟨hu, -⟩ := heff.record
        exacts [.inr ⟨ht, hu.trans hs⟩, .inr ⟨ht, hu⟩]
      · exact .inl (writesResults_eq_false hfreqRd hnodeRd hcodeRd hdecSym)
    obtain ⟨h0, h1, h2⟩ := hresults
    exact ⟨h0.trans hres0, h1.trans hres1, h2.trans hres2⟩
  · obtain ⟨hnode, hncount, hroot, hvalid⟩ := heff.tree hsreset hbuild hrdHdr
    exact ⟨(congrArg State.node hframe).trans hnode, (congrArg State.ncount hframe).trans hncount,
      (congrArg State.root hframe).trans hroot, (congrArg State.treeValid hframe).trans hvalid⟩

/-! ### The ports over every step (60_exceptions.md R285; 70_reset_and_hazards.md R320) -/

/-- An illegal word does what any fault taken before an effect does. -/
theorem execIllegal_ran (i : Instr) {s t : State} (h : execIllegal s = .next t) : Ran i s t := by
  cases h
  exact ⟨s, .nothing i, .faulted .illegalCmd s.cur⟩

theorem State.hostWrite_portsKept (s : State) (off : Nat) (v : Word) : PortsKept s (s.hostWrite off v) := by
  unfold State.hostWrite State.offer
  split
  · split
    · exact .of_eq rfl rfl rfl
    · split <;> exact .of_eq rfl rfl rfl
  all_goals exact .of_eq rfl rfl rfl

theorem State.hostRead_portsKept (s : State) (off : Nat) : PortsKept s (s.hostRead off) := by
  unfold State.hostRead
  split <;> exact .of_eq rfl rfl rfl

theorem State.waitDone_portsKept (s : State) (closeSink : Bool) : PortsKept s (s.waitDone closeSink) := by
  unfold State.waitDone
  dsimp only
  split <;> exact .of_eq rfl rfl rfl

theorem Ran.portsKept {i : Instr} {s t : State} (h : Ran i s t) : PortsKept s t := by
  obtain ⟨u, heff, hend⟩ := h
  rw [hend.frame]
  exact heff.portsKept

/-- Every step keeps the ports but one that attaches a port or resets the engine. -/
theorem step_portsKept {s t : State} (h : step s = .next t) : PortsKept s t ∨
    (∃ bits rest, s.inputs = .attachSource bits :: rest ∧ t = State.withSource { s with inputs := rest } bits) ∨
    (∃ rest, s.inputs = .attachSink :: rest ∧ t = State.withSink { s with inputs := rest }) ∨
    (∃ rest, s.inputs = .reset :: rest ∧ t = State.resetInput { s with inputs := rest }) := by
  have hran {i : Instr} {u : State} (hu : nextTurn s = .engine u) (hrun : Ran i u t) : PortsKept s t := by
    rw [nextTurn_engine hu] at hrun
    exact hrun.portsKept
  rcases step_cases h with ⟨u, i, hu, -, -, h⟩ | ⟨u, e, hu, -, -, h⟩ | ⟨hu, -⟩ | ⟨rest, off, v, -, -, -, rfl⟩ |
    ⟨rest, off, -, -, -, rfl⟩ | ⟨rest, bits, hin, -, rfl⟩ | ⟨rest, hin, -, rfl⟩ | ⟨rest, hin, rfl⟩ |
    ⟨rest, b, -, -, -, rfl⟩
  · exact .inl (hran hu (exec_ran h))
  · exact .inl (hran hu (execIllegal_ran .nop h))
  · rw [nextTurn_engine hu]
    exact .inl (.of_eq rfl rfl rfl)
  · exact .inl (State.hostWrite_portsKept ..)
  · exact .inl (State.hostRead_portsKept ..)
  · exact .inr (.inl ⟨bits, rest, hin, rfl⟩)
  · exact .inr (.inr (.inl ⟨rest, hin, rfl⟩))
  · exact .inr (.inr (.inr ⟨rest, hin, rfl⟩))
  · exact .inl (State.waitDone_portsKept ..)

/-- Settles O59: `step_portsKept`, and what each of the steps that are not of it does to the ports. -/
theorem portsChangeOnlyAsTheSpecSays : Obligations.PortsChangeOnlyAsTheSpecSays := by
  intro s t h
  obtain ⟨hin, hout, hclosed⟩ | ⟨bits, rest, hin, rfl⟩ | ⟨rest, hin, rfl⟩ | ⟨rest, hin, rfl⟩ := step_portsKept h
  · exact ⟨.inl hin, .inl hout, fun hs => .inl (hclosed hs)⟩
  · exact ⟨.inr ⟨bits, rest, hin⟩, .inl (List.prefix_refl _), fun hs => .inl ⟨hs, rfl⟩⟩
  · exact ⟨.inl rfl, .inr ⟨rest, hin⟩, fun _ => .inr (.inl ⟨rest, hin⟩)⟩
  · unfold State.resetInput
    split
    next hb => exact ⟨.inl rfl, .inl (List.prefix_append _ _), fun _ => .inr (.inr ⟨hb, rest, hin⟩)⟩
    · exact ⟨.inl rfl, .inl (List.prefix_refl _), fun hs => .inl ⟨hs, rfl⟩⟩

end Sys2Proof.Machine
end

section
/-! The invariants of the state, which hold at reset and which every step keeps (10_state.md R23 to R38;
60_exceptions.md R280, R286). -/

namespace Sys2Proof.Machine

/-! ### The engine's turn and the host's -/

section
variable {s u : State}

theorem step_of_engineRuns (h : EngineRuns s u) : step s = engineTurn u := by
  simp only [step, h.1]

theorem step_eq_exec {i : Instr} (h : EngineRuns s u) (hdecode : decode u.cur = .ok i) : step s = exec i u := by
  rw [step_of_engineRuns h, engineTurn, if_pos h.2, fetch, hdecode]

theorem step_eq_execIllegal {e : DecodeError} (h : EngineRuns s u) (hdecode : decode u.cur = .error e) :
    step s = execIllegal u := by
  rw [step_of_engineRuns h, engineTurn, if_pos h.2, fetch, hdecode]

end

/-- What the host's steps but the reset input leave alone: the results, the fault record, and all the tables. -/
def TablesKept (s t : State) : Prop := t = { s with
  arg := t.arg, busy := t.busy, done := t.done, lost := t.lost, cur := t.cur, curArg := t.curArg, inBits := t.inBits,
  inPos := t.inPos, outBits := t.outBits, outClosed := t.outClosed, inputs := t.inputs, rdata := t.rdata,
  draws := t.draws }

theorem State.offer_tablesKept (s : State) (c : Word) : TablesKept s (s.offer c) := by
  unfold State.offer
  split
  · rfl
  · split <;> rfl

theorem State.hostWrite_tablesKept (s : State) (off : Nat) (v : Word) : TablesKept s (s.hostWrite off v) := by
  unfold State.hostWrite
  split
  exacts [s.offer_tablesKept v, rfl, rfl]

theorem State.hostRead_tablesKept (s : State) (off : Nat) : TablesKept s (s.hostRead off) := by
  unfold State.hostRead
  split <;> rfl

theorem State.waitDone_tablesKept (s : State) (closeSink : Bool) : TablesKept s (s.waitDone closeSink) := by
  unfold State.waitDone
  dsimp only
  split <;> rfl

/-- Everything a step can do to the tables: the engine runs a word, the engine is reset, or nothing. -/
theorem step_tables {s t : State} (h : step s = .next t) :
    (∃ u i, EngineRuns s u ∧ decode u.cur = .ok i ∧ exec i u = .next t) ∨
    (∃ u e, EngineRuns s u ∧ decode u.cur = .error e ∧ execIllegal u = .next t) ∨
    (∃ rest, s.inputs = .reset :: rest ∧ t = State.resetInput { s with inputs := rest }) ∨ TablesKept s t := by
  rcases step_cases h with ⟨u, i, hu, hb, hi, h⟩ | ⟨u, e, hu, hb, he, h⟩ | ⟨hu, -⟩ | ⟨rest, off, v, -, -, -, rfl⟩ |
    ⟨rest, off, -, -, -, rfl⟩ | ⟨rest, bits, -, -, rfl⟩ | ⟨rest, -, -, rfl⟩ | ⟨rest, hin, rfl⟩ | ⟨rest, b, -, -, -, rfl⟩
  · exact .inl ⟨u, i, ⟨hu, hb⟩, hi, h⟩
  · exact .inr (.inl ⟨u, e, ⟨hu, hb⟩, he, h⟩)
  · rw [nextTurn_engine hu]
    exact .inr (.inr (.inr rfl))
  · exact .inr (.inr (.inr (State.hostWrite_tablesKept { s with inputs := rest } off v)))
  · exact .inr (.inr (.inr (State.hostRead_tablesKept { s with inputs := rest } off)))
  · exact .inr (.inr (.inr rfl))
  · exact .inr (.inr (.inr rfl))
  · exact .inr (.inr (.inl ⟨rest, hin, rfl⟩))
  · exact .inr (.inr (.inr (State.waitDone_tablesKept { s with inputs := rest } b)))

/-- What every command and the reset keep, and what only the tables say, every step keeps. -/
theorem step_keeps {P : State → Prop} (hran : ∀ {i s t}, Ran i s t → P s → P t) (hreset : ∀ s : State, P s.resetInput)
    (hkept : ∀ {s t}, TablesKept s t → P s → P t) {s t : State} (hs : P s) (h : step s = .next t) : P t := by
  have hengine {u : State} (hu : EngineRuns s u) : P u := hkept (by rw [nextTurn_engine hu.1]; rfl) hs
  obtain ⟨u, i, hu, -, hexec⟩ | ⟨u, e, hu, -, hexec⟩ | ⟨rest, -, rfl⟩ | hsame := step_tables h
  · exact hran (exec_ran hexec) (hengine hu)
  · exact hran (execIllegal_ran .nop hexec) (hengine hu)
  · exact hreset _
  · exact hkept hsame hs

/-! ### TREE_VALID (10_state.md R33) -/

/-- BUILD leaves a well-formed tree. -/
theorem treeOk_build {s : State} {f : Forest} {root : Nat}
    (hloop : mergeLoop (buildLeaves s).queue.length (buildLeaves s) = some (f, root)) :
    TreeOk (s.withForest f root).undefineNodes := by
  have hexec : exec .build s = finish (s.withForest f root).undefineNodes := by
    simp only [exec, execBuild, hloop]
    rfl
  obtain ⟨tree, hholds, hsymbols, hentries⟩ := exec_build_tree hexec
  exact ⟨tree, hholds, Shape.inAlphabet_of_perm hsymbols, hentries⟩

/-- RDHDR of a whole header leaves a well-formed tree. -/
theorem treeOk_withHeaderTree (s : State) {tree : Shape} (ha : tree.inAlphabet) (hcap : tree.size ≤ 513) :
    TreeOk (s.withHeaderTree tree).undefineNodes := by
  obtain ⟨hholds, hentries⟩ := withHeaderTree_holds (s := s) ha hcap
  have hncount := withHeaderTree_ncount (s := s) hcap
  exact ⟨tree, hholds, ha, .of_eq (hentries.trans (congrArg List.range hncount.symm))⟩

theorem Ran.treeValidOk {i : Instr} {s t : State} (h : Ran i s t) (hs : TreeValidOk s) : TreeValidOk t := by
  obtain ⟨u, heff, hend⟩ := h
  rw [hend.frame]
  suffices hu : TreeValidOk u from hu
  cases heff with
  | build hloop => exact fun _ => treeOk_build hloop
  | rdHdrTree _ ha hcap => exact fun _ => treeOk_withHeaderTree s ha hcap
  | rdHdrNone | sreset => exact fun h => nomatch h
  | snkClose =>
    unfold State.snkClose
    split <;> exact hs
  | _ => exact hs

theorem State.resetInput_valid (s : State) : s.resetInput.treeValid = false ∧ s.resetInput.codesValid = false := by
  unfold State.resetInput
  split <;> exact ⟨rfl, rfl⟩

/-- Settles O52: only BUILD and RDHDR make TREE_VALID 1, each with a tree that is well formed. -/
theorem stepKeepsTreeValidOk : Obligations.StepKeepsTreeValidOk := by
  intro s t
  refine step_keeps Ran.treeValidOk (fun s htree => ?_) fun {s t} hsame hs => ?_
  · exact absurd (s.resetInput_valid.1.symm.trans htree) Bool.false_ne_true
  · rw [hsame]
    exact hs

/-! ### CODES_VALID (10_state.md R35) -/

theorem Ran.codesValidOk {i : Instr} {s t : State} (h : Ran i s t) (hs : CodesValidOk s) : CodesValidOk t := by
  obtain ⟨u, heff, hend⟩ := h
  rw [hend.frame]
  suffices hu : CodesValidOk u from hu
  cases heff with
  | genCodes _ hholds => exact fun _ => ⟨_, hholds, rfl⟩
  | build | rdHdrTree | rdHdrNone | sreset => exact fun h => nomatch h
  | snkClose =>
    unfold State.snkClose
    split <;> exact hs
  | _ => exact hs

/-- Settles O53: GENCODES makes the table of the tree the store holds, and what changes the tree drops the codes. -/
theorem stepKeepsCodesValidOk : Obligations.StepKeepsCodesValidOk := by
  intro s t
  refine step_keeps Ran.codesValidOk (fun s hcodes => ?_) fun {s t} hsame hs => ?_
  · exact absurd (s.resetInput_valid.2.symm.trans hcodes) Bool.false_ne_true
  · rw [hsame]
    exact hs

/-! ### The form of the code table (10_state.md R34) -/

theorem CodeEntry.absent_formed : CodeEntry.absent.formed := ⟨fun _ => ⟨rfl, rfl⟩, by decide, by decide⟩

theorem codeOfPath_formed {p : List Bool} (h : p.length ≤ 256) : (codeOfPath p).formed := by
  have hlen := codeOfPath_len h
  refine ⟨fun hvalid => (nomatch hvalid), hlen.trans_le h, ?_⟩
  rw [hlen]
  exact (BitVec.toNat_ofNat ..).trans_lt ((Nat.mod_le ..).trans_lt (numeral_lt p))

theorem Shape.codeEntry_formed {t : Shape} (hd : t.depth ≤ 256) (y : Nat) : (t.codeEntry y).formed := by
  rw [Shape.codeEntry_eq_elim]
  rcases hlast : (t.leaves.filter fun e => e.1 == y).getLast? with _ | e <;> rw [hlast]
  · exact CodeEntry.absent_formed
  · exact codeOfPath_formed ((Shape.length_le_depth (List.mem_of_mem_filter (List.mem_of_getLast? hlast))).trans hd)

theorem codeAt_of_code_replicate {s : State} (h : s.code = Vector.replicate 257 CodeEntry.absent) (v : Nat) :
    s.codeAt v = CodeEntry.absent := by
  rw [State.codeAt, h]
  exact codeAt_clearCodes s v

theorem Effect.codesFormed {i : Instr} {s u : State} (h : Effect s i u) (hs : ∀ v, (s.codeAt v).formed) (v : Nat) :
    (u.codeAt v).formed := by
  cases h with
  | genCodes _ _ ha hd =>
    rw [codeAt_codeTable ha rfl]
    exact Shape.codeEntry_formed hd v
  | sreset =>
    rw [codeAt_of_code_replicate rfl]
    exact CodeEntry.absent_formed
  | snkClose =>
    unfold State.snkClose
    split <;> exact hs v
  | _ => exact hs v

/-! ### The control state (10_state.md R23, R26, R27, R38; 60_exceptions.md R280, R286) -/

theorem faultNumber_range (c : FaultCode) : 1 ≤ (faultNumber c).toNat ∧ (faultNumber c).toNat ≤ 14 := by
  cases c <;> decide

section
variable {i : Instr} {s u t : State}

theorem Ending.record (h : Ending i u t) :
    (t.fault = u.fault ∧ t.fcode = u.fcode ∧ t.fcmd = u.fcmd ∧ t.fdetail = u.fdetail) ∨
      (t.fault = true ∧ 1 ≤ t.fcode.toNat ∧ t.fcode.toNat ≤ 14) := by
  cases h with
  | finished | results => exact .inl ⟨rfl, rfl, rfl, rfl⟩
  | faulted c => exact .inr ⟨rfl, faultNumber_range c⟩

/-- The fault record is blank, or it has a legal code. -/
def RecordOk (s : State) : Prop :=
  (s.fault = false ∧ s.fcode = 0 ∧ s.fcmd = 0 ∧ s.fdetail = 0) ∨
    (s.fault = true ∧ 1 ≤ s.fcode.toNat ∧ s.fcode.toNat ≤ 14)

theorem StatusOk.recordOk (h : StatusOk s) : RecordOk s := by
  cases hf : s.fault with
  | false => exact .inl ⟨hf, h.noRecord hf⟩
  | true => exact .inr ⟨hf, h.record hf⟩

theorem RecordOk.congr (h : RecordOk s) (hfault : t.fault = s.fault) (hcode : t.fcode = s.fcode) (hcmd : t.fcmd = s.fcmd)
    (hdetail : t.fdetail = s.fdetail) : RecordOk t := by
  rwa [RecordOk, hfault, hcode, hcmd, hdetail]

theorem Ran.recordOk (h : Ran i s t) (hs : RecordOk s) : RecordOk t := by
  obtain ⟨u, heff, hend⟩ := h
  have hu : RecordOk u := by
    obtain ⟨hfault, hcode, hcmd, hdetail⟩ | hclear := heff.record
    · exact hs.congr hfault hcode hcmd hdetail
    · exact .inl hclear
  obtain ⟨hfault, hcode, hcmd, hdetail⟩ | hrecorded := hend.record
  · exact hu.congr hfault hcode hcmd hdetail
  · exact .inr hrecorded

theorem Effect.inside (h : Effect s i u) (hs : Inside s) : Inside u := by
  cases h with
  | freqCount _ hpos | rdHdrTree _ _ _ hpos | rdHdrNone _ hpos | encode _ hpos | decode _ hpos | decSym hpos
  | chkTag hpos => exact hpos hs
  | srcRewind => exact Nat.zero_le _
  | snkClose =>
    unfold State.snkClose
    split <;> exact hs
  | _ => exact hs

theorem Effect.codesNeedTree (h : Effect s i u) (hs : s.codesValid = true → s.treeValid = true) :
    u.codesValid = true → u.treeValid = true := by
  cases h with
  | genCodes htree => exact fun _ => htree
  | build | rdHdrTree => exact fun _ => rfl
  | rdHdrNone | sreset => exact fun h => nomatch h
  | snkClose =>
    unfold State.snkClose
    split <;> exact hs
  | _ => exact hs

/-- An engine with a blank or legal record and BUSY = 0 meets the claims about BUSY. -/
theorem StatusOk.of_idle (hbusy : t.busy = false) (hrecord : RecordOk t)
    (htree : t.codesValid = true → t.treeValid = true) (hpos : Inside t) (hcodes : ∀ v, (t.codeAt v).formed) :
    StatusOk t := by
  have hidle {p : Prop} (hb : t.busy = true) : p := absurd (hbusy.symm.trans hb) Bool.false_ne_true
  refine ⟨fun hf => ?_, fun hf => ?_, hidle, hidle, htree, hpos, hcodes⟩ <;>
    obtain ⟨hfault, hrest⟩ | ⟨hfault, hrest⟩ := hrecord
  · exact hrest
  · exact absurd (hf.symm.trans hfault) Bool.false_ne_true
  · exact absurd (hfault.symm.trans hf) Bool.false_ne_true
  · exact hrest

theorem Ran.statusOk (h : Ran i s t) (hs : StatusOk s) : StatusOk t := by
  have hrecord := h.recordOk hs.recordOk
  obtain ⟨u, heff, hend⟩ := h
  have hframe := hend.frame
  have htree := heff.codesNeedTree hs.codesNeedTree
  have hpos := heff.inside hs.posInside
  have hcodes := heff.codesFormed hs.codesFormed
  refine .of_idle (congrArg State.busy hframe) hrecord ?_ ?_ ?_ <;> rw [hframe]
  exacts [htree, hpos, hcodes]

/-- What StatusOk does not speak of can change. -/
theorem StatusOk.congr (hs : StatusOk s) (h : t = { s with
    arg := t.arg, lost := t.lost, outBits := t.outBits, outClosed := t.outClosed, inputs := t.inputs, rdata := t.rdata,
    draws := t.draws }) : StatusOk t := by
  rw [h]
  exact ⟨hs.noRecord, hs.record, hs.busyNotDone, hs.gate, hs.codesNeedTree, hs.posInside, hs.codesFormed⟩

theorem StatusOk.offer (hs : StatusOk s) (c : Word) : StatusOk (s.offer c) := by
  unfold State.offer
  split
  · exact hs.congr rfl
  next hb =>
    have hidle : s.busy = false := by simpa using hb
    split
    · exact .of_idle hidle hs.recordOk hs.codesNeedTree hs.posInside hs.codesFormed
    next hpass =>
      have hgate (hf : s.fault = true) : passesFaultGate c = true := by simpa [hf] using hpass
      exact ⟨hs.noRecord, hs.record, fun _ => rfl, fun _ => hgate, hs.codesNeedTree, hs.posInside, hs.codesFormed⟩

theorem StatusOk.hostWrite (hs : StatusOk s) (off : Nat) (v : Word) : StatusOk (s.hostWrite off v) := by
  unfold State.hostWrite
  split
  exacts [hs.offer v, hs.congr rfl, hs]

theorem StatusOk.hostRead (hs : StatusOk s) (off : Nat) : StatusOk (s.hostRead off) := by
  unfold State.hostRead
  split <;> exact hs.congr rfl

theorem StatusOk.waitDone (hs : StatusOk s) (closeSink : Bool) : StatusOk (s.waitDone closeSink) := by
  unfold State.waitDone
  dsimp only
  split <;> exact hs.congr rfl

theorem StatusOk.withSource (hs : StatusOk s) (bits : List Bool) : StatusOk (s.withSource bits) :=
  ⟨hs.noRecord, hs.record, hs.busyNotDone, hs.gate, hs.codesNeedTree, Nat.zero_le _, hs.codesFormed⟩

theorem statusOk_resetEngine (hs : Inside s) : StatusOk s.resetEngine :=
  .of_idle rfl (.inl ⟨rfl, rfl, rfl, rfl⟩) (fun h => nomatch h) hs fun v => by
    rw [codeAt_of_code_replicate rfl]
    exact CodeEntry.absent_formed

theorem statusOk_resetInput (hs : Inside s) : StatusOk s.resetInput := by
  unfold State.resetInput
  split
  · exact statusOk_resetEngine (Nat.min_le_right ..)
  · exact statusOk_resetEngine hs

end

/-- Settles O51: every command keeps it by its effect and its ending, and each of the host's steps by what it writes. -/
theorem stepKeepsStatusOk : Obligations.StepKeepsStatusOk := by
  intro s t hs h
  have hinputs (rest : List Input) : StatusOk { s with inputs := rest } := hs.congr rfl
  have hturn {u : State} (hu : nextTurn s = .engine u) : StatusOk u := by
    rw [nextTurn_engine hu]
    exact hinputs _
  rcases step_cases h with ⟨u, i, hu, -, -, h⟩ | ⟨u, e, hu, -, -, h⟩ | ⟨hu, -⟩ | ⟨rest, off, v, -, -, -, rfl⟩ |
    ⟨rest, off, -, -, -, rfl⟩ | ⟨rest, bits, -, -, rfl⟩ | ⟨rest, -, -, rfl⟩ | ⟨rest, -, rfl⟩ | ⟨rest, b, -, -, -, rfl⟩
  · exact (exec_ran h).statusOk (hturn hu)
  · exact (execIllegal_ran .nop h).statusOk (hturn hu)
  · exact hturn hu
  · exact (hinputs rest).hostWrite off v
  · exact (hinputs rest).hostRead off
  · exact (hinputs rest).withSource bits
  · exact (hinputs rest).congr rfl
  · exact statusOk_resetInput hs.posInside
  · exact (hinputs rest).waitDone b

/-- Settles O50: at reset there is no fault, no tree and no code. -/
theorem resetMeetsTheInvariants : Obligations.ResetMeetsTheInvariants := by
  refine ⟨.of_idle rfl (.inl ⟨rfl, rfl, rfl, rfl⟩) (fun h => nomatch h) (Nat.zero_le _) fun v => ?_,
    fun htree => absurd htree Bool.false_ne_true, fun hcodes => absurd hcodes Bool.false_ne_true⟩
  rw [codeAt_of_code_replicate rfl]
  exact CodeEntry.absent_formed

end Sys2Proof.Machine
end

section
/-! Every accepted command completes (40_control.md R121, R124; 70_reset_and_hazards.md R325). -/

namespace Sys2Proof.Machine

/-! ### An outcome that is a next state -/

/-- The machine does not stop: the outcome is a next state. -/
def GoesOn (r : Res) : Prop := ∃ t, r = .next t

theorem goesOn_finish (s : State) : GoesOn (finish s) := ⟨_, rfl⟩

theorem goesOn_raise (c : FaultCode) (d : Word) (s : State) : GoesOn (raise c d s) := ⟨_, rfl⟩

theorem GoesOn.ite {b : Prop} [Decidable b] {r r' : Res} (h : GoesOn r) (h' : GoesOn r') :
    GoesOn (if b then r else r') := by
  split
  exacts [h, h']

/-! ### The commands that walk the tree, in a store that holds one -/

section
variable {s : State}

theorem goesOn_nodeRd (idx : Nat) (htree : s.treeValid = true) (hcap : s.ncount.toNat ≤ 513) :
    GoesOn (exec (.nodeRd idx) s) := by
  obtain hidx | hbad := Nat.lt_or_ge idx s.ncount.toNat
  · exact ⟨_, exec_nodeRd htree hidx (Vector.getElem?_eq_getElem (hidx.trans_le hcap))⟩
  · exact ⟨_, exec_nodeRd_badOperand htree hbad⟩

theorem goesOn_encode : GoesOn (exec .encode s) := by
  cases hcodes : s.codesValid with
  | false => exact ⟨_, exec_encode_noCodes hcodes⟩
  | true =>
    cases hopen : s.outClosed with
    | true => exact ⟨_, exec_encode_sinkClosed hcodes hopen⟩
    | false =>
      obtain ⟨-, h⟩ | ⟨j, -, -, -, h⟩ := exec_encode_ends hcodes hopen <;> rw [h]
      · exact .ite (goesOn_raise ..) (goesOn_finish _)
      · exact goesOn_raise ..

theorem goesOn_chkTag : GoesOn (exec .chkTag s) := by
  obtain hshort | hwhole := Nat.lt_or_ge s.bitsAhead.length 32
  · exact ⟨_, exec_chkTag_shortTag hshort⟩
  · rw [exec_chkTag_whole hwhole]
    exact .ite (goesOn_finish _) (goesOn_raise ..)

/-- On an internal root DECODE reads leaf after leaf: each takes at least a bit, so it comes to the end marker or to the
end of the source. -/
theorem goesOn_decode_node {l r : Shape} (ha : (Shape.node l r).inAlphabet) (htree : s.treeValid = true)
    (hopen : s.outClosed = false) (hholds : Holds s.node (.node l r) s.root) : GoesOn (exec .decode s) := by
  induction hn : s.bitsAhead.length using Nat.strong_induction_on generalizing s with
  | _ n ih =>
    obtain ⟨y, p, hmem, ⟨rest, hsrc⟩ | ⟨hprefix, hne⟩⟩ := (Shape.node l r).leaf_path_or_inside s.bitsAhead
    · rw [exec_decode_symbol htree hopen hholds hmem (ha _ hmem) hsrc]
      refine .ite (goesOn_finish _) ?_
      have hpath : p ≠ [] := by
        rintro rfl
        obtain ⟨_, h⟩ := Shape.eq_leaf_of_nil_path hmem
        cases h
      have hrest : ((s.skip p.length).snkWrite 8 y).bitsAhead = rest := bitsAhead_skip hsrc
      have hshorter : rest.length < n := by
        rw [← hn, hsrc, List.length_append]
        exact Nat.lt_add_of_pos_left (List.length_pos_iff.mpr hpath)
      exact ih rest.length hshorter htree hopen hholds (congrArg List.length hrest)
    · exact ⟨_, exec_decode_truncated htree hopen hholds hmem hprefix hne⟩

variable {tree : Shape} (htree : s.treeValid = true) (hholds : Holds s.node tree s.root)
include htree hholds

theorem goesOn_decode (ha : tree.inAlphabet) : GoesOn (exec .decode s) := by
  cases hopen : s.outClosed with
  | true => exact ⟨_, exec_decode_sinkClosed htree hopen⟩
  | false =>
    cases tree with
    | leaf y =>
      obtain rfl | hy := eq_or_ne y 256
      · exact ⟨_, exec_decode_eof_root htree hopen hholds⟩
      · exact ⟨_, exec_decode_degenerate htree hopen hholds hy⟩
    | node l r => exact goesOn_decode_node ha htree hopen hholds

theorem goesOn_decSym : GoesOn (exec .decSym s) := by
  obtain ⟨y, p, hmem, ⟨rest, hsrc⟩ | ⟨hprefix, hne⟩⟩ := tree.leaf_path_or_inside s.bitsAhead
  · exact ⟨_, exec_decSym_symbol htree hholds hmem hsrc⟩
  · exact ⟨_, exec_decSym_truncated htree hholds hmem hprefix hne⟩

theorem goesOn_wrHdr (hd : tree.depth ≤ 256) : GoesOn (exec .wrHdr s) := by
  cases hopen : s.outClosed with
  | true => exact ⟨_, exec_wrHdr_sinkClosed htree hopen⟩
  | false => exact ⟨_, exec_wrHdr htree hopen hholds hd⟩

end

/-- What TREE_VALID = 1 gives a command: a tree to walk, not too deep, with symbols in the alphabet. -/
theorem TreeOk.exists_tree {s : State} (h : TreeOk s) : ∃ tree : Shape, Holds s.node tree s.root ∧ tree.inAlphabet ∧
    tree.depth ≤ 256 ∧ s.ncount.toNat ≤ 513 := by
  have ⟨tree, hholds, ha, _⟩ := h
  obtain ⟨hsize, hcap⟩ := h.ncount_eq_size hholds
  have hdepth := tree.depth_le_size
  exact ⟨tree, hholds, ha, by omega, hsize.trans_le hcap⟩

/-- In every state that meets the invariants every command leads to a next state. -/
theorem exec_goesOn (i : Instr) {s : State} (heof : s.freqAt 256 = 1) (hvalid : TreeValidOk s) :
    GoesOn (exec i s) := by
  have walks (hnoTree : s.treeValid = false → GoesOn (exec i s)) (hwalk : s.treeValid = true → ∀ tree : Shape,
      Holds s.node tree s.root → tree.inAlphabet → tree.depth ≤ 256 → GoesOn (exec i s)) : GoesOn (exec i s) := by
    cases htree : s.treeValid with
    | false => exact hnoTree htree
    | true =>
      obtain ⟨tree, hholds, ha, hd, -⟩ := (hvalid htree).exists_tree
      exact hwalk htree tree hholds ha hd
  cases i with
  | nop | clrf | sreset | freqClr | srcRewind | snkClose => exact goesOn_finish _
  | freqCount =>
    obtain ⟨w, -, h⟩ | ⟨j, w, -, -, -, h⟩ := exec_freqCount s
    exacts [⟨_, h⟩, ⟨_, h⟩]
  | freqWr | freqRd | wrTag => exact .ite (goesOn_raise ..) (goesOn_finish _)
  | codeRd => exact .ite (goesOn_raise ..) (.ite (goesOn_raise ..) (goesOn_finish _))
  | encSym =>
    exact .ite (goesOn_raise ..) (.ite (goesOn_raise ..) (.ite (goesOn_raise ..)
      (.ite (goesOn_raise ..) (goesOn_finish _))))
  | build =>
    obtain ⟨f, root, h⟩ := exec_build heof
    exact ⟨_, h⟩
  | nodeRd idx =>
    refine walks (fun htree => ⟨_, exec_nodeRd_noTree idx htree⟩) fun htree _ _ _ _ => ?_
    obtain ⟨-, -, -, -, hcap⟩ := (hvalid htree).exists_tree
    exact goesOn_nodeRd idx htree hcap
  | genCodes =>
    exact walks (fun htree => ⟨_, exec_genCodes_noTree htree⟩) fun htree _ hholds ha hd =>
      ⟨_, exec_genCodes htree hholds ha hd⟩
  | wrHdr =>
    exact walks (fun htree => ⟨_, exec_wrHdr_noTree htree⟩) fun htree _ hholds _ hd => goesOn_wrHdr htree hholds hd
  | rdHdr =>
    obtain ⟨tree, rest, -, -, -, h⟩ | ⟨code, detail, node, pos, -, -, h⟩ := exec_rdHdr_ends s
    exacts [⟨_, h⟩, ⟨_, h⟩]
  | encode => exact goesOn_encode
  | decode =>
    exact walks (fun htree => ⟨_, exec_decode_noTree htree⟩) fun htree _ hholds ha _ => goesOn_decode htree hholds ha
  | decSym =>
    exact walks (fun htree => ⟨_, exec_decSym_noTree htree⟩) fun htree _ hholds _ _ => goesOn_decSym htree hholds
  | chkTag => exact goesOn_chkTag

theorem Ran.inputs {i : Instr} {s t : State} (h : Ran i s t) : t.inputs = s.inputs := by
  obtain ⟨u, heff, hend⟩ := h
  rw [hend.frame]
  exact heff.host.1

/-- Settles O55: a legal word runs its command, which leads to a next state, and an illegal one takes its fault. -/
theorem everyAcceptedCommandCompletes : Obligations.EveryAcceptedCommandCompletes := by
  intro s t heof hvalid hruns
  have heof' : t.freqAt 256 = 1 := by rw [nextTurn_engine hruns.1]; exact heof
  have hvalid' : TreeValidOk t := by rw [nextTurn_engine hruns.1]; exact hvalid
  rcases hdecode : decode t.cur with e | i
  · rw [step_eq_execIllegal hruns hdecode]
    exact ⟨_, rfl, rfl, rfl, rfl⟩
  · rw [step_eq_exec hruns hdecode]
    obtain ⟨u, hexec⟩ := exec_goesOn i heof' hvalid'
    obtain ⟨hbusy, hdone⟩ := exec_status hexec
    exact ⟨u, hexec, hbusy, hdone, (exec_ran hexec).inputs⟩

end Sys2Proof.Machine
end

section
/-! The fault record and LOST over every step (60_exceptions.md R283, R286, R289). -/

namespace Sys2Proof.Machine

/-! ### The fault record (60_exceptions.md R283) -/

/-- A word that passes the fault gate is one of four commands. -/
theorem gate_command {c : Word} {i : Instr} (hgate : passesFaultGate c = true) (h : decode c = .ok i) :
    i = .nop ∨ i = .clrf ∨ i = .sreset ∨ i = .snkClose := by
  have hc := (passesFaultGate_iff c).mp hgate
  simp only [List.mem_cons, List.not_mem_nil, or_false] at hc
  obtain rfl | rfl | rfl | rfl := hc <;> cases h
  exacts [.inl rfl, .inr (.inl rfl), .inr (.inr (.inl rfl)), .inr (.inr (.inr rfl))]

/-- None of the four takes a fault: each keeps the fault record or clears it. -/
theorem gate_command_record {i : Instr} {s t : State} (hi : i = .nop ∨ i = .clrf ∨ i = .sreset ∨ i = .snkClose)
    (h : exec i s = .next t) :
    (t.fault = s.fault ∧ t.fcode = s.fcode ∧ t.fcmd = s.fcmd ∧ t.fdetail = s.fdetail) ∨
      (t.fault = false ∧ t.fcode = 0 ∧ t.fcmd = 0 ∧ t.fdetail = 0) := by
  obtain rfl | rfl | rfl | rfl := hi <;> cases h
  · exact .inl ⟨rfl, rfl, rfl, rfl⟩
  · exact .inr ⟨rfl, rfl, rfl, rfl⟩
  · exact .inr ⟨rfl, rfl, rfl, rfl⟩
  · exact .inl ⟨s.snkClose_fault, s.snkClose_fcode, s.snkClose_fcmd, s.snkClose_fdetail⟩

theorem State.resetInput_record (s : State) : s.resetInput.fault = false ∧ s.resetInput.fcode = 0 ∧
    s.resetInput.fcmd = 0 ∧ s.resetInput.fdetail = 0 := by
  unfold State.resetInput
  split <;> exact ⟨rfl, rfl, rfl, rfl⟩

theorem TablesKept.record {s t : State} (h : TablesKept s t) :
    t.fault = s.fault ∧ t.fcode = s.fcode ∧ t.fcmd = s.fcmd ∧ t.fdetail = s.fdetail := by
  rw [h]
  exact ⟨rfl, rfl, rfl, rfl⟩

/-- Settles O56: with a fault recorded the engine only runs a word that passes the gate. -/
theorem faultRecordIsNeverOverwritten : Obligations.FaultRecordIsNeverOverwritten := by
  intro s t hs h hf
  have hgate {u : State} (hu : EngineRuns s u) : passesFaultGate u.cur = true := by
    obtain ⟨hturn, hb⟩ := hu
    rw [nextTurn_engine hturn] at hb ⊢
    exact hs.gate hb hf
  suffices hrecord : (t.fault = s.fault ∧ t.fcode = s.fcode ∧ t.fcmd = s.fcmd ∧ t.fdetail = s.fdetail) ∨
      (t.fault = false ∧ t.fcode = 0 ∧ t.fcmd = 0 ∧ t.fdetail = 0) by
    rwa [hf] at hrecord
  obtain ⟨u, i, hu, hdecode, hexec⟩ | ⟨u, e, hu, hdecode, -⟩ | ⟨rest, -, rfl⟩ | hkept := step_tables h
  · have hrecord := gate_command_record (gate_command (hgate hu) hdecode) hexec
    rw [nextTurn_engine hu.1] at hrecord
    exact hrecord
  · exact absurd ((not_passesFaultGate_of_decode_error hdecode).symm.trans (hgate hu)) Bool.false_ne_true
  · exact .inr (State.resetInput_record _)
  · exact .inl hkept.record

/-! ### LOST (60_exceptions.md R289) -/

/-- The word c, written to CMD, is dropped or discarded. -/
def Loses (s : State) (c : Word) : Prop :=
  s.busy = true ∨ (s.fault = true ∧ c ∉ [0x00000000#32, 0x00000001#32, 0x00000002#32, 0x00000073#32])

theorem State.offer_lost (s : State) (c : Word) :
    (Loses s c ∧ (s.offer c).lost = true) ∨ (¬ Loses s c ∧ (s.offer c).lost = s.lost) := by
  have hpass : (s.fault && !passesFaultGate c) = true ↔
      s.fault = true ∧ c ∉ [0x00000000#32, 0x00000001#32, 0x00000002#32, 0x00000073#32] := by
    rw [← passesFaultGate_iff, Bool.and_eq_true, Bool.not_eq_true', Bool.not_eq_true]
  unfold State.offer
  split
  next hb => exact .inl ⟨.inl hb, rfl⟩
  next hb =>
    split
    next hlost => exact .inl ⟨.inr (hpass.mp hlost), rfl⟩
    next hkept => exact .inr ⟨fun h => h.elim hb (mt hpass.mpr hkept), rfl⟩

theorem State.hostWrite_lost (s : State) {off : Nat} (v : Word) (hcmd : off ≠ 0x00) :
    (s.hostWrite off v).lost = s.lost := by
  unfold State.hostWrite
  split
  · exact absurd rfl hcmd
  · rfl
  · rfl

theorem State.hostRead_lost (s : State) (off : Nat) : (s.hostRead off).lost = s.lost := by
  unfold State.hostRead
  split <;> rfl

theorem State.waitDone_lost (s : State) (closeSink : Bool) : (s.waitDone closeSink).lost = s.lost := by
  unfold State.waitDone
  dsimp only
  split <;> rfl

theorem State.resetInput_lost (s : State) : s.resetInput.lost = false := by
  unfold State.resetInput
  split <;> rfl

theorem Ran.lost {i : Instr} {s t : State} (h : Ran i s t) (hsreset : i ≠ .sreset) (hclrf : i ≠ .clrf) :
    t.lost = s.lost := by
  obtain ⟨u, heff, hend⟩ := h
  rw [hend.frame]
  exact heff.lost hsreset hclrf

theorem lost_of_clrf_or_sreset {i : Instr} {s t : State} (hi : i = .clrf ∨ i = .sreset) (h : exec i s = .next t) :
    t.lost = false := by
  obtain rfl | rfl := hi <;> cases h <;> rfl

/-- Everything a step can do to LOST: keep it, clear it by CLRF, SRESET or reset, or set it by a word dropped or
discarded. -/
theorem step_lost {s t : State} (h : step s = .next t) : t.lost = s.lost ∨
    (t.lost = false ∧ ((∃ rest, s.inputs = .reset :: rest) ∨
      (s.busy = true ∧ (decode s.cur = .ok .clrf ∨ decode s.cur = .ok .sreset)))) ∨
    ∃ c rest, s.inputs = .write 32 0 c :: rest ∧ Loses s c ∧ t = State.offer { s with inputs := rest } c := by
  have hturn {u : State} (hu : nextTurn s = .engine u) : u.lost = s.lost := by rw [nextTurn_engine hu]
  rcases step_cases h with ⟨u, i, hu, hb, hi, h⟩ | ⟨u, e, hu, -, -, h⟩ | ⟨hu, -⟩ | ⟨rest, off, v, hin, -, -, rfl⟩ |
    ⟨rest, off, -, -, -, rfl⟩ | ⟨rest, bits, -, -, rfl⟩ | ⟨rest, -, -, rfl⟩ | ⟨rest, hin, rfl⟩ | ⟨rest, b, -, -, -, rfl⟩
  · by_cases hclear : i = .clrf ∨ i = .sreset
    · rw [nextTurn_engine hu] at hb hi
      refine .inr (.inl ⟨lost_of_clrf_or_sreset hclear h, .inr ⟨hb, ?_⟩⟩)
      obtain rfl | rfl := hclear
      exacts [.inl hi, .inr hi]
    · obtain ⟨hclrf, hsreset⟩ := not_or.mp hclear
      exact .inl (((exec_ran h).lost hsreset hclrf).trans (hturn hu))
  · exact .inl (((execIllegal_ran .nop h).lost nofun nofun).trans (hturn hu))
  · exact .inl (hturn hu)
  · by_cases hcmd : off = 0x00
    · subst hcmd
      obtain ⟨hloses, -⟩ | ⟨-, hlost⟩ := State.offer_lost { s with inputs := rest } v
      · exact .inr (.inr ⟨v, rest, hin, hloses, rfl⟩)
      · exact .inl hlost
    · exact .inl (State.hostWrite_lost _ v hcmd)
  · exact .inl (State.hostRead_lost ..)
  · exact .inl rfl
  · exact .inl rfl
  · exact .inr (.inl ⟨State.resetInput_lost _, .inl ⟨rest, hin⟩⟩)
  · exact .inl (State.waitDone_lost ..)

theorem step_reset {s : State} {rest : List Input} (hin : s.inputs = .reset :: rest) :
    step s = .next (State.resetInput { s with inputs := rest }) :=
  step_host hin nofun nofun

/-- Settles O57: `step_lost` for the only ways, and each of them does what it says. -/
theorem lostIsSticky : Obligations.LostIsSticky := by
  intro s t h
  have hne {p : Prop} (h0 : t.lost = false) (h1 : t.lost = true) : p :=
    absurd (h0.symm.trans h1) Bool.false_ne_true
  refine ⟨fun hs ht => ?_, fun hs ht => ?_, fun c rest hin hloses => ?_, fun ⟨rest, hin⟩ => ?_, fun u hu hdecode => ?_⟩
  · obtain hsame | ⟨-, hcause⟩ | ⟨c, rest, -, hloses, rfl⟩ := step_lost h
    · exact hne ht (hsame.trans hs)
    · exact hcause
    · obtain ⟨-, hset⟩ | ⟨hnot, -⟩ := State.offer_lost { s with inputs := rest } c
      exacts [hne ht hset, absurd hloses hnot]
  · obtain hsame | ⟨hclear, -⟩ | ⟨c, rest, hin, hloses, rfl⟩ := step_lost h
    · exact hne (hsame.trans hs) ht
    · exact hne hclear ht
    · exact ⟨⟨c, rest, hin, hloses⟩, (State.offer_tablesKept { s with inputs := rest } c).record⟩
  · rw [step_writeCmd hin] at h
    cases h
    obtain ⟨-, hset⟩ | ⟨hnot, -⟩ := State.offer_lost { s with inputs := rest } c
    exacts [hset, absurd hloses hnot]
  · rw [step_reset hin] at h
    cases h
    exact State.resetInput_lost _
  · obtain hclrf | hsreset := hdecode
    · exact lost_of_clrf_or_sreset (.inl rfl) ((step_eq_exec hu hclrf).symm.trans h)
    · exact lost_of_clrf_or_sreset (.inr rfl) ((step_eq_exec hu hsreset).symm.trans h)

end Sys2Proof.Machine
end

section
/-! The reset input, the ports' attachment, reads while BUSY, and the engine's turn (10_state.md R38, R39, R44;
40_control.md R121; 70_reset_and_hazards.md R310 to R315, R321). -/

namespace Sys2Proof.Machine

/-! ### The reset input (70_reset_and_hazards.md R310, R311) -/

/-- What the host can see of an engine right after its reset. -/
theorem State.resetEngine_reads (s : State) :
    s.resetEngine.statusWord = (if s.resetEngine.outClosed then 0x00000040#32 else 0x00000000#32) ∧
      s.resetEngine.treeInfo = 0 ∧ (∀ v, v < 256 → s.resetEngine.freqAt v = 0) ∧ s.resetEngine.freqAt 256 = 1 ∧
      ∀ v, s.resetEngine.codeAt v = CodeEntry.absent := by
  have hfreq (v : Nat) : s.resetEngine.freqAt v = State.reset.freqAt v := freqAt_congr s.resetEngine_freq v
  refine ⟨?_, by simp [State.treeInfo], fun v hv => ?_, (hfreq 256).trans freqAt_reset_eof, codeAt_of_code_replicate s.resetEngine_code⟩
  · simp only [State.statusWord, State.resetEngine_busy, State.resetEngine_done, State.resetEngine_fault,
      State.resetEngine_lost, State.resetEngine_treeValid, State.resetEngine_codesValid, State.resetEngine_fcode]
    cases s.resetEngine.outClosed <;> decide
  · rw [hfreq, freqAt_eq_getElem _ (Nat.lt_succ_of_lt hv)]
    simp [State.reset, show (256 : Nat) ≠ v by omega]

/-- Settles O13: the engine's state is that of `State.resetEngine` whether or not the reset cut a command off. -/
theorem resetInputResetsTheEngine : Obligations.ResetInputResetsTheEngine := by
  intro s rest hin
  refine ⟨_, step_reset hin, ?_⟩
  unfold State.resetInput
  split
  next hb =>
    obtain ⟨hstatus, htree, hfreq, heof, hcode⟩ := (State.freePorts { s with inputs := rest }).resetEngine_reads
    exact ⟨hstatus, rfl, rfl, rfl, rfl, rfl, rfl, htree, hfreq, heof, hcode, rfl, rfl, rfl,
      fun hidle => absurd (hidle.symm.trans hb) Bool.false_ne_true⟩
  · obtain ⟨hstatus, htree, hfreq, heof, hcode⟩ := State.resetEngine_reads { s with inputs := rest }
    exact ⟨hstatus, rfl, rfl, rfl, rfl, rfl, rfl, htree, hfreq, heof, hcode, rfl, rfl, rfl, fun _ => ⟨rfl, rfl, rfl⟩⟩

/-- Settles O14: the reset drops the command, and the free values it gives the ports are within R311's bounds. -/
theorem resetWhileBusyDiscardsTheCommand : Obligations.ResetWhileBusyDiscardsTheCommand := by
  intro s rest hb hin
  have hreset : State.resetInput { s with inputs := rest } = (State.freePorts { s with inputs := rest }).resetEngine :=
    if_pos hb
  refine ⟨_, step_reset hin, ?_⟩
  rw [hreset]
  exact ⟨rfl, Nat.min_le_right .., List.prefix_append _ _,
    State.known_congr rfl (fun h => nomatch h) rfl (fun i hi => absurd hi i.not_lt_zero) rfl⟩

/-! ### Ports (10_state.md R38, R39; 70_reset_and_hazards.md R313, R321) -/

/-- Settles O12: both are host steps that look at BUSY first. -/
theorem portsAttachOnlyWhileIdle : Obligations.PortsAttachOnlyWhileIdle := by
  refine fun s bits rest => ⟨fun hin => ⟨fun hb => ?_, fun hb => ?_⟩, fun hin => ⟨fun hb => ?_, fun hb => ?_⟩⟩ <;>
    rw [step_host hin nofun nofun]
  · exact if_neg (by simp [hb])
  · exact if_pos hb
  · exact if_neg (by simp [hb])
  · exact if_pos hb

/-! ### Reads while BUSY (70_reset_and_hazards.md R315) -/

theorem busyStatus_bits (w : Word) : (busyStatus w).getLsbD 0 = true ∧ (busyStatus w).getLsbD 1 = false ∧
    (busyStatus w).extractLsb' 2 30 = w.extractLsb' 2 30 := by
  have hmask : ∀ i, i < 30 → (0xFFFFFFFC#32).getLsbD (2 + i) = true ∧ (1#32).getLsbD (2 + i) = false := by decide
  refine ⟨by simp [busyStatus], by simp [busyStatus], ?_⟩
  ext i hi
  obtain ⟨hset, hclear⟩ := hmask i hi
  rw [BitVec.getElem_extractLsb', BitVec.getElem_extractLsb', busyStatus, BitVec.getLsbD_or, BitVec.getLsbD_and, hset,
    hclear, Bool.and_true, Bool.or_false]

theorem State.hostRead_of_busy {s : State} (hb : s.busy = true) (off : Nat) : s.hostRead off =
    { s with rdata := s.readBusy (Config.freeWord s.draws) off, draws := s.draws + 1 } :=
  if_pos hb

/-- The results, the fault record and TREEINFO read as the free word. -/
theorem State.readBusy_free (s : State) (w : Word) {off : Nat} (ha : off % 4 = 0) (hlow : 0x0C ≤ off)
    (hhigh : off ≤ 0x20) : s.readBusy w off = w := by
  obtain rfl | rfl | rfl | rfl | rfl | rfl :
      off = 0x0C ∨ off = 0x10 ∨ off = 0x14 ∨ off = 0x18 ∨ off = 0x1C ∨ off = 0x20 := by omega
  all_goals rfl

/-- Settles O10: the read draws a free word, and `State.readBusy` gives what each offset makes of it. -/
theorem readsWhileBusy : Obligations.ReadsWhileBusy := by
  intro s off rest ha hw hb hin
  refine ⟨s.readBusy (Config.freeWord s.draws) off, ?_, ?_, ?_, fun hlow hhigh => s.readBusy_free _ ha hlow hhigh,
    fun hoff => s.readBusy_eq_zero _ hoff⟩
  · rw [step_read hin ha hw, State.hostRead_of_busy (s := { s with inputs := rest }) hb]
    rfl
  · rintro rfl
    exact busyStatus_bits _
  · rintro rfl
    rfl

/-! ### The engine's turn (40_control.md R121, R123) -/

/-- Settles O6: in each of the three the engine moves, and runs the decoded command. -/
theorem stepRunsTheDecodedCommand : Obligations.StepRunsTheDecodedCommand := by
  refine fun s i hb hdecode => ⟨fun hin => ?_, fun rest hin => ?_, fun b rest hin => step_wait_busy hin hb hdecode⟩
  · exact step_eq_exec ⟨by rw [nextTurn, hin], hb⟩ hdecode
  · exact step_eq_exec (u := { s with inputs := rest }) ⟨by rw [nextTurn, hin], hb⟩ hdecode

end Sys2Proof.Machine
end

section
/-! FREQ_COUNT at a full entry, and the arithmetic of the tree BUILD makes (41_frequency.md R141; 42_tree_builder.md R160,
R162, R164). -/

namespace Sys2Proof.Machine

/-! ### COUNT_OVERFLOW (41_frequency.md R141) -/

section
variable {s w : State} {j k v : Nat}

theorem count_bytesAhead_succ (s : State) (k : Nat) :
    (s.bytesAhead (k + 1)).count (s.byteAt k) = (s.bytesAhead k).count (s.byteAt k) + 1 := by
  rw [bytesAhead_succ, List.count_append, List.count_singleton_self]

theorem count_bytesAhead_mono (s : State) (h : j ≤ k) (v : Nat) :
    (s.bytesAhead j).count v ≤ (s.bytesAhead k).count v :=
  (bytesAhead_sublist s h).count_le v

/-- What has been counted fits the entries. -/
theorem Counted.count_lt (h : Counted s k w) (hv : v < 256) : (s.bytesAhead k).count v < 2 ^ 32 := by
  rw [← h.counts v hv]
  exact (w.freqAt v).isLt

/-- Settles O21: the loop stops at a byte whose entry is full, which is no byte before the first such and none after it. -/
theorem freqCountOverflowFaults : Obligations.FreqCountOverflowFaults := by
  intro s k hk hfit hfull
  have hover : 2 ^ 32 ≤ (s.bytesAhead (k + 1)).count (s.byteAt k) := by
    rw [count_bytesAhead_succ, hfull]
    decide
  have hstops {j : Nat} {w : State} (hj : k < j) : ¬ Counted s j w := fun hw =>
    absurd (hover.trans (count_bytesAhead_mono s hj _)) (hw.count_lt (byteAt_lt s k)).not_ge
  obtain ⟨w, hw, -⟩ | ⟨j, w, -, hw, hfullJ, hexec⟩ := exec_freqCount s
  · exact absurd hw (hstops hk)
  · have hcountJ : (s.bytesAhead j).count (s.byteAt j) = 2 ^ 32 - 1 := by
      rw [← hw.counts _ (byteAt_lt s j), hfullJ]
      rfl
    obtain hlt | rfl | hlt := Nat.lt_trichotomy j k
    · have hle := (count_bytesAhead_mono s hlt (s.byteAt j)).trans (hfit _ (byteAt_lt s j))
      rw [count_bytesAhead_succ, hcountJ] at hle
      exact absurd hle (by decide)
    · refine ⟨_, hexec, ?_, hw.counts, hw.eofCount⟩
      rw [known_complete, hw.frame]
      rfl
    · exact absurd hw (hstops hlt)

end

/-! ### The root (42_tree_builder.md R160, R162) -/

/-- The entry made last is in the queue, so it is the root. -/
theorem root_of_mergeLoop {s : State} {f : Forest} {root : Nat}
    (hloop : mergeLoop (buildLeaves s).queue.length (buildLeaves s) = some (f, root)) : root + 1 = f.count := by
  obtain ⟨hm, hqueue⟩ := mergeLoop_merging hloop
  have hcount := count_of_mergeLoop hloop
  have hlast : f.count - 1 ∈ f.queue := by
    refine (hm.queue _).mpr ⟨by omega, fun m n hk hlt hn => ?_⟩
    have hmerged := hm.merged m n hk hlt hn
    have hleft := hmerged.left.lt
    have hright := hmerged.right.lt
    omega
  rw [hqueue, List.mem_singleton] at hlast
  omega

/-- Settles O23: `exec_build` for the end, `Merging` for the leaves, and the last entry for the root. -/
theorem buildMakesLeavesAndRoot : Obligations.BuildMakesLeavesAndRoot := by
  intro s heof
  obtain ⟨f₀, root₀, hexec⟩ := exec_build heof
  obtain ⟨f, root, hloop, ht⟩ := exec_build_next hexec
  rw [finish, ht] at hexec
  obtain ⟨hm, -⟩ := mergeLoop_merging hloop
  have hcount := count_of_mergeLoop hloop
  have hroot := root_of_mergeLoop hloop
  have hcap := length_countedSymbols_le s
  have hncount : (s.withForest f root).undefineNodes.complete.ncount.toNat = f.count := withForest_ncount hloop
  have hrootIndex : (BitVec.ofNat 10 root).toNat = root := toNat_ofNat_of_le_cap (by omega)
  refine ⟨_, hexec, by rw [known_complete]; rfl, by omega, hrootIndex.trans (by omega), fun j v hv => ?_⟩
  obtain ⟨hj, -⟩ := List.getElem?_eq_some_iff.mp hv
  rw [withForest_node hloop (hj.trans_le hm.leafCount), hm.leaf j v hv]
  rfl

/-! ### The weights (42_tree_builder.md R162, R164) -/

theorem sum_map_filter_ne_zero (f : Nat → Nat) (l : List Nat) :
    ((l.filter fun v => f v ≠ 0).map f).sum = (l.map f).sum := by
  rw [← List.sum_filter_bne_zero (l.map f), List.filter_map]
  congr 2
  exact List.filter_congr fun v _ => Bool.eq_iff_iff.mpr (by simp)

theorem totalCount_eq_sum_countedSymbols (s : State) :
    (s.countedSymbols.map fun v => (s.freqAt v).toNat).sum = s.totalCount := by
  have hcounted : s.countedSymbols = (List.range 257).filter fun v => (s.freqAt v).toNat ≠ 0 :=
    List.filter_congr fun v _ => decide_eq_decide.mpr (not_congr BitVec.toNat_inj.symm)
  rw [hcounted]
  exact sum_map_filter_ne_zero _ _

/-- The frequencies of the bytes sum to at most 256 (2^32 - 1). -/
theorem totalCount_le (s : State) : s.totalCount ≤ 256 * (2 ^ 32 - 1) + (s.freqAt 256).toNat := by
  have hbytes := List.sum_le_card_nsmul ((List.range 256).map fun v => (s.freqAt v).toNat) (2 ^ 32 - 1)
    (List.forall_mem_map.mpr fun v _ => Nat.le_pred_of_lt (s.freqAt v).isLt)
  rw [List.length_map, List.length_range, smul_eq_mul] at hbytes
  rw [State.totalCount, List.range_succ, List.map_append, List.sum_append, List.map_singleton, List.sum_singleton]
  exact Nat.add_le_add_right hbytes _

/-- So no sum of weights reaches 2^41. -/
theorem totalCount_lt (s : State) : s.totalCount < 2 ^ 41 := by
  have hle := totalCount_le s
  have hlt := (s.freqAt 256).isLt
  omega

theorem entryWeight_of_some {node : Vector Node 513} {i : Nat} {n : Node} (h : node[i]? = some n) :
    entryWeight node i = n.wgt.toNat := by
  rw [entryWeight, h]

theorem entryWeight_congr {node node' : Vector Node 513} {i : Nat} (h : node'[i]? = node[i]?) :
    entryWeight node' i = entryWeight node i := by
  rw [entryWeight, entryWeight, h]

/-- The node `n` is internal, and its weight is exactly the sum of its children's. -/
structure AddsUp (node : Vector Node 513) (n : Node) : Prop where
  internal : n.leaf = false
  symbol : n.sym = 0
  weight : n.wgt.toNat = entryWeight node n.left.toNat + entryWeight node n.right.toNat

/-- BUILD, run in `s`, stands at the forest `f`: the weights in the queue make up all the counts, and every entry past
the leaves adds up. -/
structure Weighed (s : State) (f : Forest) : Prop where
  total : (f.queue.map (entryWeight f.node)).sum = s.totalCount
  merged : ∀ i, s.countedSymbols.length ≤ i → i < f.count → ∃ n, f.node[i]? = some n ∧ AddsUp f.node n

theorem buildLeaves_weighed (s : State) : Weighed s (buildLeaves s) := by
  obtain ⟨hcount, hqueue, hleaf⟩ := buildLeaves_leavesOf s
  refine ⟨?_, fun i hk hi => absurd (hcount ▸ hi) hk.not_gt⟩
  rw [hqueue, ← totalCount_eq_sum_countedSymbols]
  congr 1
  refine List.ext_getElem (by simp) fun j hj _ => ?_
  rw [List.length_map, List.length_range] at hj
  rw [List.getElem_map, List.getElem_map, List.getElem_range,
    entryWeight_of_some (hleaf j _ (List.getElem?_eq_getElem hj)), leafNode_wgt]

section
variable {s : State} {f : Forest} {l r : Nat} {q q' : List Nat} (hw : Weighed s f)
  (hl : removeMin f.node f.queue = some (l, q)) (hr : removeMin f.node q = some (r, q'))
include hw hl hr

/-- The two taken off the queue and the rest of it make up all the counts. -/
theorem Weighed.total_of_taken :
    entryWeight f.node l + entryWeight f.node r + (q'.map (entryWeight f.node)).sum = s.totalCount := by
  obtain ⟨hmemL, rfl, -⟩ := removeMin_some hl
  obtain ⟨hmemR, rfl, -⟩ := removeMin_some hr
  have hqueue := (List.perm_cons_erase hmemL).trans ((List.perm_cons_erase hmemR).cons l)
  rw [← hw.total, (hqueue.map _).sum_eq, List.map_cons, List.map_cons, List.sum_cons, List.sum_cons, Nat.add_assoc]

variable (h : Merging s f)
include h

/-- The 41-bit sum of a merge does not wrap. -/
theorem Weighed.mergeNode_addsUp : AddsUp f.node (mergeNode f.node l r) := by
  obtain ⟨hleft, hright⟩ := h.mergeNode_links hl hr
  refine ⟨rfl, rfl, ?_⟩
  have htotal := hw.total_of_taken hl hr
  have hlt := totalCount_lt s
  rw [hleft, hright, mergeNode, BitVec.toNat_add, ← entryWeight_eq_weightOf, ← entryWeight_eq_weightOf]
  exact Nat.mod_eq_of_lt (by omega)

theorem Weighed.merge : Weighed s (f.merge l r q') := by
  obtain ⟨-, hcap⟩ := h.room hl hr
  have hold {i : Nat} (hi : i < f.count) : entryWeight (f.merge l r q').node i = entryWeight f.node i :=
    entryWeight_congr (Forest.merge_node_of_lt l r q' hi)
  have hat := Forest.merge_node_count l r q' hcap
  have hnew := hw.mergeNode_addsUp hl hr h
  have hkept {n : Node} (hleft : n.left.toNat < f.count) (hright : n.right.toNat < f.count) (hn : AddsUp f.node n) :
      AddsUp (f.merge l r q').node n :=
    ⟨hn.internal, hn.symbol, by rw [hold hleft, hold hright]; exact hn.weight⟩
  obtain ⟨hleft, hright⟩ := h.mergeNode_links hl hr
  obtain ⟨hlt, hrt⟩ := h.taken_lt hl hr
  refine ⟨?_, fun i hk hi => ?_⟩
  · have hrest : q'.map (entryWeight (f.merge l r q').node) = q'.map (entryWeight f.node) :=
      List.map_congr_left fun j hj => hold (h.lt_of_mem_queue ((h.mem_rest hl hr j).mp hj).1)
    have htotal := hw.total_of_taken hl hr
    rw [Forest.merge_queue, List.map_append, List.sum_append, hrest, List.map_singleton, List.sum_singleton,
      entryWeight_of_some hat, hnew.weight, hleft, hright]
    omega
  · obtain hlt' | rfl := Nat.lt_succ_iff_lt_or_eq.mp hi
    · obtain ⟨n, hn, hadds⟩ := hw.merged i hk hlt'
      have hchildren := h.merged i n hk hlt' hn
      exact ⟨n, (Forest.merge_node_of_lt l r q' hlt').trans hn,
        hkept (hchildren.left.lt.trans hlt') (hchildren.right.lt.trans hlt') hadds⟩
    · exact ⟨_, hat, hkept (hleft.trans_lt hlt) (hright.trans_lt hrt) hnew⟩

end

theorem weighed_of_mergeLoop {s : State} {f : Forest} {root : Nat}
    (hloop : mergeLoop (buildLeaves s).queue.length (buildLeaves s) = some (f, root)) : Weighed s f := by
  obtain ⟨⟨-, hw⟩, -⟩ := mergeLoop_keeps (P := fun f => Merging s f ∧ Weighed s f)
    (fun f l r q q' ⟨hm, hw⟩ hl hr => ⟨hm.merge hl hr, hw.merge hl hr hm⟩)
    ⟨buildLeaves_merging s, buildLeaves_weighed s⟩ hloop
  exact hw

theorem entryBefore.weight_le {node : Vector Node 513} {i j : Nat} (h : entryBefore node i j) :
    entryWeight node i ≤ entryWeight node j := by
  obtain h | ⟨h, -⟩ := h
  exacts [h.le, h.le]

section
variable {s : State} {f : Forest} (hm : Merging s f) (hw : Weighed s f)
include hm hw

/-- A merge weighs no less than the one before it: neither of its children weighs less than the heavier child of that. -/
theorem Weighed.weight_le_succ {i : Nat} (hk : s.countedSymbols.length ≤ i) (hi : i + 1 < f.count) :
    entryWeight f.node i ≤ entryWeight f.node (i + 1) := by
  have hlt : i < f.count := (Nat.lt_succ_self i).trans hi
  obtain ⟨n, hn, hadds⟩ := hw.merged i hk hlt
  obtain ⟨n', hn', hadds'⟩ := hw.merged (i + 1) (hk.trans (Nat.le_succ i)) hi
  have hleast := hm.merged i n hk hlt hn
  have hleast' := hm.merged (i + 1) n' (hk.trans (Nat.le_succ i)) hi hn'
  have hordered := hleast.ordered.weight_le
  have hweight : entryWeight f.node i = _ := (entryWeight_of_some hn).trans hadds.weight
  have hchildren : ∀ m p, s.countedSymbols.length ≤ m → m ≤ i → f.node[m]? = some p →
      p.left.toNat < m ∧ p.right.toNat < m := fun m p hkm hmi hp =>
    have hmerged := hm.merged m p hkm (hmi.trans_lt hlt) hp
    ⟨hmerged.left.lt, hmerged.right.lt⟩
  have hheavier {j : Nat} (hj : InQueueAt f.node s.countedSymbols.length (i + 1) j) :
      entryWeight f.node n.right.toNat ≤ entryWeight f.node j := by
    obtain rfl | ⟨hj, hne, hne'⟩ := (inQueueAt_succ hk hn hchildren).mp hj
    · omega
    · exact (hleast.least j hj hne hne').2.weight_le
  have hleft := hheavier hleast'.left
  have hright := hheavier hleast'.right
  rw [entryWeight_of_some hn', hadds'.weight]
  omega

theorem Weighed.weight_mono {i j : Nat} (hk : s.countedSymbols.length ≤ i) (hij : i ≤ j) (hj : j < f.count) :
    entryWeight f.node i ≤ entryWeight f.node j := by
  induction j, hij using Nat.le_induction with
  | base => exact le_rfl
  | succ j hij ih => exact (ih (by omega)).trans (hw.weight_le_succ hm (hk.trans hij) hj)

end

/-- Settles O24: `Weighed` for the sums and the root, and `Weighed.weight_mono` for the order of the weights. -/
theorem builtInternalNodesAddUp : Obligations.BuiltInternalNodesAddUp := by
  intro s t heof hexec
  obtain ⟨f, root, hloop, rfl⟩ := exec_build_next hexec
  obtain ⟨hm, hqueue⟩ := mergeLoop_merging hloop
  have hw := weighed_of_mergeLoop hloop
  have hcount := count_of_mergeLoop hloop
  have hroot := root_of_mergeLoop hloop
  have hcap := length_countedSymbols_le s
  have hrootIndex : (BitVec.ofNat 10 root).toNat = root := toNat_ofNat_of_le_cap (by omega)
  have hnode {i : Nat} (hi : i < f.count) := withForest_node hloop hi
  have hweight {i : Nat} (hi : i < f.count) :
      entryWeight (s.withForest f root).undefineNodes.complete.node i = entryWeight f.node i :=
    entryWeight_congr (hnode hi)
  refine ⟨fun i hk hi => ?_, ?_, ?_, fun i j hk hij hj => ?_⟩
  · have hlt : i < f.count := by omega
    obtain ⟨n, hn, hadds⟩ := hw.merged i hk hlt
    have hmerged := hm.merged i n hk hlt hn
    have hleft := hmerged.left.lt
    have hright := hmerged.right.lt
    refine ⟨n, (hnode hlt).trans hn, hadds.internal, hadds.symbol, hleft, hright, ?_⟩
    rw [hweight (hleft.trans hlt), hweight (hright.trans hlt), hadds.weight]
  · have htotal := hw.total
    rw [hqueue, List.map_singleton, List.sum_singleton] at htotal
    refine (congrArg _ hrootIndex).trans ((hweight ?_).trans htotal)
    omega
  · have hle := totalCount_le s
    rwa [heof] at hle
  · rw [hweight (by omega), hweight (by omega)]
    exact hw.weight_mono hm hk hij (by omega)

end Sys2Proof.Machine
end

section
/-! The clauses of a well-formed tree (10_state.md R33). -/

namespace Sys2Proof.Machine

section
variable {node : Vector Node 513}

theorem Shape.root_mem_entries (t : Shape) (i : BitVec 10) : i.toNat ∈ t.entries node i := by
  cases t with
  | leaf y => exact List.mem_singleton_self _
  | node l r =>
    rw [Shape.entries]
    split <;> exact List.mem_cons_self

/-- Each entry of a tree is a leaf with one of its symbols, or an internal node whose children are entries of it. -/
theorem Holds.entry_cases : ∀ {t : Shape} {i : BitVec 10} {j : Nat}, Holds node t i → j ∈ t.entries node i →
    ∃ n, node[j]? = some n ∧ ((n.leaf = true ∧ n.sym.toNat ∈ t.leaves.map Prod.fst) ∨
      (n.leaf = false ∧ n.left.toNat ∈ t.entries node i ∧ n.right.toNat ∈ t.entries node i))
  | .leaf y, i, j, ⟨n, hn, hleaf, hsym⟩, hj => by
    obtain rfl := List.mem_singleton.mp hj
    exact ⟨n, hn, .inl ⟨hleaf, List.mem_singleton.mpr hsym⟩⟩
  | .node l r, i, j, ⟨m, hm, hinternal, hl, hr⟩, hj => by
    rw [Shape.entries_node hm, List.mem_cons, List.mem_append] at hj
    rw [Shape.map_fst_leaves_node, Shape.entries_node hm]
    obtain rfl | hj | hj := hj
    · exact ⟨m, hm, .inr ⟨hinternal, by simp [Shape.root_mem_entries], by simp [Shape.root_mem_entries]⟩⟩
    · obtain ⟨n, hn, ⟨hleaf, hsym⟩ | ⟨hinternal, hleft, hright⟩⟩ := hl.entry_cases hj
      · exact ⟨n, hn, .inl ⟨hleaf, List.mem_append_left _ hsym⟩⟩
      · exact ⟨n, hn, .inr ⟨hinternal, by simp [hleft], by simp [hright]⟩⟩
    · obtain ⟨n, hn, ⟨hleaf, hsym⟩ | ⟨hinternal, hleft, hright⟩⟩ := hr.entry_cases hj
      · exact ⟨n, hn, .inl ⟨hleaf, List.mem_append_right _ hsym⟩⟩
      · exact ⟨n, hn, .inr ⟨hinternal, by simp [hleft], by simp [hright]⟩⟩

/-! ### Paths in a tree -/

theorem follow_append : ∀ {p q : List Bool} {i j : BitVec 10}, follow node i p = some j →
    follow node i (p ++ q) = follow node j q
  | [], _, _, _, h => by cases h; rfl
  | b :: p, q, i, j, h => by
    obtain ⟨n, hn, hinternal, hrest⟩ := follow_cons_eq_some h
    rw [List.cons_append, follow_cons hn hinternal]
    exact follow_append hrest

/-- Every entry of a tree is reached from its root. -/
theorem Holds.exists_follow : ∀ {t : Shape} {i : BitVec 10} {j : Nat}, Holds node t i → j ∈ t.entries node i →
    ∃ p k, follow node i p = some k ∧ k.toNat = j
  | .leaf _, i, j, _, hj => ⟨[], i, rfl, (List.mem_singleton.mp hj).symm⟩
  | .node l r, i, j, ⟨n, hn, hinternal, hl, hr⟩, hj => by
    rw [Shape.entries_node hn, List.mem_cons, List.mem_append] at hj
    obtain rfl | hj | hj := hj
    · exact ⟨[], i, rfl, rfl⟩
    · obtain ⟨p, k, hp, hk⟩ := hl.exists_follow hj
      exact ⟨false :: p, k, (follow_cons hn hinternal false p).trans hp, hk⟩
    · obtain ⟨p, k, hp, hk⟩ := hr.exists_follow hj
      exact ⟨true :: p, k, (follow_cons hn hinternal true p).trans hp, hk⟩

/-- From the root of a leaf no path takes a link. -/
theorem path_eq_nil_of_leaf {i k : BitVec 10} {p : List Bool} {y : Nat} (h : Holds node (.leaf y) i)
    (hp : follow node i p = some k) : p = [] := by
  obtain ⟨n, hn, hleaf, -⟩ := h
  cases p with
  | nil => rfl
  | cons b p =>
    obtain ⟨m, hm, hinternal, -⟩ := follow_cons_eq_some hp
    cases hn.symm.trans hm
    exact absurd (hinternal.symm.trans hleaf) Bool.false_ne_true

/-- From the root of a tree a path that takes a link goes on in the child it selects. -/
theorem Holds.follow_child {l r : Shape} {i k : BitVec 10} {n : Node} {b : Bool} {p : List Bool}
    (h : Holds node (.node l r) i) (hn : node[i.toNat]? = some n) (hp : follow node i (b :: p) = some k) :
    Holds node (if b then r else l) (n.child b) ∧ follow node (n.child b) p = some k := by
  obtain ⟨m, hm, hinternal, hl, hr⟩ := h
  cases hn.symm.trans hm
  rw [follow_cons hn hinternal] at hp
  cases b
  exacts [⟨hl, hp⟩, ⟨hr, hp⟩]

/-- Every path from the root of a tree ends at one of its entries. -/
theorem Holds.follow_mem : ∀ {t : Shape} {i k : BitVec 10} {p : List Bool}, Holds node t i → follow node i p = some k →
    k.toNat ∈ t.entries node i
  | t, i, k, [], _, hp => by
    cases hp
    exact t.root_mem_entries i
  | .leaf _, i, k, b :: p, h, hp => by cases path_eq_nil_of_leaf h hp
  | .node l r, i, k, b :: p, h, hp => by
    have ⟨n, hn, _⟩ := h
    obtain ⟨hchild, hrest⟩ := h.follow_child hn hp
    have hmem := hchild.follow_mem hrest
    rw [Shape.entries_node hn]
    cases b
    · exact List.mem_cons_of_mem _ (List.mem_append_left _ hmem)
    · exact List.mem_cons_of_mem _ (List.mem_append_right _ hmem)

/-- With every entry once, only one path leads to an entry. -/
theorem Holds.follow_unique : ∀ {t : Shape} {i k : BitVec 10} {p q : List Bool}, Holds node t i →
    (t.entries node i).Nodup → follow node i p = some k → follow node i q = some k → p = q
  | .leaf _, _, _, p, q, h, _, hp, hq => (path_eq_nil_of_leaf h hp).trans (path_eq_nil_of_leaf h hq).symm
  | .node l r, i, k, p, q, h, hnodup, hp, hq => by
    have ⟨n, hn, _⟩ := h
    rw [Shape.entries_node hn, List.nodup_cons, List.mem_append, List.nodup_append'] at hnodup
    obtain ⟨hroot, hnodupL, hnodupR, hdisjoint⟩ := hnodup
    have hbelow {b : Bool} {u : List Bool} (hu : follow node i (b :: u) = some k) : follow node (n.child b) u = some k ∧
        k.toNat ∈ (if b then r else l).entries node (n.child b) := by
      obtain ⟨hchild, hrest⟩ := h.follow_child hn hu
      exact ⟨hrest, hchild.follow_mem hrest⟩
    have hback {b : Bool} {u : List Bool} (hu : follow node i (b :: u) = some i) : False := by
      obtain ⟨hchild, hrest⟩ := h.follow_child hn hu
      have hmem := hchild.follow_mem hrest
      cases b
      exacts [hroot (.inl hmem), hroot (.inr hmem)]
    match p, q with
    | [], [] => rfl
    | [], b :: q => cases hp; exact (hback hq).elim
    | b :: p, [] => cases hq; exact (hback hp).elim
    | b :: p, b' :: q =>
      obtain ⟨hp', hmemP⟩ := hbelow hp
      obtain ⟨hq', hmemQ⟩ := hbelow hq
      obtain ⟨hchild, -⟩ := h.follow_child hn hp
      match b, b' with
      | false, false => rw [hchild.follow_unique hnodupL hp' hq']
      | true, true => rw [hchild.follow_unique hnodupR hp' hq']
      | false, true => exact (hdisjoint hmemP hmemQ).elim
      | true, false => exact (hdisjoint hmemQ hmemP).elim

end

/-- Settles O54: the entries are those below NCOUNT, each once, and the lemmas about the entries and paths of a tree give
each clause. -/
theorem wellFormedTreeClauses : Obligations.WellFormedTreeClauses := by
  intro s hok
  have ⟨tree, hholds, ha, hentries⟩ := hok
  obtain ⟨hncount, hcap⟩ := hok.ncount_eq_size hholds
  have hsize := tree.size_add_one
  have hmem (j : Nat) : j ∈ tree.entries s.node s.root ↔ j < s.ncount.toNat := by
    rw [hentries.mem_iff, List.mem_range]
  have hnodup : (tree.entries s.node s.root).Nodup := hentries.nodup_iff.mpr List.nodup_range
  refine ⟨(hmem _).mp (tree.root_mem_entries _), by omega, by omega, fun i n hi hn => ?_, fun i hi => ?_⟩
  · obtain ⟨m, hm, hcases⟩ := hholds.entry_cases ((hmem i).mpr hi)
    cases hn.symm.trans hm
    obtain ⟨hleaf, hsym⟩ | ⟨hinternal, hleft, hright⟩ := hcases
    · obtain ⟨e, he, heq⟩ := List.mem_map.mp hsym
      exact ⟨fun _ => heq ▸ ha e he, fun h => absurd (h.symm.trans hleaf) Bool.false_ne_true⟩
    · exact ⟨fun h => absurd (hinternal.symm.trans h) Bool.false_ne_true,
        fun _ => ⟨(hmem _).mp hleft, (hmem _).mp hright⟩⟩
  · obtain ⟨p, k, hp, rfl⟩ := hholds.exists_follow ((hmem i).mpr hi)
    rw [BitVec.ofNat_toNat, BitVec.setWidth_eq]
    refine ⟨⟨p, hp, fun q hq => hholds.follow_unique hnodup hq hp⟩, fun q hne hcycle => hne ?_⟩
    have hlonger := hholds.follow_unique hnodup ((follow_append hp).trans hcycle) hp
    exact List.append_right_eq_self.mp hlonger

end Sys2Proof.Machine
end
